-- ==== Sys2Proof/Word.lean ====
section
/-! DEFINITION. The value types of the block (00_scope.md R7): a byte and the unsigned integers of 16 and 32 bits. -/

namespace Sys2Proof

/-- A byte, an unsigned integer 0 to 255 (00_scope.md R7). -/
abbrev Byte := BitVec 8

/-- `u16` of 00_scope.md R7. -/
abbrev Half := BitVec 16

/-- `u32` of 00_scope.md R7. -/
abbrev Word := BitVec 32

end Sys2Proof
end

