-- ==== Sys2Proof/Config.lean ====
section
/-! DEFINITION. The literals of 00_scope.md R6 that no register holds, the reset values of the configuration registers
(10_state.md R27), and the model's one free value. -/

namespace Sys2Proof

/-- `SYNC`, the header byte of every command and response frame (00_scope.md R6). -/
def Config.sync : Byte := 0x49#8

/-- `HS_ACK`, the handshake acknowledgement (00_scope.md R6, 30_encoding.md R79). -/
def Config.hsAck : Byte := 0x11#8

/-- `ACK`, the shim-load acknowledgement (00_scope.md R6, 30_encoding.md R80). -/
def Config.ack : Byte := 0x01#8

/-- `OP_RAMINIT` (00_scope.md R6). -/
def Config.opRamInit : Byte := 0x00#8

/-- `OP_ERASE` (00_scope.md R6). -/
def Config.opErase : Byte := 0x02#8

/-- `OP_WRITE` (00_scope.md R6). -/
def Config.opWrite : Byte := 0x04#8

/-- `OP_BLANK` (00_scope.md R6). -/
def Config.opBlank : Byte := 0x07#8

/-- `BLANK_FIELD`, the literal field of the blank-check frame (00_scope.md R6, 30_encoding.md R77). -/
def Config.blankField : List Byte := [0x04#8, 0x00#8]

/-- `HS_PATTERN`, 18 FF ten times (00_scope.md R6, 30_encoding.md R78). -/
def Config.hsPattern : List Byte := (List.replicate 10 [0x18#8, 0xFF#8]).flatten

/-- `JUMP_CMD` (00_scope.md R6, 30_encoding.md R74). -/
def Config.jumpCmd : List Byte :=
  [0xC0#8, 0x00#8, 0x00#8, 0x00#8, 0x00#8, 0x00#8, 0x00#8, 0x00#8, 0x00#8, 0xC0#8]

/-- How many bytes `RXB` and `ERR_RAW` hold (10_state.md R26, R29); also `JUMP_RESP_LEN`. -/
def Config.bufferBytes : Nat := 11

/-- FREE VALUE (DESIGN CHOICE, log 12): which bytes stand in `RXB` or `ERR_RAW` after an operation called on its own
hands them more than eleven bytes; the spec states none, since no run of the block does so. Nothing is known of it. -/
opaque Config.overlong : List Byte → List Byte

end Sys2Proof
end

