-- ==== Sys2Proof/Machine/Codec.lean ====
section
/-! DEFINITION. The FrameCodec as pure functions (41_framecodec.md): byte order, checksum, framer, sync pattern, validator
and detectors. No function here touches the transport, the time or the sequencer position. -/

namespace Sys2Proof

/-- `le16(v)` (00_scope.md R8): least significant byte first. -/
def le16 (v : Half) : List Byte := [v.extractLsb' 0 8, v.extractLsb' 8 8]

/-- `le32(v)` (00_scope.md R8). -/
def le32 (v : Word) : List Byte :=
  [v.extractLsb' 0 8, v.extractLsb' 8 8, v.extractLsb' 16 8, v.extractLsb' 24 8]

/-- `u16le(b)` (00_scope.md R8), of the two bytes in wire order. -/
def u16le (b0 b1 : Byte) : Half := b1 ++ b0

/-- `u32le(b)` (00_scope.md R8), of the four bytes in wire order. -/
def u32le (b0 b1 b2 b3 : Byte) : Word := b3 ++ b2 ++ b1 ++ b0

/-- `sum8(b)` (41_framecodec.md R120): the running 8-bit sum from 0, carry out discarded. -/
def sum8 (bytes : List Byte) : Byte := bytes.foldl (· + ·) 0#8

/-- `appendChecksum8` (41_framecodec.md R121). -/
def appendSum8 (bytes : List Byte) : List Byte := bytes ++ [sum8 bytes]

/-- The bytes of a command frame before its checksum (41_framecodec.md R122, 30_encoding.md R71). -/
def frameBody (opcode : Byte) (address : Word) (extra payload : List Byte) : List Byte :=
  [Config.sync, opcode] ++ le32 address ++ extra ++ payload

/-- `buildCommandFrame` (41_framecodec.md R122). -/
def commandFrame (opcode : Byte) (address : Word) (extra payload : List Byte) : List Byte :=
  appendSum8 (frameBody opcode address extra payload)

/-- `isSync` (41_framecodec.md R125). -/
def syncByte (b : Byte) : Bool := b == Config.sync

/-- `isHandshakeAck` (41_framecodec.md R126). -/
def hsAckByte (b : Byte) : Bool := b == Config.hsAck

/-- `isAck` (41_framecodec.md R127). -/
def ackByte (b : Byte) : Bool := b == Config.ack

/-- The length and header tests of `validateResponseFrame` (41_framecodec.md R124), in the order the rule lists them; the
checksum is computed only when both pass. -/
def frameHeaderOk (bytes : List Byte) (expected : Nat) : Bool :=
  bytes.length == expected && bytes.head?.any syncByte

/-- `validateResponseFrame` (41_framecodec.md R124): true when the frame is accepted. -/
def validFrame (bytes : List Byte) (expected : Nat) : Bool :=
  frameHeaderOk bytes expected && (bytes.getLast? == some (sum8 bytes.dropLast))

/-- The four tests of 44_flashprogrammer.md R175 on a BLANK_CHECK response. -/
def validBlank (bytes : List Byte) : Bool :=
  validFrame bytes 10 && bytes[6]? == some 0x01#8 && bytes[7]? == some 0x00#8

end Sys2Proof
end

