-- ==== Sys2Proof/Syntax.lean ====
section
/-! DEFINITION. The instructions: one constructor for each of the 41 rows of spec/opcode_table.json, the twelve wire messages
first (30_encoding.md R70) and then the twenty-nine operations (30_encoding.md R90). -/

namespace Sys2Proof

/-- How the bytes of an instruction are to be read. A wire message does not say by itself which it is: the direction and the
position in the sequence tell (30_encoding.md R85), and the table keeps them apart by its column `format`. -/
inductive Format where
  /-- An operation: its OPID (30_encoding.md R90), then the operands in the model's own order (log 2). -/
  | opid
  /-- A self-describing TX message: RAW20, CMD9, RAW10, CMDVAR, CMD11. -/
  | tx
  /-- SHIM_DATA (RAWVAR): all the bytes presented are the message. -/
  | rawvar
  /-- A one-byte response: HS_ACK or ACK. -/
  | rx1
  /-- RESP9. -/
  | rx9
  /-- RESP10. -/
  | rx10
  /-- JUMP_BANNER. -/
  | rx11
  deriving DecidableEq, Repr

/-- The instructions of the block (00_scope.md R2). A field `ck` is the checksum byte of the message. -/
inductive Instr where
  /-- HANDSHAKE (30_encoding.md R78). -/
  | handshakeMsg
  /-- RAM_INIT (30_encoding.md R72). -/
  | ramInitMsg (address : Word) (length : Half) (ck : Byte)
  /-- SHIM_DATA (30_encoding.md R73). -/
  | shimDataMsg (data : List Byte) (ck : Byte)
  /-- JUMP (30_encoding.md R74). -/
  | jumpMsg
  /-- CHIP_ERASE (30_encoding.md R75). -/
  | chipEraseMsg
  /-- PAGE_WRITE (30_encoding.md R76); the length field is the number of data bytes. -/
  | pageWriteMsg (address : Word) (data : List Byte) (ck : Byte)
  /-- BLANK_CHECK (30_encoding.md R77). -/
  | blankCheckMsg (address : Word) (length : Half) (ck : Byte)
  /-- HS_ACK (30_encoding.md R79). -/
  | hsAckMsg
  /-- ACK (30_encoding.md R80). -/
  | ackMsg
  /-- JUMP_BANNER (30_encoding.md R81): eleven bytes of any values. -/
  | jumpBannerMsg (b0 b1 b2 b3 b4 b5 b6 b7 b8 b9 b10 : Byte)
  /-- RESP9 (30_encoding.md R82): the bytes at offsets 1 to 7, then the checksum. -/
  | resp9Msg (e1 e2 e3 e4 e5 e6 e7 ck : Byte)
  /-- RESP10 (30_encoding.md R83): the bytes at offsets 1 to 5, the byte at offset 8, then the checksum. -/
  | resp10Msg (e1 e2 e3 e4 e5 u8 ck : Byte)
  /-- open (40_transport.md R101). -/
  | openPort (port : List Byte) (baud : Word)
  /-- close (40_transport.md R102). -/
  | closePort
  /-- setResetLine (40_transport.md R103). -/
  | setResetLine (asserted : Bool)
  /-- discardBuffers (40_transport.md R104). -/
  | discardBuffers
  /-- writeBytes (40_transport.md R105). -/
  | writeBytes (data : List Byte)
  /-- wait (40_transport.md R106); the width of `ms` is the model's (log 2). -/
  | wait (ms : Word)
  /-- readExact (40_transport.md R107); the widths of `count` and `timeout` are the model's (log 2). -/
  | readExact (count timeout : Word)
  /-- checksum8 (41_framecodec.md R120). -/
  | checksum8 (bytes : List Byte)
  /-- appendChecksum8 (41_framecodec.md R121). -/
  | appendChecksum8 (bytes : List Byte)
  /-- buildCommandFrame (41_framecodec.md R122). -/
  | buildCommandFrame (opcode : Byte) (address : Word) (extraFields payload : List Byte)
  /-- handshakePattern (41_framecodec.md R123). -/
  | handshakePattern
  /-- validateResponseFrame (41_framecodec.md R124); the width of `expectedLength` is the model's (log 2). -/
  | validateResponseFrame (bytes : List Byte) (expectedLength : Word)
  /-- isSync (41_framecodec.md R125). -/
  | isSync (b : Byte)
  /-- isHandshakeAck (41_framecodec.md R126). -/
  | isHandshakeAck (b : Byte)
  /-- isAck (41_framecodec.md R127). -/
  | isAck (b : Byte)
  /-- handshake (42_handshake.md R140). -/
  | handshake
  /-- resetPulse (42_handshake.md R141). -/
  | resetPulse
  /-- loadAndRun (43_shimloader.md R150). -/
  | loadAndRun (shimBytes : List Byte) (ramBaseAddress : Word)
  /-- ramInit (43_shimloader.md R152). -/
  | ramInit (base : Word) (len : Half)
  /-- shimData (43_shimloader.md R153). -/
  | shimData (shimBytes : List Byte)
  /-- jump (43_shimloader.md R154). -/
  | jump
  /-- chipErase (44_flashprogrammer.md R167). -/
  | chipErase
  /-- writePage (44_flashprogrammer.md R168). -/
  | writePage (address : Word) (data : List Byte)
  /-- writeImage (44_flashprogrammer.md R172): the image as its load address and bytes, and the page size. -/
  | writeImage (loadAddress : Word) (bytes : List Byte) (pageSize : Half)
  /-- blankCheckSegment (44_flashprogrammer.md R174). -/
  | blankCheckSegment (address : Word) (length : Half)
  /-- blankCheck (44_flashprogrammer.md R176), its operands as wide as K5, K3 and K4 (10_state.md R27). -/
  | blankCheck (startAddress : Word) (pageSize : Half) (pageCount : Word)
  /-- download (45_orchestrator.md R190, R193). -/
  | download
  /-- listen (45_orchestrator.md R190, R202). -/
  | listen
  /-- loadImage (45_orchestrator.md R192). -/
  | loadImage
  deriving DecidableEq, Repr

end Sys2Proof
end

