-- ==== Sys2Proof/WellFormed.lean ====
section
/-! DEFINITION. When an instruction is well formed: its operands fit its encoding (`Instr.encodable`), and it meets the
conditions the table states in words beside match and mask (`Instr.wellFormed`: checksums, operand ranges). -/

namespace Sys2Proof

/-- A byte sequence whose length fits the 32-bit count before it (log 2). -/
def seqFits (l : List Byte) : Bool := decide (l.length < 2 ^ 32)

/-- The operands fit the fields of the encoding. A wrong checksum is still encodable. -/
def Instr.encodable : Instr → Bool
  | .pageWriteMsg _ data _ => decide (data.length ≤ 65535)
  | .openPort port _ => seqFits port
  | .writeBytes data => seqFits data
  | .checksum8 bytes => seqFits bytes
  | .appendChecksum8 bytes => seqFits bytes
  | .buildCommandFrame _ _ extra payload => seqFits extra && seqFits payload
  | .validateResponseFrame bytes _ => seqFits bytes
  | .loadAndRun shim _ => seqFits shim
  | .shimData shim => seqFits shim
  | .writePage _ data => seqFits data
  | .writeImage _ bytes _ => seqFits bytes
  | .handshakeMsg | .ramInitMsg _ _ _ | .shimDataMsg _ _ | .jumpMsg | .chipEraseMsg | .blankCheckMsg _ _ _ => true
  | .hsAckMsg | .ackMsg | .jumpBannerMsg _ _ _ _ _ _ _ _ _ _ _ => true
  | .resp9Msg _ _ _ _ _ _ _ _ | .resp10Msg _ _ _ _ _ _ _ => true
  | .closePort | .setResetLine _ | .discardBuffers | .wait _ | .readExact _ _ => true
  | .handshakePattern | .isSync _ | .isHandshakeAck _ | .isAck _ => true
  | .handshake | .resetPulse | .ramInit _ _ | .jump | .chipErase | .blankCheckSegment _ _ | .blankCheck _ _ _ => true
  | .download | .listen | .loadImage => true

/-- The conditions the table and the rules state in words: the checksum of a message (30_encoding.md R71 to R83), the length
of a shim (43_shimloader.md R151), of a page (44_flashprogrammer.md R168) and of a read (40_transport.md R107), the page
sizes and address ranges (44_flashprogrammer.md R172, R176). -/
def Instr.meetsFields : Instr → Bool
  | .ramInitMsg a l ck => ck == sum8 (frameBody Config.opRamInit a (le16 l) [])
  | .shimDataMsg data ck => decide (data.length ≤ 65535) && ck == sum8 data
  | .pageWriteMsg a data ck => ck == sum8 (frameBody Config.opWrite a (le16 (BitVec.ofNat 16 data.length)) data)
  | .blankCheckMsg a l ck => ck == sum8 (frameBody Config.opBlank a (Config.blankField ++ le16 l) [])
  | .resp9Msg e1 e2 e3 e4 e5 e6 e7 ck => ck == sum8 [Config.sync, e1, e2, e3, e4, e5, e6, e7]
  | .resp10Msg e1 e2 e3 e4 e5 u8 ck => ck == sum8 [Config.sync, e1, e2, e3, e4, e5, 0x01#8, 0x00#8, u8]
  | .readExact count _ => decide (count ≠ 0#32)
  | .openPort _ baud => decide (baud ≠ 0#32)
  | .loadAndRun shim _ => decide (shim.length ≤ 65535)
  | .shimData shim => decide (shim.length ≤ 65535)
  | .writePage _ data => decide (1 ≤ data.length) && decide (data.length ≤ 65535)
  | .writeImage a bytes p => decide (p ≠ 0#16) && decide (a.toNat + bytes.length ≤ 2 ^ 32)
  | .blankCheck a p n => decide (p ≠ 0#16) && decide (a.toNat + n.toNat * p.toNat ≤ 2 ^ 32)
  | .handshakeMsg | .jumpMsg | .chipEraseMsg | .hsAckMsg | .ackMsg | .jumpBannerMsg _ _ _ _ _ _ _ _ _ _ _ => true
  | .closePort | .setResetLine _ | .discardBuffers | .writeBytes _ | .wait _ => true
  | .checksum8 _ | .appendChecksum8 _ | .buildCommandFrame _ _ _ _ | .handshakePattern => true
  | .validateResponseFrame _ _ | .isSync _ | .isHandshakeAck _ | .isAck _ => true
  | .handshake | .resetPulse | .ramInit _ _ | .jump | .chipErase | .blankCheckSegment _ _ => true
  | .download | .listen | .loadImage => true

/-- A well-formed instruction. -/
def Instr.wellFormed (i : Instr) : Bool := i.encodable && i.meetsFields

end Sys2Proof
end

