-- ==== Sys2Proof/Decode.lean ====
section
/-! DEFINITION. The decoder, total on any bytes and rejecting by name, and after it the encoder, both from 30_encoding.md
(R70 to R83 for the wire messages, R90 for the operations). -/

namespace Sys2Proof

/-- Why bytes decode to no instruction. -/
inductive DecodeError where
  /-- No byte at all. -/
  | empty
  /-- The bytes end before the instruction does. -/
  | truncated
  /-- A TX message that begins with neither 49, 18 nor C0 (30_encoding.md R85). -/
  | unknownMessage
  /-- A command frame with an opcode other than 00, 02, 04, 07 (30_encoding.md R87). -/
  | reservedOpcode
  /-- A constant message or a constant field with another value (30_encoding.md R74, R75, R77, R78). -/
  | badLiteral
  /-- A response whose fixed bytes are not those of its shape (30_encoding.md R79 to R83, R88). -/
  | badResponse
  /-- A byte that is no OPID (30_encoding.md R90). -/
  | unknownOpid
  /-- A Boolean operand other than 00 or 01 (log 2). -/
  | badBool
  deriving DecidableEq, Repr

/-- The result of a decoder: the instruction and the bytes after it. -/
abbrev Decoded := Except DecodeError (Instr × List Byte)

/-- A 16-bit operand in wire order, then the rest. -/
def takeHalf (bs : List Byte) (k : Half → List Byte → Decoded) : Decoded :=
  match bs with
  | b0 :: b1 :: r => k (u16le b0 b1) r
  | _ => .error .truncated

/-- A 32-bit operand in wire order, then the rest. -/
def takeWord (bs : List Byte) (k : Word → List Byte → Decoded) : Decoded :=
  match bs with
  | b0 :: b1 :: b2 :: b3 :: r => k (u32le b0 b1 b2 b3) r
  | _ => .error .truncated

/-- A one-byte operand, then the rest. -/
def takeByte (bs : List Byte) (k : Byte → List Byte → Decoded) : Decoded :=
  match bs with
  | b :: r => k b r
  | [] => .error .truncated

/-- `n` bytes, then the rest. -/
def takeBytes (n : Nat) (bs : List Byte) (k : List Byte → List Byte → Decoded) : Decoded :=
  if bs.length < n then .error .truncated else k (bs.take n) (bs.drop n)

/-- A byte sequence: its length in 32 bits, then its bytes (log 2). -/
def takeSeq (bs : List Byte) (k : List Byte → List Byte → Decoded) : Decoded :=
  takeWord bs fun n r => takeBytes n.toNat r k

/-- A Boolean operand: 00 or 01 (log 2). -/
def takeBool (bs : List Byte) (k : Bool → List Byte → Decoded) : Decoded :=
  takeByte bs fun b r => if b = 0x00#8 then k false r else if b = 0x01#8 then k true r else .error .badBool

/-- A constant message. -/
def takeLiteral (lit : List Byte) (i : Instr) (bs : List Byte) : Decoded :=
  if bs.length < lit.length then .error .truncated
  else if bs.take lit.length = lit then .ok (i, bs.drop lit.length)
  else .error .badLiteral

/-- CHIP_ERASE, nine constant bytes (30_encoding.md R75). -/
def chipEraseBytes : List Byte :=
  [0x49#8, 0x02#8, 0x00#8, 0x00#8, 0x00#8, 0x00#8, 0x00#8, 0x00#8, 0x4B#8]

/-- A TX message by its first bytes (30_encoding.md R85). -/
def decodeTx (bs : List Byte) : Decoded :=
  match bs with
  | [] => .error .empty
  | h :: r =>
    if h = 0x18#8 then takeLiteral Config.hsPattern .handshakeMsg bs
    else if h = 0xC0#8 then takeLiteral Config.jumpCmd .jumpMsg bs
    else if h = Config.sync then
      takeByte r fun op r =>
        if op = Config.opRamInit then
          takeWord r fun a r => takeHalf r fun l r => takeByte r fun ck r => .ok (.ramInitMsg a l ck, r)
        else if op = Config.opErase then takeLiteral chipEraseBytes .chipEraseMsg bs
        else if op = Config.opWrite then
          takeWord r fun a r => takeHalf r fun n r => takeBytes n.toNat r fun data r =>
            takeByte r fun ck r => .ok (.pageWriteMsg a data ck, r)
        else if op = Config.opBlank then
          takeWord r fun a r => takeBytes 2 r fun field r =>
            if field = Config.blankField then
              takeHalf r fun l r => takeByte r fun ck r => .ok (.blankCheckMsg a l ck, r)
            else .error .badLiteral
        else .error .reservedOpcode
    else .error .unknownMessage

/-- SHIM_DATA: everything but the last byte is the data (30_encoding.md R73). -/
def decodeRawVar (bs : List Byte) : Decoded :=
  match bs.getLast? with
  | none => .error .empty
  | some ck => .ok (.shimDataMsg bs.dropLast ck, [])

/-- HS_ACK or ACK (30_encoding.md R79, R80). -/
def decodeRx1 (bs : List Byte) : Decoded :=
  match bs with
  | [] => .error .empty
  | b :: r =>
    if b = Config.hsAck then .ok (.hsAckMsg, r)
    else if b = Config.ack then .ok (.ackMsg, r)
    else .error .badResponse

/-- RESP9 (30_encoding.md R82). -/
def decodeRx9 (bs : List Byte) : Decoded :=
  match bs with
  | h :: e1 :: e2 :: e3 :: e4 :: e5 :: e6 :: e7 :: ck :: r =>
    if h = Config.sync then .ok (.resp9Msg e1 e2 e3 e4 e5 e6 e7 ck, r) else .error .badResponse
  | _ => .error .truncated

/-- RESP10 (30_encoding.md R83). -/
def decodeRx10 (bs : List Byte) : Decoded :=
  match bs with
  | h :: e1 :: e2 :: e3 :: e4 :: e5 :: flag :: code :: u8 :: ck :: r =>
    if h = Config.sync ∧ flag = 0x01#8 ∧ code = 0x00#8 then .ok (.resp10Msg e1 e2 e3 e4 e5 u8 ck, r)
    else .error .badResponse
  | _ => .error .truncated

/-- JUMP_BANNER (30_encoding.md R81). -/
def decodeRx11 (bs : List Byte) : Decoded :=
  match bs with
  | b0 :: b1 :: b2 :: b3 :: b4 :: b5 :: b6 :: b7 :: b8 :: b9 :: b10 :: r =>
    .ok (.jumpBannerMsg b0 b1 b2 b3 b4 b5 b6 b7 b8 b9 b10, r)
  | _ => .error .truncated

/-- The operands of an operation that acts on the link (40_transport.md), after its OPID. -/
def decodeTransport (op : Byte) (r : List Byte) : Decoded :=
  if op = 0x01#8 then takeWord r fun baud r => takeSeq r fun port r => .ok (.openPort port baud, r)
  else if op = 0x02#8 then .ok (.closePort, r)
  else if op = 0x03#8 then takeBool r fun a r => .ok (.setResetLine a, r)
  else if op = 0x04#8 then .ok (.discardBuffers, r)
  else if op = 0x05#8 then takeSeq r fun data r => .ok (.writeBytes data, r)
  else if op = 0x06#8 then takeWord r fun ms r => .ok (.wait ms, r)
  else if op = 0x07#8 then takeWord r fun n r => takeWord r fun t r => .ok (.readExact n t, r)
  else .error .unknownOpid

/-- The operands of a codec operation (41_framecodec.md), after its OPID. -/
def decodeCodec (op : Byte) (r : List Byte) : Decoded :=
  if op = 0x10#8 then takeSeq r fun bytes r => .ok (.checksum8 bytes, r)
  else if op = 0x11#8 then takeSeq r fun bytes r => .ok (.appendChecksum8 bytes, r)
  else if op = 0x12#8 then
    takeByte r fun opcode r => takeWord r fun a r => takeSeq r fun extra r => takeSeq r fun payload r =>
      .ok (.buildCommandFrame opcode a extra payload, r)
  else if op = 0x13#8 then .ok (.handshakePattern, r)
  else if op = 0x14#8 then takeWord r fun n r => takeSeq r fun bytes r => .ok (.validateResponseFrame bytes n, r)
  else if op = 0x15#8 then takeByte r fun b r => .ok (.isSync b, r)
  else if op = 0x16#8 then takeByte r fun b r => .ok (.isHandshakeAck b, r)
  else if op = 0x17#8 then takeByte r fun b r => .ok (.isAck b, r)
  else .error .unknownOpid

/-- The operands of a handshake or shim-loader operation (42_handshake.md, 43_shimloader.md), after its OPID. -/
def decodeLoader (op : Byte) (r : List Byte) : Decoded :=
  if op = 0x20#8 then .ok (.handshake, r)
  else if op = 0x21#8 then .ok (.resetPulse, r)
  else if op = 0x30#8 then takeWord r fun base r => takeSeq r fun shim r => .ok (.loadAndRun shim base, r)
  else if op = 0x31#8 then takeWord r fun base r => takeHalf r fun len r => .ok (.ramInit base len, r)
  else if op = 0x32#8 then takeSeq r fun shim r => .ok (.shimData shim, r)
  else if op = 0x33#8 then .ok (.jump, r)
  else .error .unknownOpid

/-- The operands of a flash or orchestrator operation (44_flashprogrammer.md, 45_orchestrator.md), after its OPID. -/
def decodeFlash (op : Byte) (r : List Byte) : Decoded :=
  if op = 0x40#8 then .ok (.chipErase, r)
  else if op = 0x41#8 then takeWord r fun a r => takeSeq r fun data r => .ok (.writePage a data, r)
  else if op = 0x42#8 then
    takeWord r fun a r => takeHalf r fun p r => takeSeq r fun bytes r => .ok (.writeImage a bytes p, r)
  else if op = 0x43#8 then takeWord r fun a r => takeHalf r fun l r => .ok (.blankCheckSegment a l, r)
  else if op = 0x44#8 then
    takeWord r fun a r => takeHalf r fun p r => takeWord r fun n r => .ok (.blankCheck a p n, r)
  else if op = 0x50#8 then .ok (.download, r)
  else if op = 0x51#8 then .ok (.listen, r)
  else if op = 0x52#8 then .ok (.loadImage, r)
  else .error .unknownOpid

/-- An operation: its OPID (30_encoding.md R90), whose high bits name the component, then its operands. -/
def decodeOpid (bs : List Byte) : Decoded :=
  match bs with
  | [] => .error .empty
  | op :: r =>
    if op.toNat < 0x10 then decodeTransport op r
    else if op.toNat < 0x20 then decodeCodec op r
    else if op.toNat < 0x40 then decodeLoader op r
    else decodeFlash op r

/-- The decoder. -/
def decode (f : Format) (bs : List Byte) : Decoded :=
  match f with
  | .opid => decodeOpid bs
  | .tx => decodeTx bs
  | .rawvar => decodeRawVar bs
  | .rx1 => decodeRx1 bs
  | .rx9 => decodeRx9 bs
  | .rx10 => decodeRx10 bs
  | .rx11 => decodeRx11 bs

/-- The format an instruction is written in (the table's column `format`). -/
def Instr.format : Instr → Format
  | .handshakeMsg | .ramInitMsg _ _ _ | .jumpMsg | .chipEraseMsg | .pageWriteMsg _ _ _ | .blankCheckMsg _ _ _ => .tx
  | .shimDataMsg _ _ => .rawvar
  | .hsAckMsg | .ackMsg => .rx1
  | .jumpBannerMsg _ _ _ _ _ _ _ _ _ _ _ => .rx11
  | .resp9Msg _ _ _ _ _ _ _ _ => .rx9
  | .resp10Msg _ _ _ _ _ _ _ => .rx10
  | .openPort _ _ | .closePort | .setResetLine _ | .discardBuffers | .writeBytes _ | .wait _ | .readExact _ _ => .opid
  | .checksum8 _ | .appendChecksum8 _ | .buildCommandFrame _ _ _ _ | .handshakePattern => .opid
  | .validateResponseFrame _ _ | .isSync _ | .isHandshakeAck _ | .isAck _ => .opid
  | .handshake | .resetPulse | .loadAndRun _ _ | .ramInit _ _ | .shimData _ | .jump => .opid
  | .chipErase | .writePage _ _ | .writeImage _ _ _ | .blankCheckSegment _ _ | .blankCheck _ _ _ => .opid
  | .download | .listen | .loadImage => .opid

/-- A byte sequence with its 32-bit length before it (log 2). -/
def encodeSeq (l : List Byte) : List Byte := le32 (BitVec.ofNat 32 l.length) ++ l

/-- A Boolean operand (log 2). -/
def encodeBool (b : Bool) : Byte := if b then 0x01#8 else 0x00#8

/-- The bytes of an instruction, to be read in its format: the wire layouts of 30_encoding.md R72 to R83, and for an
operation its OPID (R90) and its operands (log 2). -/
def encode : Instr → List Byte
  | .handshakeMsg => Config.hsPattern
  | .ramInitMsg a l ck => [Config.sync, Config.opRamInit] ++ le32 a ++ le16 l ++ [ck]
  | .shimDataMsg data ck => data ++ [ck]
  | .jumpMsg => Config.jumpCmd
  | .chipEraseMsg => chipEraseBytes
  | .pageWriteMsg a data ck =>
    [Config.sync, Config.opWrite] ++ le32 a ++ le16 (BitVec.ofNat 16 data.length) ++ data ++ [ck]
  | .blankCheckMsg a l ck => [Config.sync, Config.opBlank] ++ le32 a ++ Config.blankField ++ le16 l ++ [ck]
  | .hsAckMsg => [Config.hsAck]
  | .ackMsg => [Config.ack]
  | .jumpBannerMsg b0 b1 b2 b3 b4 b5 b6 b7 b8 b9 b10 => [b0, b1, b2, b3, b4, b5, b6, b7, b8, b9, b10]
  | .resp9Msg e1 e2 e3 e4 e5 e6 e7 ck => [Config.sync, e1, e2, e3, e4, e5, e6, e7, ck]
  | .resp10Msg e1 e2 e3 e4 e5 u8 ck => [Config.sync, e1, e2, e3, e4, e5, 0x01#8, 0x00#8, u8, ck]
  | .openPort port baud => [0x01#8] ++ le32 baud ++ encodeSeq port
  | .closePort => [0x02#8]
  | .setResetLine a => [0x03#8, encodeBool a]
  | .discardBuffers => [0x04#8]
  | .writeBytes data => [0x05#8] ++ encodeSeq data
  | .wait ms => [0x06#8] ++ le32 ms
  | .readExact n t => [0x07#8] ++ le32 n ++ le32 t
  | .checksum8 bytes => [0x10#8] ++ encodeSeq bytes
  | .appendChecksum8 bytes => [0x11#8] ++ encodeSeq bytes
  | .buildCommandFrame opcode a extra payload =>
    [0x12#8, opcode] ++ le32 a ++ encodeSeq extra ++ encodeSeq payload
  | .handshakePattern => [0x13#8]
  | .validateResponseFrame bytes n => [0x14#8] ++ le32 n ++ encodeSeq bytes
  | .isSync b => [0x15#8, b]
  | .isHandshakeAck b => [0x16#8, b]
  | .isAck b => [0x17#8, b]
  | .handshake => [0x20#8]
  | .resetPulse => [0x21#8]
  | .loadAndRun shim base => [0x30#8] ++ le32 base ++ encodeSeq shim
  | .ramInit base len => [0x31#8] ++ le32 base ++ le16 len
  | .shimData shim => [0x32#8] ++ encodeSeq shim
  | .jump => [0x33#8]
  | .chipErase => [0x40#8]
  | .writePage a data => [0x41#8] ++ le32 a ++ encodeSeq data
  | .writeImage a bytes p => [0x42#8] ++ le32 a ++ le16 p ++ encodeSeq bytes
  | .blankCheckSegment a l => [0x43#8] ++ le32 a ++ le16 l
  | .blankCheck a p n => [0x44#8] ++ le32 a ++ le16 p ++ le32 n
  | .download => [0x50#8]
  | .listen => [0x51#8]
  | .loadImage => [0x52#8]

/-- The low `8 n` bits of a number as `n` bytes, the most significant first: the table writes a row's bits as one number
whose leftmost byte is offset 0 (30_encoding.md, conventions of opcode_table.json; log 3). -/
def wireBytes (n w : Nat) : List Byte :=
  (List.range n).map fun k => BitVec.ofNat 8 (w >>> (8 * (n - 1 - k)))

/-- Whether a byte is an OPID of 30_encoding.md R90. -/
def isOpid (b : Byte) : Bool :=
  [0x01, 0x02, 0x03, 0x04, 0x05, 0x06, 0x07, 0x10, 0x11, 0x12, 0x13, 0x14, 0x15, 0x16, 0x17, 0x20, 0x21,
    0x30, 0x31, 0x32, 0x33, 0x40, 0x41, 0x42, 0x43, 0x44, 0x50, 0x51, 0x52].contains b.toNat

/-- Whether bytes are one TX message and nothing more. -/
def isWholeTx (bs : List Byte) : Bool :=
  match decodeTx bs with
  | .ok (_, []) => true
  | _ => false

/-- Sixteen operand bytes of zeros, at least as many as any instruction of zero operands needs. -/
def zeroOperands : List Byte := List.replicate 16 0x00#8

/-- How a word of the table is presented to the decoder (log 3): a single byte is an OPID where it is one and else SHIM_DATA
without data; a longer word is a TX message where it is exactly one, else the response of its length, else the
beginning of a TX message. -/
def tableFetch (nbits w : Nat) : Format × List Byte :=
  let bs := wireBytes (nbits / 8) w
  if bs.length = 1 then
    if bs.all isOpid then (.opid, bs ++ zeroOperands) else (.rawvar, bs)
  else if isWholeTx bs then (.tx, bs)
  else if bs.length = 9 then (.rx9, bs)
  else if bs.length = 10 then (.rx10, bs)
  else if bs.length = 11 then (.rx11, bs)
  else (.tx, bs ++ zeroOperands)

/-- The instruction the decoder reads from a word of the table. -/
def decodeTableWord (nbits w : Nat) : Option Instr :=
  match decode (tableFetch nbits w).1 (tableFetch nbits w).2 with
  | .ok (i, _) => some i
  | .error _ => none

end Sys2Proof
end

