-- ==== Sys2Proof/Machine/State.lean ====
section
/-! DEFINITION. The state of the block, of the link it drives and of the inputs it takes, as plain data (10_state.md), the
reasons a step can stop, and the state after block reset (10_state.md R36). -/

namespace Sys2Proof.Machine

/-- `ST` (10_state.md R21): the milestone last completed, or `Failed`. -/
inductive SeqState where
  | closed
  | initialized
  | synced
  | shimActive
  | erased
  | verified
  | programmed
  | reset
  | done
  | failed
  deriving DecidableEq, Repr

/-- Which start command was accepted (45_orchestrator.md R190, R202). -/
inductive RunKind where
  | download
  | listen
  deriving DecidableEq, Repr

/-- The block's program counter (10_state.md R21, R22). -/
structure Position where
  st : SeqState
  ph : BitVec 4
  idx : Word
  deriving DecidableEq, Repr

/-- The working registers `CSUM`, `OP`, `ADDR`, `LEN`, `REM` (10_state.md R25). -/
structure WorkRegs where
  csum : Byte
  op : Byte
  addr : Word
  len : Half
  rem : Word
  deriving DecidableEq, Repr

/-- The underlying error of `ERR_KIND` (10_state.md R26, 60_exceptions.md R215). -/
inductive ErrKind where
  | none
  | io
  | timeout
  | protocol
  | image
  deriving DecidableEq, Repr

/-- The status registers S2 to S8 (10_state.md R26). `raw` lists the `rawn` valid bytes of `ERR_RAW` (log 27). -/
structure ErrRegs where
  kind : ErrKind
  step : Byte
  op : Byte
  addr : Word
  idx : Word
  rawn : BitVec 4
  raw : List Byte
  deriving DecidableEq, Repr

/-- The configuration registers K0 to K14 (10_state.md R27). -/
structure ConfigRegs where
  baud : Word
  ramBase : Word
  writePage : Half
  blankPage : Half
  blankCount : Word
  blankStart : Word
  tAssert : Half
  tSettle : Half
  tRead : Half
  tPoll : Half
  imgAddr : Word
  imgLen : Word
  shimLen : Half
  port : List Byte
  imgErr : Bool
  deriving DecidableEq, Repr

/-- The receive buffer (10_state.md R29): `rxb` lists the `rxn` bytes of the last `Read` (log 27). -/
structure RxBuffer where
  rxb : List Byte
  rxn : BitVec 4
  deriving DecidableEq, Repr

/-- `RST`, the level of the device's reset input (10_state.md R31). -/
inductive ResetLine where
  | undriven
  | asserted
  | deasserted
  deriving DecidableEq, Repr

/-- The TransportChannel (10_state.md R30, R31); the queues' first element is the oldest byte. -/
structure Link where
  tOpen : Bool
  tBaud : Word
  rxq : List Byte
  txq : List Byte
  rst : ResetLine
  deriving DecidableEq, Repr

/-- One turn of the environment (40_transport.md R109; log 9): `elapse` milliseconds pass, then the bytes arrive. -/
structure Turn where
  elapse : Nat
  arrive : List Byte
  deriving DecidableEq, Repr

/-- The environment: the time, what it will do, and its answers to the `Open`s to come (10_state.md R32, 40_transport.md
R101, R109; log 9, log 10). -/
structure Env where
  now : Nat
  script : List Turn
  opens : List Bool
  deriving DecidableEq, Repr

/-- An input memory (20_memory.md R51): the bytes supplied, by offset; an offset not listed has no value (log 15). -/
abbrev Memory := List Host.Cell

/-- One transport event of the observation (00_scope.md R10). -/
inductive TraceEvent where
  | opened (port : List Byte) (baud : Word) (ok : Bool)
  | closed
  | setReset (level : Bool)
  | waited (ms : Nat)
  | discarded
  | tx (b : Byte)
  | readOk (count timeout : Nat) (bytes : List Byte)
  | readTimeout (count timeout : Nat) (partialBytes : List Byte)
  deriving DecidableEq, Repr

/-- One write of a configuration register by the host (10_state.md R27). -/
inductive CfgWrite where
  | baud (v : Word)
  | ramBase (v : Word)
  | writePage (v : Half)
  | blankPage (v : Half)
  | blankCount (v : Word)
  | blankStart (v : Word)
  | tAssert (v : Half)
  | tSettle (v : Half)
  | tRead (v : Half)
  | tPoll (v : Half)
  | imgAddr (v : Word)
  | imgLen (v : Word)
  | shimLen (v : Half)
  | port (v : List Byte)
  | imgErr (v : Bool)
  deriving DecidableEq, Repr

/-- A request of the host (log 1, log 31). -/
inductive HostReq where
  /-- The host asks nothing: the block moves. -/
  | pass
  /-- A call of one operation: a start command (45_orchestrator.md R190) or any other row of the table (log 1). -/
  | call (f : Format) (bytes : List Byte)
  /-- A write of a configuration register (10_state.md R27). -/
  | writeReg (w : CfgWrite)
  /-- A byte of the image (70_reset_and_hazards.md R248). -/
  | pokeImg (offset : Word) (b : Byte)
  /-- A byte of the shim (70_reset_and_hazards.md R248). -/
  | pokeShm (offset : Half) (b : Byte)
  /-- Block reset (70_reset_and_hazards.md R245, R246). -/
  | blockReset
  deriving DecidableEq, Repr

/-- What the last value-returning operation returned (log 25). -/
inductive Ret where
  | none
  | unit
  | byte (b : Byte)
  | bytes (l : List Byte)
  | bool (v : Bool)
  deriving DecidableEq, Repr

/-- The machine's state (10_state.md R20), with the inputs and the observation of 00_scope.md R10. -/
structure State where
  pos : Position
  run : Option RunKind
  wrk : WorkRegs
  err : ErrRegs
  cfg : ConfigRegs
  rx : RxBuffer
  link : Link
  env : Env
  img : Memory
  shm : Memory
  host : List HostReq
  trace : List TraceEvent
  ret : Ret
  deriving DecidableEq, Repr

/-- Faults: the machine stops. -/
inductive Fault where
  /-- `MemRead` of a byte of `IMG` or `SHM` that the host has not supplied (20_memory.md R51, 70_reset_and_hazards.md R248;
  log 15). Raised by the image and shim messages of a run. Safe: nothing is proved of a run without its inputs. -/
  | unwrittenByte
  deriving DecidableEq, Repr

/-- Refusals: operations to which the spec gives no step (60_exceptions.md R236), each by name. All are safe: nothing can be
proved of a run that contains one. -/
inductive Refusal where
  /-- Raised by `exec` for an instruction without a meaning. -/
  | notModelled (mnemonic : String)
  /-- Raised by the host port: the bytes of a call decode to no instruction (30_encoding.md R87, R88). -/
  | undecodable (e : DecodeError)
  /-- Raised by every transport primitive but `open`, `close` and `wait` on a closed transport (40_transport.md R100). -/
  | transportClosed
  /-- Raised by a start command or any other call while `BUSY` = 1 (45_orchestrator.md R190, R204; 20_memory.md R64). -/
  | busy
  /-- Raised by the host port: a call alone that would send a message outside its protocol phase (60_exceptions.md R230;
  log 35). -/
  | outOfPhase
  /-- Raised by `download` when a precondition on the configuration fails (45_orchestrator.md R190). -/
  | illFormedConfig
  /-- Raised by `loadAndRun` and `shimData` for a shim longer than 65535 bytes (43_shimloader.md R151). -/
  | shimTooLong
  /-- Raised by `writePage` and PAGE_WRITE for more than 65535 data bytes (30_encoding.md R84). -/
  | pageTooLong
  /-- Raised by `writeImage` and `blankCheck` when their `require` fails (44_flashprogrammer.md R172, R176). -/
  | rangePrecondition
  /-- Raised by a TX message whose checksum byte is not the sum of the bytes before it: the block assembles the checksum
  itself (30_encoding.md R84) and never sends such a message (log 24). -/
  | frameChecksum
  /-- Raised by the host port when the host changes `IMG` or `SHM` while `BUSY` = 1 (20_memory.md R65). -/
  | inputsChanged
  /-- Raised by the sequencer after the specified part of a listen run (45_orchestrator.md R202). -/
  | passThrough
  deriving DecidableEq, Repr

/-- The state after block reset (10_state.md R36, 70_reset_and_hazards.md R245); values the spec leaves unspecified are those
of log 13 and log 14. -/
def State.reset : State where
  pos := { st := .closed, ph := 0#4, idx := 0#32 }
  run := none
  wrk := { csum := 0#8, op := 0#8, addr := 0#32, len := 0#16, rem := 0#32 }
  err := { kind := .none, step := 0#8, op := 0#8, addr := 0#32, idx := 0#32, rawn := 0#4, raw := [] }
  cfg :=
    { baud := 9600#32, ramBase := 0x20000000#32, writePage := 64#16, blankPage := 512#16, blankCount := 64#32,
      blankStart := 0x00000000#32, tAssert := 10#16, tSettle := 100#16, tRead := 5000#16, tPoll := 10#16,
      imgAddr := 0#32, imgLen := 0#32, shimLen := 0#16, port := [], imgErr := false }
  rx := { rxb := [], rxn := 0#4 }
  link := { tOpen := false, tBaud := 0#32, rxq := [], txq := [], rst := .undriven }
  env := { now := 0, script := [], opens := [] }
  img := []
  shm := []
  host := []
  trace := []
  ret := .none

end Sys2Proof.Machine
end

