-- ==== Sys2Proof/Machine/Flags.lean ====
section
/-! DEFINITION. Every flag and every code the host reads: `BUSY`, `DONE`, `FAILED` (10_state.md R24), the codes of `ST` and
`ERR_KIND` (R21, R26), the status registers S0 to S8 (R26), and the protocol phase (60_exceptions.md R230). -/

namespace Sys2Proof.Machine

/-- `BUSY` (10_state.md R24): a run is in progress. -/
def State.busy (s : State) : Bool := s.run.isSome

/-- `DONE` (10_state.md R24). -/
def State.doneFlag (s : State) : Bool := s.pos.st == .done

/-- `FAILED` (10_state.md R24). -/
def State.failedFlag (s : State) : Bool := s.pos.st == .failed

/-- The 4-bit code of `ST` (10_state.md R21). -/
def SeqState.code : SeqState → BitVec 4
  | .closed => 0#4
  | .initialized => 1#4
  | .synced => 2#4
  | .shimActive => 3#4
  | .erased => 4#4
  | .verified => 5#4
  | .programmed => 6#4
  | .reset => 7#4
  | .done => 8#4
  | .failed => 15#4

/-- The 3-bit code of `ERR_KIND` (60_exceptions.md R215). -/
def ErrKind.code : ErrKind → BitVec 3
  | .none => 0#3
  | .io => 1#3
  | .timeout => 2#3
  | .protocol => 3#3
  | .image => 4#3

/-- `ERR_RAW[k]` (10_state.md R26, S8): bytes at an index of `ERR_RAWN` or more are 0. -/
def ErrRegs.rawByte (e : ErrRegs) (k : Nat) : Byte := e.raw.getD k 0#8

/-- A bit as a number. -/
def bitNat (b : Bool) : Nat := if b then 1 else 0

/-- The host's read of status register S`n` (10_state.md R26), as the list of its fields in the order of the rule. -/
def State.statusReg (s : State) (n : Nat) : Option (List Nat) :=
  match n with
  | 0 => some [s.pos.st.code.toNat]
  | 1 => some [bitNat s.busy, bitNat s.doneFlag, bitNat s.failedFlag]
  | 2 => some [s.err.kind.code.toNat]
  | 3 => some [s.err.step.toNat]
  | 4 => some [s.err.op.toNat]
  | 5 => some [s.err.addr.toNat]
  | 6 => some [s.err.idx.toNat]
  | 7 => some [s.err.rawn.toNat]
  | 8 => some ((List.range Config.bufferBytes).map fun k => (s.err.rawByte k).toNat)
  | _ => none

/-- The protocol phases (60_exceptions.md R230). -/
inductive Phase where
  | none
  | rom
  | shim
  deriving DecidableEq, Repr

/-- The phase the block tracks by `ST` (60_exceptions.md R230); `Failed` is in no row of the rule. -/
def SeqState.phase : SeqState → Option Phase
  | .closed | .initialized | .reset | .done => some .none
  | .synced => some .rom
  | .shimActive | .erased | .verified | .programmed => some .shim
  | .failed => none

/-- The three groups of messages of the table of 60_exceptions.md R230: the pattern, the ROM bootloader's, the flash opcodes. -/
inductive MsgClass where
  | pattern
  | loader
  | flash
  deriving DecidableEq, Repr

/-- Whether the block may send a message of the group in a state (60_exceptions.md R230): the pattern in phase NONE and inside
the final reset pulse in phase SHIM, the loader's messages in phase ROM, the flash opcodes in phase SHIM; at `Failed` none. -/
def MsgClass.inPhase (c : MsgClass) (st : SeqState) : Bool :=
  match c with
  | .pattern => st.phase == some .none || st.phase == some .shim
  | .loader => st.phase == some .rom
  | .flash => st.phase == some .shim

end Sys2Proof.Machine
end

