-- ==== Sys2Proof/Machine/Operands.lean ====
section
/-! DEFINITION. The operands of the operations: the messages the block sends and the responses it accepts with the registers
they are assembled from (30_encoding.md R70 to R84), the addresses, lengths and counts of the two loops
(44_flashprogrammer.md R169, R176), and the preconditions of 45_orchestrator.md R190. -/

namespace Sys2Proof.Machine

/-- The TX messages (30_encoding.md R70), with the values their fields are assembled from (R84). -/
inductive TxMsg where
  | handshake
  | ramInit (base : Word) (len : Half)
  | shimData (bytes : List Byte)
  | jump
  | chipErase
  | pageWrite (address : Word) (data : List Byte)
  | blankCheck (address : Word) (length : Half)
  deriving DecidableEq, Repr

/-- The group a message belongs to in the table of 60_exceptions.md R230. -/
def TxMsg.msgClass : TxMsg → MsgClass
  | .handshake => .pattern
  | .ramInit _ _ | .shimData _ | .jump => .loader
  | .chipErase | .pageWrite _ _ | .blankCheck _ _ => .flash

/-- The bytes of a TX message, in wire order (30_encoding.md R72 to R78). -/
def TxMsg.bytes : TxMsg → List Byte
  | .handshake => Config.hsPattern
  | .ramInit base len => commandFrame Config.opRamInit base (le16 len) []
  | .shimData bytes => appendSum8 bytes
  | .jump => Config.jumpCmd
  | .chipErase => commandFrame Config.opErase 0#32 [0x00#8, 0x00#8] []
  | .pageWrite a data => commandFrame Config.opWrite a (le16 (BitVec.ofNat 16 data.length)) data
  | .blankCheck a l => commandFrame Config.opBlank a (Config.blankField ++ le16 l) []

/-- The working registers after a command frame has been built (41_framecodec.md R122: `OP`, `ADDR`; R120: `CSUM`), with the
length its caller put into `LEN`. -/
def frameRegs (opcode : Byte) (address : Word) (len : Half) (extra payload : List Byte) (w : WorkRegs) : WorkRegs :=
  { w with op := opcode, addr := address, len := len, csum := sum8 (frameBody opcode address extra payload) }

/-- The working registers after a TX message has been assembled (43_shimloader.md R152, R153; 44_flashprogrammer.md R167,
R168, R174). HANDSHAKE and JUMP are constants the block does not compute (30_encoding.md R74, R78). -/
def TxMsg.regs (m : TxMsg) (w : WorkRegs) : WorkRegs :=
  match m with
  | .handshake => w
  | .ramInit base len => frameRegs Config.opRamInit base len (le16 len) [] w
  | .shimData bytes => { w with csum := sum8 bytes }
  | .jump => w
  | .chipErase => frameRegs Config.opErase 0#32 0#16 [0x00#8, 0x00#8] [] w
  | .pageWrite a data =>
    frameRegs Config.opWrite a (BitVec.ofNat 16 data.length) (le16 (BitVec.ofNat 16 data.length)) data w
  | .blankCheck a l => frameRegs Config.opBlank a l (Config.blankField ++ le16 l) [] w

/-- The response shapes the block accepts (30_encoding.md R79 to R83). -/
inductive RxShape where
  | hsAck
  | ack
  | banner
  | resp9
  | resp10
  deriving DecidableEq, Repr

/-- The count the block asks `Read` for (30_encoding.md R86). -/
def RxShape.count : RxShape → Nat
  | .hsAck => 1
  | .ack => 1
  | .banner => 11
  | .resp9 => 9
  | .resp10 => 10

/-- Whether a response that was read in full is accepted (30_encoding.md R79 to R83, R88). -/
def RxShape.accepts (sh : RxShape) (bytes : List Byte) : Bool :=
  match sh with
  | .hsAck => bytes.head?.any hsAckByte
  | .ack => bytes.head?.any ackByte
  | .banner => true
  | .resp9 => validFrame bytes 9
  | .resp10 => validBlank bytes

/-- `CSUM` after a validation (41_framecodec.md R120, R124): written only when the length and header tests pass. -/
def validateCsum (bytes : List Byte) (expected : Nat) (w : WorkRegs) : WorkRegs :=
  if frameHeaderOk bytes expected then { w with csum := sum8 bytes.dropLast } else w

/-- The working registers after a response has been tested. -/
def RxShape.regs (sh : RxShape) (bytes : List Byte) (w : WorkRegs) : WorkRegs :=
  match sh with
  | .hsAck | .ack | .banner => w
  | .resp9 => validateCsum bytes 9 w
  | .resp10 => validateCsum bytes 10 w

/-- `pageCount(L, P) = ceil(L / P)` (44_flashprogrammer.md R169). -/
def pageCount (imageLen pageSize : Nat) : Nat := (imageLen + pageSize - 1) / pageSize

/-- `pageAddr(i)` (44_flashprogrammer.md R169). -/
def pageAddr (loadAddress : Word) (pageSize i : Nat) : Word := BitVec.ofNat 32 (loadAddress.toNat + pageSize * i)

/-- `pageData(i)` (44_flashprogrammer.md R169) of an image given as a list. -/
def pageData (bytes : List Byte) (pageSize i : Nat) : List Byte := (bytes.drop (pageSize * i)).take pageSize

/-- The address of segment `i` (44_flashprogrammer.md R176). -/
def segmentAddr (start : Word) (pageSize i : Nat) : Word := BitVec.ofNat 32 (start.toNat + i * pageSize)

/-- The precondition of `writeImage` (44_flashprogrammer.md R172, 20_memory.md R57); a length of 2^32 has no register value
(10_state.md R27). -/
def imageRangeOk (loadAddress imageLen pageSize : Nat) : Bool :=
  decide (1 ≤ pageSize) && decide (loadAddress + imageLen ≤ 2 ^ 32) && decide (imageLen < 2 ^ 32)

/-- The precondition of `blankCheck` (44_flashprogrammer.md R176, 20_memory.md R58). -/
def blankRangeOk (start pageSize count : Nat) : Bool :=
  decide (1 ≤ pageSize) && decide (start + count * pageSize ≤ 2 ^ 32)

/-- The well-formedness preconditions of a `download` start (45_orchestrator.md R190). -/
def ConfigRegs.downloadOk (c : ConfigRegs) : Bool :=
  imageRangeOk c.imgAddr.toNat c.imgLen.toNat c.writePage.toNat
    && blankRangeOk c.blankStart.toNat c.blankPage.toNat c.blankCount.toNat

/-- The effect of a host write on the configuration registers (10_state.md R27). -/
def CfgWrite.apply (w : CfgWrite) (c : ConfigRegs) : ConfigRegs :=
  match w with
  | .baud v => { c with baud := v }
  | .ramBase v => { c with ramBase := v }
  | .writePage v => { c with writePage := v }
  | .blankPage v => { c with blankPage := v }
  | .blankCount v => { c with blankCount := v }
  | .blankStart v => { c with blankStart := v }
  | .tAssert v => { c with tAssert := v }
  | .tSettle v => { c with tSettle := v }
  | .tRead v => { c with tRead := v }
  | .tPoll v => { c with tPoll := v }
  | .imgAddr v => { c with imgAddr := v }
  | .imgLen v => { c with imgLen := v }
  | .shimLen v => { c with shimLen := v }
  | .port v => { c with port := v }
  | .imgErr v => { c with imgErr := v }

end Sys2Proof.Machine
end

