-- ==== Sys2Proof/Machine/Ops.lean ====
section
/-! DEFINITION. The named operations every meaning is written in: the input memories (20_memory.md R51), the environment's
turns (40_transport.md R109), the transport primitives (R100 to R108), sending and accepting a message, raising an error
(60_exceptions.md R226), and running the event list of an operation. -/

namespace Sys2Proof.Machine

/-! ### Outcomes of an operation -/

/-- What the table of 60_exceptions.md R220 gives for a failing operation: `ERR_STEP`, `ERR_OP`, and whether the address of a
page or segment is recorded, which only `writePage` and `blankCheckSegment` do. -/
structure Ctx where
  step : Byte
  op : Byte
  addressed : Bool := false
  deriving DecidableEq, Repr

/-- An error raised by an operation (60_exceptions.md R215). -/
structure ErrInfo where
  kind : ErrKind
  ctx : Ctx
  raw : List Byte
  deriving DecidableEq, Repr

/-- How an operation ends: normally, raising an error, or without a step. -/
inductive Res where
  | ok (s : State)
  | err (e : ErrInfo) (s : State)
  | fault (f : Fault)
  | refused (r : Refusal)
  deriving DecidableEq, Repr

/-- Go on with `k` when `r` ended normally; an error ends every enclosing operation (60_exceptions.md R226). -/
def Res.andThen (r : Res) (k : State → Res) : Res :=
  match r with
  | .ok s => k s
  | .err e s => .err e s
  | .fault f => .fault f
  | .refused x => .refused x

/-- Go on with a plain update. -/
def Res.map (r : Res) (f : State → State) : Res := r.andThen fun s => .ok (f s)

/-! ### The input memories (20_memory.md R51) -/

/-- The byte at offset `a`, if the host has supplied it. -/
def memGet (m : Memory) (a : Nat) : Option Byte :=
  match m with
  | [] => none
  | (k, b) :: r => if k = a then some b else memGet r a

/-- Supply the byte at offset `a`, keeping the offsets strictly rising. -/
def memSet (m : Memory) (a : Nat) (b : Byte) : Memory :=
  match m with
  | [] => [(a, b)]
  | (k, v) :: r => if a < k then (a, b) :: (k, v) :: r else if a = k then (a, b) :: r else (k, v) :: memSet r a b

/-- `MemRead(space, a, n)` (20_memory.md R51): the `n` bytes at offsets `a` to `a + n - 1`, if all have been supplied. -/
def memRead (m : Memory) (a : Nat) : Nat → Option (List Byte)
  | 0 => some []
  | n + 1 =>
    match memGet m a, memRead m (a + 1) n with
    | some b, some r => some (b :: r)
    | _, _ => none

/-- The canonical form: offsets strictly rising. -/
def Memory.wf (m : Memory) : Bool := decide ((m.map Prod.fst).Pairwise (· < ·))

/-! ### The environment (40_transport.md R109, log 9) -/

/-- One turn: time passes, and the bytes arrive at the tail of `RXQ`; none arrives while the transport is closed
(10_state.md R30). -/
def applyTurn (t : Turn) (rest : List Turn) (s : State) : State :=
  { s with
    env := { s.env with now := s.env.now + t.elapse, script := rest }
    link := if s.link.tOpen then { s.link with rxq := s.link.rxq ++ t.arrive } else s.link }

/-- The environment's turn at the beginning of a transport event. -/
def envTurn (s : State) : State :=
  match s.env.script with
  | [] => s
  | t :: r => applyTurn t r s

/-- The turns at the head of a script that take no time. -/
def absorbTurns : List Turn → State → State
  | [], s => s
  | t :: r, s => if t.elapse = 0 then absorbTurns r (applyTurn t r s) else s

/-- Everything that still arrives at the present instant (40_transport.md R108: an arrival at the deadline is in time). -/
def absorbNow (s : State) : State := absorbTurns s.env.script s

/-- Turns until the time is at least `target`; when the script ends, time passes to `target` (log 9). -/
def waitTurns (target : Nat) : List Turn → State → State
  | [], s => if s.env.now < target then { s with env := { s.env with now := target } } else s
  | t :: r, s => if target ≤ s.env.now then s else waitTurns target r (applyTurn t r s)

/-- Block until `now >= target` (40_transport.md R106). -/
def waitUntil (target : Nat) (s : State) : State := waitTurns target s.env.script s

/-- The polling interval (10_state.md R27, K9); a register value of 0 is outside its legal values (log 11). -/
def pollStep (s : State) : Nat := max 1 s.cfg.tPoll.toNat

/-- The loop of `readExact` (40_transport.md R107, R108): availability before deadline, then a wait of `T_POLL`. `true` when
`count` bytes are there. The first number bounds the polls: each one takes at least a millisecond. -/
def poll (count timeout t0 : Nat) : Nat → State → State × Bool
  | 0, s => (s, false)
  | k + 1, s =>
    if count ≤ s.link.rxq.length then (s, true)
    else if count ≤ (absorbNow s).link.rxq.length then (absorbNow s, true)
    else if timeout ≤ (absorbNow s).env.now - t0 then (absorbNow s, false)
    else poll count timeout t0 k (waitUntil ((absorbNow s).env.now + pollStep s) (absorbNow s))

/-! ### Buffers -/

/-- The bytes that stand in an eleven-byte buffer after `bytes` have been put into it; a free value where they do not fit
(log 12). -/
def clip (bytes : List Byte) : List Byte :=
  if bytes.length ≤ Config.bufferBytes then bytes else (Config.overlong bytes).take Config.bufferBytes

/-- `RXB`, `RXN` (10_state.md R29). -/
def rxBuffer (bytes : List Byte) : RxBuffer :=
  { rxb := clip bytes, rxn := BitVec.ofNat 4 (clip bytes).length }

/-! ### Errors (60_exceptions.md) -/

/-- The trace with events added at its end. -/
def State.emit (s : State) (es : List TraceEvent) : State := { s with trace := s.trace ++ es }

/-- The effect of `Close()` on an open transport (40_transport.md R102). -/
def closeLink (s : State) : State :=
  { s with
    link := { s.link with tOpen := false, rxq := [], txq := [], rst := .undriven }
    trace := s.trace ++ [.closed] }

/-- `Close()` (40_transport.md R102): idempotent. -/
def opClose (s : State) : State := if s.link.tOpen then closeLink (envTurn s) else s

/-- `ERR_ADDR` (10_state.md R26, S5; 60_exceptions.md R220): the page or segment address of a failed `writePage` or
`blankCheckSegment`, which has then put it into `ADDR` (10_state.md R25); 0 otherwise. -/
def errAddress (e : ErrInfo) (s : State) : Word :=
  if e.ctx.addressed then s.wrk.addr else 0#32

/-- `ERR_IDX`: `IDX` at the failure (10_state.md S6); 0 for IOError and ImageError (60_exceptions.md R216, R219). -/
def errIndex (e : ErrInfo) (s : State) : Word :=
  match e.kind with
  | .io | .image => 0#32
  | _ => s.pos.idx

/-- The recording of an error and the move to `Failed` (60_exceptions.md R226); `PH` and `IDX` keep their values. -/
def recordError (e : ErrInfo) (s : State) : State :=
  { s with
    err :=
      { kind := e.kind, step := e.ctx.step, op := e.ctx.op, addr := errAddress e s, idx := errIndex e s,
        rawn := BitVec.ofNat 4 (clip e.raw).length, raw := clip e.raw }
    pos := { s.pos with st := .failed } }

/-- The scoped release at the end of a run (45_orchestrator.md R195, R196): `Close()` if the transport is open, then
`BUSY <- 0`. Outside a run there is no Session to release (log 6). A transport that a single call left open before the start
is closed here too, with its `Close` event, also after an ImageError (DESIGN CHOICE, log 34). -/
def release (s : State) : State := if s.busy then { opClose s with run := none } else s

/-- TAKING AN ERROR (60_exceptions.md R226, 45_orchestrator.md R195, R196). There is no return from it (R228). The record, the
`Close` of the release and `BUSY <- 0` are one step with the failing event: no request of the host falls between them (DESIGN CHOICE,
log 37). -/
def enterFailed (e : ErrInfo) (s : State) : State := release (recordError e s)

/-- The outcome of a step that performed an operation. -/
def Res.settle (r : Res) : Host.Outcome State Fault Refusal :=
  match r with
  | .ok s => .next s
  | .err e s => .next (enterFailed e s)
  | .fault f => .fault f
  | .refused x => .refused x

/-- The step and operation at a sequencer position (10_state.md R22, 60_exceptions.md R220): the codes that a bare primitive
or validation called on its own records (log 7). It records no address: no `writePage` or `blankCheckSegment` failed. -/
def posCtx (p : Position) : Ctx :=
  match p.st with
  | .closed => { step := 0x01#8, op := 0x01#8 }
  | .initialized => { step := 0x20#8, op := 0x20#8 }
  | .synced =>
    { step := 0x30#8, op := if p.ph.toNat < 2 then 0x31#8 else if p.ph.toNat < 4 then 0x32#8 else 0x33#8 }
  | .shimActive => { step := 0x40#8, op := 0x40#8 }
  | .erased => { step := 0x44#8, op := 0x43#8 }
  | .verified => { step := 0x42#8, op := 0x41#8 }
  | .programmed | .reset | .done | .failed => { step := 0x00#8, op := 0x00#8 }

/-- `open` (OPID 01) as step and operation. -/
def ctxOpen : Ctx := { step := 0x01#8, op := 0x01#8 }
/-- `loadImage`. -/
def ctxLoadImage : Ctx := { step := 0x52#8, op := 0x52#8 }
/-- `handshake`. -/
def ctxHandshake : Ctx := { step := 0x20#8, op := 0x20#8 }
/-- `ramInit` in `loadAndRun`. -/
def ctxRamInit : Ctx := { step := 0x30#8, op := 0x31#8 }
/-- `shimData` in `loadAndRun`. -/
def ctxShimData : Ctx := { step := 0x30#8, op := 0x32#8 }
/-- `jump` in `loadAndRun`. -/
def ctxJump : Ctx := { step := 0x30#8, op := 0x33#8 }
/-- `chipErase`. -/
def ctxChipErase : Ctx := { step := 0x40#8, op := 0x40#8 }
/-- `blankCheckSegment` in `blankCheck`. -/
def ctxSegment : Ctx := { step := 0x44#8, op := 0x43#8, addressed := true }
/-- `writePage` in `writeImage`. -/
def ctxPage : Ctx := { step := 0x42#8, op := 0x41#8, addressed := true }

/-! ### Transport primitives (40_transport.md) -/

/-- `require x[T_OPEN] == 1` (40_transport.md R100). -/
def requireOpen (s : State) (k : Res) : Res := if s.link.tOpen then k else .refused .transportClosed

/-- `Open(p, b)` (40_transport.md R101): reopens if already open; the environment's script answers, and an environment
whose script has ended refuses (log 10). -/
def opOpen (port : List Byte) (baud : Word) (s : State) : Res :=
  let s1 := envTurn s
  let s2 := if s1.link.tOpen then closeLink s1 else s1
  let s3 := { s2 with env := { s2.env with opens := s2.env.opens.tail } }
  if s2.env.opens.headD false then
    .ok { s3 with
      link := { tOpen := true, tBaud := baud, rxq := [], txq := [], rst := .undriven }
      trace := s3.trace ++ [.opened port baud true] }
  else .err { kind := .io, ctx := ctxOpen, raw := [] } { s3 with trace := s3.trace ++ [.opened port baud false] }

/-- `SetReset(a)` (40_transport.md R103). -/
def opSetReset (a : Bool) (s : State) : Res :=
  requireOpen s <| .ok <|
    let s1 := envTurn s
    { s1 with
      link := { s1.link with rst := if a then .asserted else .deasserted }
      trace := s1.trace ++ [.setReset a] }

/-- `Discard()` (40_transport.md R104). -/
def opDiscard (s : State) : Res :=
  requireOpen s <| .ok <|
    let s1 := envTurn s
    { s1 with link := { s1.link with rxq := [], txq := [] }, trace := s1.trace ++ [.discarded] }

/-- `Write(data)` (40_transport.md R105): one `Tx` event a byte; when it returns `TXQ` is empty (20_memory.md R62). -/
def transmit (data : List Byte) (s : State) : State :=
  { s with link := { s.link with txq := [] }, trace := s.trace ++ data.map .tx }

/-- `Write(data)` with its precondition (40_transport.md R100). -/
def opWrite (data : List Byte) (s : State) : Res := requireOpen s (.ok (transmit data (envTurn s)))

/-- `Wait(ms)` (40_transport.md R106); it needs no open transport. -/
def opWait (ms : Nat) (s : State) : State :=
  let s1 := envTurn s
  let s2 := waitUntil (s1.env.now + ms) s1
  { s2 with trace := s2.trace ++ [.waited ms] }

/-- What a `Read` finds (40_transport.md R107): the state at the verdict, and whether `count` bytes are there. -/
def readVerdict (count timeout : Nat) (s : State) : State × Bool :=
  poll count timeout (envTurn s).env.now (timeout + 1) (envTurn s)

/-- The oldest `count` bytes taken from `RXQ` (40_transport.md R107). -/
def readTaken (count timeout : Nat) (s : State) : State :=
  let b := s.link.rxq.take count
  { s with
    link := { s.link with rxq := s.link.rxq.drop count }
    rx := rxBuffer b
    trace := s.trace ++ [.readOk count timeout b] }

/-- The partial bytes taken from `RXQ` on a timeout (40_transport.md R107). -/
def readPartial (count timeout : Nat) (s : State) : State :=
  { s with
    link := { s.link with rxq := [] }
    rx := rxBuffer s.link.rxq
    trace := s.trace ++ [.readTimeout count timeout s.link.rxq] }

/-- `Read(n, t)` (40_transport.md R107), going on with the bytes read; a timeout raises `TimeoutError` with the partial
bytes. -/
def opRead (c : Ctx) (count timeout : Nat) (s : State) (k : List Byte → State → Res) : Res :=
  requireOpen s <|
    let v := readVerdict count timeout s
    if v.2 then k (v.1.link.rxq.take count) (readTaken count timeout v.1)
    else .err { kind := .timeout, ctx := c, raw := v.1.link.rxq } (readPartial count timeout v.1)

/-! ### Messages -/

/-- Assemble a TX message and transmit it (30_encoding.md R84, 40_transport.md R105). It asks for no `Discard` before and no `Read`
since the last request; the event lists have both, a message called alone need not (log 36). -/
def opSend (m : TxMsg) (s : State) : Res :=
  requireOpen s <| .ok <|
    let s1 := envTurn s
    transmit m.bytes { s1 with wrk := m.regs s1.wrk }

/-- Read a response and accept it or raise `ProtocolError` with all of it (60_exceptions.md R218, R224). -/
def opRecv (c : Ctx) (sh : RxShape) (s : State) : Res :=
  opRead c sh.count s.cfg.tRead.toNat s fun b s1 =>
    let s2 := { s1 with wrk := sh.regs b s1.wrk }
    if sh.accepts b then .ok s2 else .err { kind := .protocol, ctx := c, raw := b } s2

/-- A response arrives at the tail of `RXQ` and the block reads it (log 23). -/
def opRecvMsg (c : Ctx) (sh : RxShape) (bytes : List Byte) (s : State) : Res :=
  requireOpen s (opRecv c sh { s with link := { s.link with rxq := s.link.rxq ++ bytes } })

/-! ### Event lists (42_handshake.md to 44_flashprogrammer.md) -/

/-- One entry of an operation's event list. `sendShim` and `sendPage` read the message's data from the input memories. -/
inductive Ev where
  | setReset (a : Bool)
  | wait (ms : Nat)
  | discard
  | send (m : TxMsg)
  | sendShim (len : Nat)
  | sendPage (address : Word) (offset len : Nat)
  | recv (sh : RxShape)
  deriving DecidableEq, Repr

/-- Perform one event. -/
def runEv (c : Ctx) (e : Ev) (s : State) : Res :=
  match e with
  | .setReset a => opSetReset a s
  | .wait ms => .ok (opWait ms s)
  | .discard => opDiscard s
  | .send m => opSend m s
  | .sendShim len =>
    match memRead s.shm 0 len with
    | some bytes => opSend (.shimData bytes) s
    | none => .fault .unwrittenByte
  | .sendPage a off len =>
    match memRead s.img off len with
    | some data => opSend (.pageWrite a data) s
    | none => .fault .unwrittenByte
  | .recv sh => opRecv c sh s

/-- `PH` set to the index of the next event (10_state.md R22). -/
def setPh (k : Nat) (s : State) : State := { s with pos := { s.pos with ph := BitVec.ofNat 4 k } }

/-- `IDX` set to the loop index (10_state.md R22). -/
def setIdx (k : Nat) (s : State) : State := { s with pos := { s.pos with idx := BitVec.ofNat 32 k } }

/-- `PH <- 0`, `IDX <- 0`. -/
def restart (s : State) : State := { s with pos := { s.pos with ph := 0#4, idx := 0#32 } }

/-- Perform an event list from index `k` on, `PH` at each event's index. -/
def runEvents (c : Ctx) : Nat → List Ev → State → Res
  | _, [], s => .ok s
  | k, e :: es, s => (runEv c e (setPh k s)).andThen (runEvents c (k + 1) es)

/-- A step completes (10_state.md R23, 45_orchestrator.md R194): `ST` goes from the step's state before to its state after,
and is left alone when the operation is called in another state (log 5); `PH <- 0`, `IDX <- 0`. -/
def advance (before after : SeqState) (s : State) : State :=
  { s with pos := { st := if s.pos.st = before then after else s.pos.st, ph := 0#4, idx := 0#32 } }

/-- The reset pulse completes: `Programmed` to `Reset` in a download (45_orchestrator.md R191), `Initialized` to `Reset` in a
listen run (R202). -/
def advancePulse (s : State) : State :=
  if s.run = some .listen then advance .initialized .reset s else advance .programmed .reset s

/-- Events 0 to 5 of `handshake` (42_handshake.md R141). -/
def resetPulseEvents (c : ConfigRegs) : List Ev :=
  [.setReset true, .wait c.tAssert.toNat, .discard, .send .handshake, .setReset false, .wait c.tSettle.toNat]

/-- The eight events of `handshake` (42_handshake.md R140). -/
def handshakeEvents (c : ConfigRegs) : List Ev := resetPulseEvents c ++ [.recv .hsAck, .discard]

/-- `ramInit` (43_shimloader.md R152). -/
def ramInitEvents (base : Word) (len : Half) : List Ev := [.send (.ramInit base len), .recv .ack]

/-- `shimData` (43_shimloader.md R153) with the bytes given. -/
def shimDataEvents (bytes : List Byte) : List Ev := [.send (.shimData bytes), .recv .ack]

/-- `jump` (43_shimloader.md R154). -/
def jumpEvents : List Ev := [.send .jump, .recv .banner]

/-- `chipErase` (44_flashprogrammer.md R167). -/
def chipEraseEvents : List Ev := [.discard, .send .chipErase, .recv .resp9]

/-- `writePage` (44_flashprogrammer.md R168) with the data given. -/
def pageEvents (address : Word) (data : List Byte) : List Ev := [.discard, .send (.pageWrite address data), .recv .resp9]

/-- `blankCheckSegment` (44_flashprogrammer.md R174). -/
def segmentEvents (address : Word) (length : Half) : List Ev :=
  [.discard, .send (.blankCheck address length), .recv .resp10]

/-- The loop of `blankCheck` over the segment indices (44_flashprogrammer.md R176). -/
def segmentLoop (start : Word) (pageSize : Half) : List Nat → State → Res
  | [], s => .ok s
  | i :: is, s =>
    (runEvents ctxSegment 0 (segmentEvents (segmentAddr start pageSize.toNat i) pageSize) (setIdx i s)).andThen
      (segmentLoop start pageSize is)

/-- `REM` reduced by the bytes written (44_flashprogrammer.md R172). -/
def reduceRem (n : Nat) (s : State) : State := { s with wrk := { s.wrk with rem := s.wrk.rem - BitVec.ofNat 32 n } }

/-- The loop of `writeImage` over the page indices (44_flashprogrammer.md R169, R172). -/
def pageLoop (loadAddress : Word) (bytes : List Byte) (pageSize : Nat) : List Nat → State → Res
  | [], s => .ok s
  | i :: is, s =>
    (runEvents ctxPage 0 (pageEvents (pageAddr loadAddress pageSize i) (pageData bytes pageSize i)) (setIdx i s)).andThen
      fun s' => pageLoop loadAddress bytes pageSize is (reduceRem (pageData bytes pageSize i).length s')

end Sys2Proof.Machine
end

