-- ==== Sys2Proof/Machine/Flash.lean ====
section
/-! DEFINITION. The meanings of the flash programmer's operations (44_flashprogrammer.md R165 to R176). -/

namespace Sys2Proof.Machine

/-- `chipErase` (44_flashprogrammer.md R167); as step 4 of a run it leads from `ShimActive` to `Erased`. -/
def execChipErase (s : State) : Host.Outcome State Fault Refusal :=
  ((runEvents ctxChipErase 0 chipEraseEvents (restart s)).map (advance .shimActive .erased)).settle

/-- `writePage` (44_flashprogrammer.md R168); `IDX` stays as its caller set it. -/
def execWritePage (address : Word) (data : List Byte) (s : State) : Host.Outcome State Fault Refusal :=
  if data.length ≤ 65535 then ((runEvents ctxPage 0 (pageEvents address data) s).map (setPh 0)).settle
  else .refused .pageTooLong

/-- `writeImage` (44_flashprogrammer.md R169, R172); as step 6 of a run it leads from `Verified` to `Programmed`. -/
def execWriteImage (loadAddress : Word) (bytes : List Byte) (pageSize : Half) (s : State) :
    Host.Outcome State Fault Refusal :=
  if imageRangeOk loadAddress.toNat bytes.length pageSize.toNat then
    let s0 := restart s
    let s1 := { s0 with wrk := { s0.wrk with rem := BitVec.ofNat 32 bytes.length } }
    ((pageLoop loadAddress bytes pageSize.toNat (List.range (pageCount bytes.length pageSize.toNat)) s1).map
      (advance .verified .programmed)).settle
  else .refused .rangePrecondition

/-- `blankCheckSegment` (44_flashprogrammer.md R174, R175); `IDX` stays as its caller set it. -/
def execBlankCheckSegment (address : Word) (length : Half) (s : State) : Host.Outcome State Fault Refusal :=
  ((runEvents ctxSegment 0 (segmentEvents address length) s).map (setPh 0)).settle

/-- `blankCheck` (44_flashprogrammer.md R176); as step 5 of a run it leads from `Erased` to `Verified`. -/
def execBlankCheck (startAddress : Word) (pageSize : Half) (count : Word) (s : State) :
    Host.Outcome State Fault Refusal :=
  if blankRangeOk startAddress.toNat pageSize.toNat count.toNat then
    ((segmentLoop startAddress pageSize (List.range count.toNat) (restart s)).map (advance .erased .verified)).settle
  else .refused .rangePrecondition

end Sys2Proof.Machine
end

