-- ==== Sys2Proof/Machine/FrameCodec.lean ====
section
/-! DEFINITION. The meanings of the codec operations (41_framecodec.md R120 to R127). Each returns its value in `ret` (log 25)
and writes the working registers its rule names. -/

namespace Sys2Proof.Machine

/-- A value returned (log 25). -/
def State.returning (s : State) (r : Ret) : State := { s with ret := r }

/-- `CSUM` written by `checksum8` (41_framecodec.md R120). -/
def State.withCsum (s : State) (v : Byte) : State := { s with wrk := { s.wrk with csum := v } }

/-- `checksum8` (41_framecodec.md R120). -/
def execChecksum8 (bytes : List Byte) (s : State) : Host.Outcome State Fault Refusal :=
  .next ((s.withCsum (sum8 bytes)).returning (.byte (sum8 bytes)))

/-- `appendChecksum8` (41_framecodec.md R121). -/
def execAppendChecksum8 (bytes : List Byte) (s : State) : Host.Outcome State Fault Refusal :=
  .next ((s.withCsum (sum8 bytes)).returning (.bytes (appendSum8 bytes)))

/-- `buildCommandFrame` (41_framecodec.md R122): it accepts any opcode byte. -/
def execBuildCommandFrame (opcode : Byte) (address : Word) (extra payload : List Byte) (s : State) :
    Host.Outcome State Fault Refusal :=
  .next ({ s with wrk := frameRegs opcode address s.wrk.len extra payload s.wrk }.returning
    (.bytes (commandFrame opcode address extra payload)))

/-- `handshakePattern` (41_framecodec.md R123). -/
def execHandshakePattern (s : State) : Host.Outcome State Fault Refusal :=
  .next (s.returning (.bytes Config.hsPattern))

/-- `validateResponseFrame` (41_framecodec.md R124): it returns, or raises `ProtocolError` with the bytes. -/
def execValidateResponseFrame (bytes : List Byte) (expectedLength : Word) (s : State) :
    Host.Outcome State Fault Refusal :=
  let s1 := { s with wrk := validateCsum bytes expectedLength.toNat s.wrk }
  if validFrame bytes expectedLength.toNat then .next (s1.returning .unit)
  else (Res.err { kind := .protocol, ctx := posCtx s.pos, raw := bytes } s1).settle

/-- `isSync` (41_framecodec.md R125). -/
def execIsSync (b : Byte) (s : State) : Host.Outcome State Fault Refusal := .next (s.returning (.bool (syncByte b)))

/-- `isHandshakeAck` (41_framecodec.md R126). -/
def execIsHandshakeAck (b : Byte) (s : State) : Host.Outcome State Fault Refusal :=
  .next (s.returning (.bool (hsAckByte b)))

/-- `isAck` (41_framecodec.md R127). -/
def execIsAck (b : Byte) (s : State) : Host.Outcome State Fault Refusal := .next (s.returning (.bool (ackByte b)))

end Sys2Proof.Machine
end

