-- ==== Sys2Proof/Machine/Handshake.lean ====
section
/-! DEFINITION. The meanings of `handshake` and `resetPulse` (42_handshake.md R140, R141). -/

namespace Sys2Proof.Machine

/-- `handshake` (42_handshake.md R140); as step 2 of a run it leads from `Initialized` to `Synced`. -/
def execHandshake (s : State) : Host.Outcome State Fault Refusal :=
  ((runEvents ctxHandshake 0 (handshakeEvents s.cfg) (restart s)).map (advance .initialized .synced)).settle

/-- The step code of `resetPulse`, which raises nothing (42_handshake.md R141). -/
def ctxResetPulse : Ctx := { step := 0x21#8, op := 0x21#8 }

/-- `resetPulse` (42_handshake.md R141); as step 7 of a run it leads from `Programmed` to `Reset`. -/
def execResetPulse (s : State) : Host.Outcome State Fault Refusal :=
  ((runEvents ctxResetPulse 0 (resetPulseEvents s.cfg) (restart s)).map advancePulse).settle

end Sys2Proof.Machine
end

