-- ==== Sys2Proof/Machine/Orchestrator.lean ====
section
/-! DEFINITION. The meanings of the start commands `download` and `listen` (45_orchestrator.md R190, R193, R202) and of
`loadImage` (R192). A start command that is accepted begins a run; the run's events follow one a step at the position
(ST, PH, IDX) (10_state.md R22, R23; Machine/Sequencer.lean; log 4). -/

namespace Sys2Proof.Machine

/-- The status registers S2 to S8 cleared (45_orchestrator.md R190). -/
def noError : ErrRegs :=
  { kind := .none, step := 0#8, op := 0#8, addr := 0#32, idx := 0#32, rawn := 0#4, raw := [] }

/-- The acceptance of a start command (45_orchestrator.md R190). The configuration is sampled by being unchangeable while
`BUSY` = 1 (10_state.md R27, log 21). `ST` becomes `Closed` whatever it was, and a transport that single calls left open stays
open (DESIGN CHOICE, log 34). -/
def startRun (k : RunKind) (s : State) : State :=
  { s with pos := { st := .closed, ph := 0#4, idx := 0#32 }, err := noError, run := some k }

/-- `download` (45_orchestrator.md R190, R193), accepted whenever `BUSY` = 0, also with `ST` past `Closed` or the transport open
after single calls (DESIGN CHOICE, log 34). -/
def execDownload (s : State) : Host.Outcome State Fault Refusal :=
  if s.busy then .refused .busy
  else if s.cfg.downloadOk then .next (startRun .download s)
  else .refused .illFormedConfig

/-- `listen` (45_orchestrator.md R190, R202): no precondition on the image or the blank region; accepted as `download` is
(log 34). -/
def execListen (s : State) : Host.Outcome State Fault Refusal :=
  if s.busy then .refused .busy else .next (startRun .listen s)

/-- `loadImage` (45_orchestrator.md R192): the image the host supplied is taken over, or the failure it signalled by
`IMG_ERR` is raised. -/
def execLoadImage (s : State) : Host.Outcome State Fault Refusal :=
  if s.cfg.imgErr then (Res.err { kind := .image, ctx := ctxLoadImage, raw := [] } s).settle else .next s

end Sys2Proof.Machine
end

