-- ==== Sys2Proof/Machine/Shim.lean ====
section
/-! DEFINITION. The meanings of the shim loader's operations (43_shimloader.md R150 to R154). In `loadAndRun` the six events
of the three exchanges are numbered 0 to 5 (log 8). -/

namespace Sys2Proof.Machine

/-- `loadAndRun` (43_shimloader.md R150, R151); as step 3 of a run it leads from `Synced` to `ShimActive`. -/
def execLoadAndRun (shimBytes : List Byte) (ramBaseAddress : Word) (s : State) : Host.Outcome State Fault Refusal :=
  if shimBytes.length ≤ 65535 then
    ((((runEvents ctxRamInit 0 (ramInitEvents ramBaseAddress (BitVec.ofNat 16 shimBytes.length)) (restart s)).andThen
      (runEvents ctxShimData 2 (shimDataEvents shimBytes))).andThen
      (runEvents ctxJump 4 jumpEvents)).map (advance .synced .shimActive)).settle
  else .refused .shimTooLong

/-- `ramInit` (43_shimloader.md R152). -/
def execRamInit (base : Word) (len : Half) (s : State) : Host.Outcome State Fault Refusal :=
  ((runEvents ctxRamInit 0 (ramInitEvents base len) (restart s)).map restart).settle

/-- `shimData` (43_shimloader.md R153). -/
def execShimData (shimBytes : List Byte) (s : State) : Host.Outcome State Fault Refusal :=
  if shimBytes.length ≤ 65535 then
    ((runEvents ctxShimData 2 (shimDataEvents shimBytes) (restart s)).map restart).settle
  else .refused .shimTooLong

/-- `jump` (43_shimloader.md R154). -/
def execJump (s : State) : Host.Outcome State Fault Refusal :=
  ((runEvents ctxJump 4 jumpEvents (restart s)).map restart).settle

end Sys2Proof.Machine
end

