-- ==== Sys2Proof/Machine/Transport.lean ====
section
/-! DEFINITION. The meanings of the transport primitives and the wait (40_transport.md R101 to R107). -/

namespace Sys2Proof.Machine

/-- `open` (40_transport.md R101). As step 1 of a run it leads from `Closed` to `Initialized` (45_orchestrator.md R191). -/
def execOpen (port : List Byte) (baud : Word) (s : State) : Host.Outcome State Fault Refusal :=
  ((opOpen port baud (restart s)).map (advance .closed .initialized)).settle

/-- The end of a download run (45_orchestrator.md R193): `ST <- Done`, `BUSY <- 0`. -/
def finishRun (s : State) : State :=
  let s1 := advance .reset .done s
  if s.pos.st = .reset ∧ s.run = some .download then { s1 with run := none } else s1

/-- `close` (40_transport.md R102): on a closed transport it has no effect at all. As step 8 of a run it leads from `Reset` to
`Done` (45_orchestrator.md R191). -/
def execClose (s : State) : Host.Outcome State Fault Refusal :=
  .next (if s.link.tOpen then finishRun (opClose s) else s)

/-- `setResetLine` (40_transport.md R103). -/
def execSetResetLine (asserted : Bool) (s : State) : Host.Outcome State Fault Refusal := (opSetReset asserted s).settle

/-- `discardBuffers` (40_transport.md R104). -/
def execDiscardBuffers (s : State) : Host.Outcome State Fault Refusal := (opDiscard s).settle

/-- `writeBytes` (40_transport.md R105). -/
def execWriteBytes (data : List Byte) (s : State) : Host.Outcome State Fault Refusal := (opWrite data s).settle

/-- `wait` (40_transport.md R106). -/
def execWait (ms : Word) (s : State) : Host.Outcome State Fault Refusal := .next (opWait ms.toNat s)

/-- `readExact` (40_transport.md R107); it returns the bytes read. -/
def execReadExact (count timeout : Word) (s : State) : Host.Outcome State Fault Refusal :=
  (opRead (posCtx s.pos) count.toNat timeout.toNat s fun b s1 => .ok { s1 with ret := .bytes b }).settle

end Sys2Proof.Machine
end

