-- ==== Sys2Proof/Machine/Wire.lean ====
section
/-! DEFINITION. The meanings of the twelve wire messages (30_encoding.md R70 to R83). A TX message is assembled and
transmitted; its checksum byte must be the one the block assembles (R84, log 24). An RX message arrives and is read and
accepted or rejected (log 23). -/

namespace Sys2Proof.Machine

/-- Transmit `m` when its checksum byte, as written in the instruction, is the one the block assembles (log 24). -/
def sendChecked (m : TxMsg) (ck : Byte) (s : State) : Res :=
  if m.bytes.getLast? = some ck then opSend m s else .refused .frameChecksum

/-- HANDSHAKE (30_encoding.md R78). -/
def execHandshakeMsg (s : State) : Host.Outcome State Fault Refusal := (opSend .handshake s).settle

/-- RAM_INIT (30_encoding.md R72). -/
def execRamInitMsg (address : Word) (length : Half) (ck : Byte) (s : State) : Host.Outcome State Fault Refusal :=
  (sendChecked (.ramInit address length) ck s).settle

/-- SHIM_DATA (30_encoding.md R73); at most 65535 data bytes (43_shimloader.md R151). -/
def execShimDataMsg (data : List Byte) (ck : Byte) (s : State) : Host.Outcome State Fault Refusal :=
  if data.length ≤ 65535 then (sendChecked (.shimData data) ck s).settle else .refused .shimTooLong

/-- JUMP (30_encoding.md R74). -/
def execJumpMsg (s : State) : Host.Outcome State Fault Refusal := (opSend .jump s).settle

/-- CHIP_ERASE (30_encoding.md R75). The message alone, with no `Discard` before it (log 36). -/
def execChipEraseMsg (s : State) : Host.Outcome State Fault Refusal := (opSend .chipErase s).settle

/-- PAGE_WRITE (30_encoding.md R76); at most 65535 data bytes (R84). The message alone, with no `Discard` before it (log 36). -/
def execPageWriteMsg (address : Word) (data : List Byte) (ck : Byte) (s : State) : Host.Outcome State Fault Refusal :=
  if data.length ≤ 65535 then (sendChecked (.pageWrite address data) ck s).settle else .refused .pageTooLong

/-- BLANK_CHECK (30_encoding.md R77). The message alone, with no `Discard` before it (log 36). -/
def execBlankCheckMsg (address : Word) (length : Half) (ck : Byte) (s : State) : Host.Outcome State Fault Refusal :=
  (sendChecked (.blankCheck address length) ck s).settle

/-- HS_ACK (30_encoding.md R79), the answer to `handshake`'s read. -/
def execHsAckMsg (s : State) : Host.Outcome State Fault Refusal :=
  (opRecvMsg ctxHandshake .hsAck [Config.hsAck] s).settle

/-- Which of the two operations an ACK answers (30_encoding.md R80): `shimData` at its events of `loadAndRun`, else
`ramInit` (log 7). -/
def ackCtx (p : Position) : Ctx := if p.st = .synced ∧ 2 ≤ p.ph.toNat ∧ p.ph.toNat < 4 then ctxShimData else ctxRamInit

/-- ACK (30_encoding.md R80). -/
def execAckMsg (s : State) : Host.Outcome State Fault Refusal :=
  (opRecvMsg (ackCtx s.pos) .ack [Config.ack] s).settle

/-- JUMP_BANNER (30_encoding.md R81), the answer to `jump`'s read. -/
def execJumpBannerMsg (b0 b1 b2 b3 b4 b5 b6 b7 b8 b9 b10 : Byte) (s : State) : Host.Outcome State Fault Refusal :=
  (opRecvMsg ctxJump .banner [b0, b1, b2, b3, b4, b5, b6, b7, b8, b9, b10] s).settle

/-- Which of the two operations a RESP9 answers (30_encoding.md R82): `writePage` in the page loop, else `chipErase`
(log 7). A message received alone records no address: it is no `writePage` (10_state.md R26, S5). -/
def resp9Ctx (p : Position) : Ctx := if p.st = .verified then { ctxPage with addressed := false } else ctxChipErase

/-- A RESP10 answers `blankCheckSegment` (30_encoding.md R83); received alone it records no address (10_state.md R26, S5). -/
def resp10Ctx : Ctx := { ctxSegment with addressed := false }

/-- RESP9 (30_encoding.md R82). -/
def execResp9Msg (e1 e2 e3 e4 e5 e6 e7 ck : Byte) (s : State) : Host.Outcome State Fault Refusal :=
  (opRecvMsg (resp9Ctx s.pos) .resp9 [Config.sync, e1, e2, e3, e4, e5, e6, e7, ck] s).settle

/-- RESP10 (30_encoding.md R83), the answer to `blankCheckSegment`'s read. -/
def execResp10Msg (e1 e2 e3 e4 e5 u8 ck : Byte) (s : State) : Host.Outcome State Fault Refusal :=
  (opRecvMsg resp10Ctx .resp10 [Config.sync, e1, e2, e3, e4, e5, 0x01#8, 0x00#8, u8, ck] s).settle

end Sys2Proof.Machine
end

