-- ==== Sys2Proof/Machine/Dispatch.lean ====
section
/-! DEFINITION. The dispatch: one arm for each instruction. -/

namespace Sys2Proof.Machine

/-- The meaning of an instruction. -/
def exec (i : Instr) (s : State) : Host.Outcome State Fault Refusal :=
  match i with
  | .handshakeMsg => Sys2Proof.Machine.execHandshakeMsg s
  | .ramInitMsg address length ck => Sys2Proof.Machine.execRamInitMsg address length ck s
  | .shimDataMsg data ck => Sys2Proof.Machine.execShimDataMsg data ck s
  | .jumpMsg => Sys2Proof.Machine.execJumpMsg s
  | .chipEraseMsg => Sys2Proof.Machine.execChipEraseMsg s
  | .pageWriteMsg address data ck => Sys2Proof.Machine.execPageWriteMsg address data ck s
  | .blankCheckMsg address length ck => Sys2Proof.Machine.execBlankCheckMsg address length ck s
  | .hsAckMsg => Sys2Proof.Machine.execHsAckMsg s
  | .ackMsg => Sys2Proof.Machine.execAckMsg s
  | .jumpBannerMsg b0 b1 b2 b3 b4 b5 b6 b7 b8 b9 b10 => Sys2Proof.Machine.execJumpBannerMsg b0 b1 b2 b3 b4 b5 b6 b7 b8 b9 b10 s
  | .resp9Msg e1 e2 e3 e4 e5 e6 e7 ck => Sys2Proof.Machine.execResp9Msg e1 e2 e3 e4 e5 e6 e7 ck s
  | .resp10Msg e1 e2 e3 e4 e5 u8 ck => Sys2Proof.Machine.execResp10Msg e1 e2 e3 e4 e5 u8 ck s
  | .openPort port baud => Sys2Proof.Machine.execOpen port baud s
  | .closePort => Sys2Proof.Machine.execClose s
  | .setResetLine asserted => Sys2Proof.Machine.execSetResetLine asserted s
  | .discardBuffers => Sys2Proof.Machine.execDiscardBuffers s
  | .writeBytes data => Sys2Proof.Machine.execWriteBytes data s
  | .wait ms => Sys2Proof.Machine.execWait ms s
  | .readExact count timeout => Sys2Proof.Machine.execReadExact count timeout s
  | .checksum8 bytes => Sys2Proof.Machine.execChecksum8 bytes s
  | .appendChecksum8 bytes => Sys2Proof.Machine.execAppendChecksum8 bytes s
  | .buildCommandFrame opcode address extra payload => Sys2Proof.Machine.execBuildCommandFrame opcode address extra payload s
  | .handshakePattern => Sys2Proof.Machine.execHandshakePattern s
  | .validateResponseFrame bytes expectedLength => Sys2Proof.Machine.execValidateResponseFrame bytes expectedLength s
  | .isSync b => Sys2Proof.Machine.execIsSync b s
  | .isHandshakeAck b => Sys2Proof.Machine.execIsHandshakeAck b s
  | .isAck b => Sys2Proof.Machine.execIsAck b s
  | .handshake => Sys2Proof.Machine.execHandshake s
  | .resetPulse => Sys2Proof.Machine.execResetPulse s
  | .loadAndRun shimBytes ramBaseAddress => Sys2Proof.Machine.execLoadAndRun shimBytes ramBaseAddress s
  | .ramInit base len => Sys2Proof.Machine.execRamInit base len s
  | .shimData shimBytes => Sys2Proof.Machine.execShimData shimBytes s
  | .jump => Sys2Proof.Machine.execJump s
  | .chipErase => Sys2Proof.Machine.execChipErase s
  | .writePage address data => Sys2Proof.Machine.execWritePage address data s
  | .writeImage loadAddress bytes pageSize => Sys2Proof.Machine.execWriteImage loadAddress bytes pageSize s
  | .blankCheckSegment address length => Sys2Proof.Machine.execBlankCheckSegment address length s
  | .blankCheck startAddress pageSize count => Sys2Proof.Machine.execBlankCheck startAddress pageSize count s
  | .download => Sys2Proof.Machine.execDownload s
  | .listen => Sys2Proof.Machine.execListen s
  | .loadImage => Sys2Proof.Machine.execLoadImage s

end Sys2Proof.Machine
end

