-- ==== Sys2Proof/Machine/Sequencer.lean ====
section
/-! DEFINITION. The block's fixed sequence (45_orchestrator.md R191, R193, R202), one transport event a step: the event at the
position (ST, PH, IDX) (10_state.md R22) is performed and the position moves on (R23). -/

namespace Sys2Proof.Machine

/-- The operation codes and events of one event list. -/
def withCtx (c : Ctx) (es : List Ev) : List (Ctx × Ev) := es.map fun e => (c, e)

/-- The number of bytes of the page at hand: `min(pageSize, x[REM])` (44_flashprogrammer.md R172). -/
def pageLen (s : State) : Nat := min s.cfg.writePage.toNat s.wrk.rem.toNat

/-- The event list of the step, or of the loop's present iteration, that starts in `ST` (45_orchestrator.md R191); empty when
a loop has nothing (more) to do, and in the states whose step has no such list. -/
def stepEvents (s : State) : List (Ctx × Ev) :=
  match s.pos.st with
  | .initialized =>
    if s.run = some .listen then withCtx ctxResetPulse (resetPulseEvents s.cfg)
    else withCtx ctxHandshake (handshakeEvents s.cfg)
  | .synced =>
    withCtx ctxRamInit (ramInitEvents s.cfg.ramBase s.cfg.shimLen)
      ++ withCtx ctxShimData [.sendShim s.cfg.shimLen.toNat, .recv .ack]
      ++ withCtx ctxJump jumpEvents
  | .shimActive => withCtx ctxChipErase chipEraseEvents
  | .erased =>
    if s.pos.idx.toNat < s.cfg.blankCount.toNat then
      withCtx ctxSegment
        (segmentEvents (segmentAddr s.cfg.blankStart s.cfg.blankPage.toNat s.pos.idx.toNat) s.cfg.blankPage)
    else []
  | .verified =>
    if s.wrk.rem = 0#32 then []
    else
      withCtx ctxPage
        [.discard,
         .sendPage (pageAddr s.cfg.imgAddr s.cfg.writePage.toNat s.pos.idx.toNat)
           (s.cfg.writePage.toNat * s.pos.idx.toNat) (pageLen s),
         .recv .resp9]
  | .programmed => withCtx ctxResetPulse (resetPulseEvents s.cfg)
  | .closed | .reset | .done | .failed => []

/-- `writeImage` begins (44_flashprogrammer.md R172): `REM <- IMG_LEN`. -/
def beginStep (s : State) : State :=
  if s.pos.st = .verified ∧ s.pos.ph = 0#4 ∧ s.pos.idx = 0#32 then
    { s with wrk := { s.wrk with rem := s.cfg.imgLen } }
  else s

/-- The step that starts in `ST` completes (45_orchestrator.md R191, R194). -/
def finishStep (s : State) : State :=
  match s.pos.st with
  | .initialized => if s.run = some .listen then advance .initialized .reset s else advance .initialized .synced s
  | .synced => advance .synced .shimActive s
  | .shimActive => advance .shimActive .erased s
  | .erased => advance .erased .verified s
  | .verified => advance .verified .programmed s
  | .programmed => advance .programmed .reset s
  | .closed | .reset | .done | .failed => s

/-- The next iteration of a loop: `IDX` counts up and `PH` restarts (10_state.md R23). -/
def nextIteration (s : State) : State := { s with pos := { s.pos with ph := 0#4, idx := s.pos.idx + 1#32 } }

/-- The last event of an event list has completed: the loop goes on, or the step completes (10_state.md R23). -/
def finishEvents (s : State) : State :=
  match s.pos.st with
  | .erased => if s.pos.idx.toNat + 1 < s.cfg.blankCount.toNat then nextIteration s else finishStep s
  | .verified =>
    let s1 := reduceRem (pageLen s) s
    if s1.wrk.rem = 0#32 then finishStep s1 else nextIteration s1
  | _ => finishStep s

/-- Perform the event at `PH`; without one, the step is complete (an empty loop: 44_flashprogrammer.md R171, R176). -/
def seqEvent (s0 : State) : Res :=
  let s := beginStep s0
  let es := stepEvents s
  match es[s.pos.ph.toNat]? with
  | none => .ok (finishStep s)
  | some (c, e) =>
    (runEv c e s).map fun s1 =>
      if s.pos.ph.toNat + 1 < es.length then setPh (s.pos.ph.toNat + 1) s1 else finishEvents s1

/-- The first line of a download run (45_orchestrator.md R192, R193). -/
def seqOpen (s : State) : Res :=
  if s.run = some .download ∧ s.cfg.imgErr then .err { kind := .image, ctx := ctxLoadImage, raw := [] } s
  else (opOpen s.cfg.port s.cfg.baud s).map (advance .closed .initialized)

/-- The block's own move. Without a run it does nothing until the next start command (45_orchestrator.md R199, 70_reset_and_hazards.md
R245). After the reset pulse of a listen run the transport belongs to the pass-through, which is not specified (R202). -/
def seqStep (s : State) : Host.Outcome State Fault Refusal :=
  match s.run with
  | none => .next s
  | some k =>
    match s.pos.st with
    | .closed => (seqOpen s).settle
    | .reset =>
      match k with
      | .download => .next (finishRun (opClose s))
      | .listen => .refused .passThrough
    | .done | .failed => .next { s with run := none }
    | _ => (seqEvent s).settle

end Sys2Proof.Machine
end

