-- ==== Sys2Proof/Machine/HostPort.lean ====
section
/-! DEFINITION. The host's requests (10_state.md R27, R28; 45_orchestrator.md R190; 70_reset_and_hazards.md R245, R248), and how
a table word is presented as a call (log 1, log 3). -/

namespace Sys2Proof.Machine

/-- Block reset (70_reset_and_hazards.md R245, R246): the block's state at its reset values; the environment, the host's
requests, the input memories and the history of the link are not the block's (log 16). -/
def blockReset (s : State) : State :=
  { State.reset with env := s.env, img := s.img, shm := s.shm, host := s.host, trace := s.trace }

/-- The group of the messages an operation of the table transmits when it is called alone (60_exceptions.md R230); none for one
that transmits no message. `writeBytes` transmits the bytes it is given (40_transport.md R105), which are no message of the block's;
`writeImage` of no bytes and `blankCheck` of no segment transmit nothing (44_flashprogrammer.md R171, R176). -/
def callClass (i : Instr) : Option MsgClass :=
  match i with
  | .handshakeMsg | .handshake | .resetPulse => some .pattern
  | .ramInitMsg _ _ _ | .shimDataMsg _ _ | .jumpMsg => some .loader
  | .loadAndRun _ _ | .ramInit _ _ | .shimData _ | .jump => some .loader
  | .chipEraseMsg | .pageWriteMsg _ _ _ | .blankCheckMsg _ _ _ => some .flash
  | .chipErase | .writePage _ _ | .blankCheckSegment _ _ => some .flash
  | .writeImage _ bytes _ => if bytes = [] then none else some .flash
  | .blankCheck _ _ n => if n = 0#32 then none else some .flash
  | .hsAckMsg | .ackMsg | .jumpBannerMsg _ _ _ _ _ _ _ _ _ _ _ | .resp9Msg _ _ _ _ _ _ _ _ | .resp10Msg _ _ _ _ _ _ _ => none
  | .openPort _ _ | .closePort | .setResetLine _ | .discardBuffers | .writeBytes _ | .wait _ | .readExact _ _ => none
  | .checksum8 _ | .appendChecksum8 _ | .buildCommandFrame _ _ _ _ | .handshakePattern | .validateResponseFrame _ _ => none
  | .isSync _ | .isHandshakeAck _ | .isAck _ | .download | .listen | .loadImage => none

/-- Whether a call alone keeps to the protocol phase of the state it is made in (60_exceptions.md R230). -/
def callInPhase (i : Instr) (st : SeqState) : Bool := (callClass i).all fun c => c.inPhase st

/-- A call of an operation: refused while a run is in progress (45_orchestrator.md R204, 20_memory.md R64), otherwise decoded
and run. On an open transport a call that would send a message outside its phase has no step: the block never sends one, and there
is no rule that sends a flash opcode before `ShimActive` (60_exceptions.md R230; log 35). Calls are otherwise free to follow each
other: no `Read` between two requests and no `Discard` before one is asked of them (DESIGN CHOICE, log 36). -/
def hostCall (f : Format) (bytes : List Byte) (s : State) : Host.Outcome State Fault Refusal :=
  if s.busy then .refused .busy
  else
    match decode f bytes with
    | .error e => .refused (.undecodable e)
    | .ok (i, _) => if s.link.tOpen && !callInPhase i s.pos.st then .refused .outOfPhase else exec i s

/-- A change of an input memory: before a run only (20_memory.md R65, D28). -/
def hostPoke (s t : State) : Host.Outcome State Fault Refusal := if s.busy then .refused .inputsChanged else .next t

/-- One request of the host, already taken off the list. -/
def hostStep (r : HostReq) (s : State) : Host.Outcome State Fault Refusal :=
  match r with
  | .pass => seqStep s
  | .call f bytes => hostCall f bytes s
  | .writeReg w => .next (if s.busy then s else { s with cfg := w.apply s.cfg })
  | .pokeImg off b => hostPoke s { s with img := memSet s.img off.toNat b }
  | .pokeShm off b => hostPoke s { s with shm := memSet s.shm off.toNat b }
  | .blockReset => .next (blockReset s)

/-- One step: the host's next request, or the block's own move (log 31). -/
def machineStep (s : State) : Host.Outcome State Fault Refusal :=
  match s.host with
  | [] => seqStep s
  | r :: rest => hostStep r { s with host := rest }

/-- A table word presented as the host's next call (log 1, log 3). -/
def presentWord (s : State) (nbits w : Nat) : State :=
  { s with host := .call (tableFetch nbits w).1 (tableFetch nbits w).2 :: s.host }

end Sys2Proof.Machine
end

