-- ==== Sys2Proof/Safety.lean ====
section
/-! DEFINITION. The terms the claims are stated in: the invariant of the machine, the legal transitions of `ST`
(45_orchestrator.md R194), what may be sent in which state (60_exceptions.md R230), and an environment that gives every
request an acceptable answer (45_orchestrator.md R201). -/

namespace Sys2Proof.Machine

/-! ### The invariant -/

/-- The states in which a run holds an open transport (45_orchestrator.md R200). -/
def SeqState.midRun : SeqState → Bool
  | .initialized | .synced | .shimActive | .erased | .verified | .programmed | .reset => true
  | .closed | .done | .failed => false

/-- The length of the event list of the step that starts in a state (10_state.md R22). -/
def SeqState.listLength (st : SeqState) (k : RunKind) : Nat :=
  match st with
  | .initialized => if k = .listen then 6 else 8
  | .synced => 6
  | .shimActive | .erased | .verified => 3
  | .programmed => 6
  | .closed | .reset | .done | .failed => 1

/-- What holds of the position and the loops while a run is in progress (10_state.md R22, R23, R25; 44_flashprogrammer.md
R172, R176; 45_orchestrator.md R190, R200). -/
structure RunInv (s : State) (k : RunKind) : Prop where
  /-- The terminal states are not busy (45_orchestrator.md R199). -/
  live : s.pos.st ≠ .done ∧ s.pos.st ≠ .failed
  /-- The transport is open between the first and the last step (45_orchestrator.md R200). -/
  linked : s.pos.st.midRun = true → s.link.tOpen = true
  /-- No error is recorded while a run goes on (45_orchestrator.md R190, 60_exceptions.md R226). -/
  clean : s.err.kind = .none
  /-- `PH` is an index of the event list (10_state.md R22). -/
  phase : s.pos.ph.toNat < s.pos.st.listLength k
  /-- `IDX` is 0 outside the two loops (10_state.md R22). -/
  index : s.pos.st ≠ .erased → s.pos.st ≠ .verified → s.pos.idx = 0#32
  /-- A listen run has three states (45_orchestrator.md R202). -/
  listens : k = .listen → s.pos.st = .closed ∨ s.pos.st = .initialized ∨ s.pos.st = .reset
  /-- The preconditions of a download hold through it (45_orchestrator.md R190). -/
  config : k = .download → s.cfg.downloadOk = true
  /-- The segment at hand is one of `BLANK_COUNT` (44_flashprogrammer.md R176). -/
  segment : s.pos.st = .erased → s.pos.ph ≠ 0#4 ∨ s.pos.idx ≠ 0#32 → s.pos.idx.toNat < s.cfg.blankCount.toNat
  /-- `REM` is what is left of the image (10_state.md R25), and something is. -/
  remaining : s.pos.st = .verified → s.pos.ph ≠ 0#4 ∨ s.pos.idx ≠ 0#32 →
    s.wrk.rem ≠ 0#32 ∧ s.wrk.rem.toNat + s.cfg.writePage.toNat * s.pos.idx.toNat = s.cfg.imgLen.toNat
  /-- Once a segment's or page's request is sent, `ADDR` is its address (10_state.md R25). -/
  located : s.pos.ph = 2#4 →
    (s.pos.st = .erased → s.wrk.addr = segmentAddr s.cfg.blankStart s.cfg.blankPage.toNat s.pos.idx.toNat) ∧
    (s.pos.st = .verified → s.wrk.addr = pageAddr s.cfg.imgAddr s.cfg.writePage.toNat s.pos.idx.toNat)

/-- The invariant every step keeps. -/
structure StateInv (s : State) : Prop where
  /-- The input memories keep their canonical form. -/
  imgForm : Memory.wf s.img = true
  shmForm : Memory.wf s.shm = true
  /-- A closed transport holds nothing and drives nothing (10_state.md R30, R31). -/
  closedQuiet : s.link.tOpen = false → s.link.rxq = [] ∧ s.link.rst = .undriven
  /-- `Write` is synchronous: nothing stays unsent (20_memory.md R62). -/
  sent : s.link.txq = []
  /-- The receive buffer holds at most eleven bytes and `RXN` counts them (10_state.md R29). -/
  rxFits : s.rx.rxb.length ≤ 11 ∧ s.rx.rxn.toNat = s.rx.rxb.length
  /-- `ERR_RAWN` counts the bytes of `ERR_RAW`, at most eleven (10_state.md R26). -/
  rawFits : s.err.raw.length ≤ 11 ∧ s.err.rawn.toNat = s.err.raw.length
  running : ∀ k, s.run = some k → RunInv s k

/-- `n` steps of the machine, stopping at the first fault or refusal (`Host.Core.run` of this machine). -/
def steps : Nat → State → Host.Outcome State Fault Refusal
  | 0, s => .next s
  | n + 1, s =>
    match step s with
    | .next t => steps n t
    | .fault f => .fault f
    | .refused r => .refused r

/-! ### Transitions and phases -/

/-- The chain of `ST` in a download run (45_orchestrator.md R191, R194). -/
def SeqState.next : SeqState → Option SeqState
  | .closed => some .initialized
  | .initialized => some .synced
  | .synced => some .shimActive
  | .shimActive => some .erased
  | .erased => some .verified
  | .verified => some .programmed
  | .programmed => some .reset
  | .reset => some .done
  | .done | .failed => none

/-- The states whose step can fail (45_orchestrator.md R194). -/
def SeqState.canFail : SeqState → Bool
  | .closed | .initialized | .synced | .shimActive | .erased | .verified => true
  | .programmed | .reset | .done | .failed => false

/-- The messages that may be sent in a state (60_exceptions.md R230). -/
def SeqState.maySend (st : SeqState) (m : TxMsg) : Bool :=
  match m with
  | .handshake => st == .initialized || st == .programmed
  | .ramInit _ _ => st == .synced
  | .shimData _ => st == .synced
  | .jump => st == .synced
  | .chipErase => st == .shimActive
  | .blankCheck _ _ => st == .erased
  | .pageWrite _ _ => st == .verified

/-- A message keeps to its protocol phase (60_exceptions.md R230). -/
def TxMsg.keepsPhase (m : TxMsg) (st : SeqState) : Bool := m.msgClass.inPhase st

/-- The bytes transmitted in a piece of trace, in order (20_memory.md R54). -/
def txBytes : List TraceEvent → List Byte
  | [] => []
  | .tx b :: r => b :: txBytes r
  | _ :: r => txBytes r

/-- The inputs no operation of the block writes (10_state.md R28, R35). -/
def sameInputs (s t : State) : Prop := t.cfg = s.cfg ∧ t.img = s.img ∧ t.shm = s.shm ∧ t.host = s.host

/-! ### An environment that answers every request (45_orchestrator.md R201) -/

/-- A turn in which nothing happens. -/
def quiet : Turn := { elapse := 0, arrive := [] }

/-- The answers of a device are acceptable: of the length the block reads and accepted by its test. -/
def goodAnswers (ans : RxShape → List Byte) : Prop :=
  ∀ sh : RxShape, (ans sh).length = sh.count ∧ sh.accepts (ans sh) = true

/-- The environment's turns for one event: a wait lasts its time, and the answer to a read is there when the read begins. -/
def evTurns (ans : RxShape → List Byte) : Ev → List Turn
  | .wait ms => if ms = 0 then [quiet] else [quiet, { elapse := ms, arrive := [] }]
  | .recv sh => [{ elapse := 0, arrive := ans sh }]
  | .setReset _ | .discard | .send _ | .sendShim _ | .sendPage _ _ _ => [quiet]

/-- The environment's turns for a list of events. -/
def scriptOf (ans : RxShape → List Byte) (es : List Ev) : List Turn := es.flatMap (evTurns ans)

/-- The trace of one event whose read, if it is one, gets its answer; `tRead` is the deadline of every read. -/
def evTrace (ans : RxShape → List Byte) (tRead : Nat) : Ev → List TraceEvent
  | .setReset a => [.setReset a]
  | .wait ms => [.waited ms]
  | .discard => [.discarded]
  | .send m => m.bytes.map .tx
  | .recv sh => [.readOk sh.count tRead (ans sh)]
  | .sendShim _ | .sendPage _ _ _ => []

/-- The trace of a list of events. -/
def traceOf (ans : RxShape → List Byte) (tRead : Nat) (es : List Ev) : List TraceEvent := es.flatMap (evTrace ans tRead)

/-- The events of `loadAndRun` (43_shimloader.md R150). -/
def loadEvents (shim : List Byte) (base : Word) : List Ev :=
  ramInitEvents base (BitVec.ofNat 16 shim.length) ++ shimDataEvents shim ++ jumpEvents

/-- The events of `blankCheck` (44_flashprogrammer.md R176). -/
def blankEvents (start : Word) (size : Half) (count : Nat) : List Ev :=
  (List.range count).flatMap fun i => segmentEvents (segmentAddr start size.toNat i) size

/-- The events of `writeImage` (44_flashprogrammer.md R169, R172). -/
def imageEvents (loadAddress : Word) (bytes : List Byte) (pageSize : Nat) : List Ev :=
  (List.range (pageCount bytes.length pageSize)).flatMap fun i =>
    pageEvents (pageAddr loadAddress pageSize i) (pageData bytes pageSize i)

/-- Every event of a download run between `Open` and `Close` (45_orchestrator.md R193). -/
def downloadEvents (c : ConfigRegs) (image shim : List Byte) : List Ev :=
  handshakeEvents c ++ loadEvents shim c.ramBase ++ chipEraseEvents
    ++ blankEvents c.blankStart c.blankPage c.blankCount.toNat
    ++ imageEvents c.imgAddr image c.writePage.toNat ++ resetPulseEvents c

/-- The steps of a download run that meets no error: one for each event, for `Open` and for `Close`, and one for each loop
with nothing to do. -/
def downloadSteps (c : ConfigRegs) : Nat :=
  1 + 8 + 6 + 3 + (if c.blankCount.toNat = 0 then 1 else 3 * c.blankCount.toNat)
    + (if c.imgLen.toNat = 0 then 1 else 3 * pageCount c.imgLen.toNat c.writePage.toNat) + 6 + 1

/-- The bytes that have arrived by the time `limit` milliseconds of a script have passed (40_transport.md R108). -/
def arrivedBy (limit : Nat) : List Turn → List Byte
  | [] => []
  | t :: r => if t.elapse ≤ limit then t.arrive ++ arrivedBy (limit - t.elapse) r else []

end Sys2Proof.Machine
end

