-- ==== Sys2Proof/Certificates/Slice0/Obligations.lean ====
section
/-! DEFINITION. The statements for the provers. Each docstring names the rule of spec/ a statement formalises. -/

open Sys2Proof Sys2Proof.Machine

/-! ### Reset, the host port and the step -/

/-- 10_state.md R36: the values block reset leaves where the rule gives one. -/
def Obligations.ResetLeavesTheSpecifiedValues : Prop :=
  let s := State.reset
  s.pos = { st := .closed, ph := 0#4, idx := 0#32 } ∧
  s.busy = false ∧ s.doneFlag = false ∧ s.failedFlag = false ∧
  s.err.kind = .none ∧ s.err.step = 0#8 ∧ s.err.op = 0#8 ∧ s.err.addr = 0#32 ∧ s.err.idx = 0#32 ∧ s.err.rawn = 0#4 ∧
  (∀ k, s.err.rawByte k = 0#8) ∧
  s.cfg.baud.toNat = 9600 ∧ s.cfg.ramBase.toNat = 0x20000000 ∧ s.cfg.writePage.toNat = 64 ∧
  s.cfg.blankPage.toNat = 512 ∧ s.cfg.blankCount.toNat = 64 ∧ s.cfg.blankStart.toNat = 0 ∧
  s.cfg.tAssert.toNat = 10 ∧ s.cfg.tSettle.toNat = 100 ∧ s.cfg.tRead.toNat = 5000 ∧ s.cfg.tPoll.toNat = 10 ∧
  s.cfg.imgErr = false ∧
  s.link.tOpen = false ∧ s.link.rxq = [] ∧ s.link.txq = [] ∧ s.link.rst = .undriven

/-- 10_state.md R21, R24, R26, 60_exceptions.md R215: what the host reads in the status registers S0 to S8; bytes of
`ERR_RAW` at an index of `ERR_RAWN` or more read 0 (how the valid ones are held: log 27). -/
def Obligations.StatusRegistersReadTheState : Prop :=
  ∀ s : State, StateInv s →
    (∃ c, s.statusReg 0 = some [c] ∧
      (c = 0 ↔ s.pos.st = .closed) ∧ (c = 1 ↔ s.pos.st = .initialized) ∧ (c = 2 ↔ s.pos.st = .synced) ∧
      (c = 3 ↔ s.pos.st = .shimActive) ∧ (c = 4 ↔ s.pos.st = .erased) ∧ (c = 5 ↔ s.pos.st = .verified) ∧
      (c = 6 ↔ s.pos.st = .programmed) ∧ (c = 7 ↔ s.pos.st = .reset) ∧ (c = 8 ↔ s.pos.st = .done) ∧
      (c = 15 ↔ s.pos.st = .failed)) ∧
    s.statusReg 1 = some [if s.run = none then 0 else 1, if s.pos.st = .done then 1 else 0,
      if s.pos.st = .failed then 1 else 0] ∧
    (∃ c, s.statusReg 2 = some [c] ∧ (c = 0 ↔ s.err.kind = .none) ∧ (c = 1 ↔ s.err.kind = .io) ∧
      (c = 2 ↔ s.err.kind = .timeout) ∧ (c = 3 ↔ s.err.kind = .protocol) ∧ (c = 4 ↔ s.err.kind = .image)) ∧
    s.statusReg 3 = some [s.err.step.toNat] ∧ s.statusReg 4 = some [s.err.op.toNat] ∧
    s.statusReg 5 = some [s.err.addr.toNat] ∧ s.statusReg 6 = some [s.err.idx.toNat] ∧
    s.statusReg 7 = some [s.err.rawn.toNat] ∧
    (∃ l, s.statusReg 8 = some l ∧ l.length = 11 ∧
      ∀ k, k < 11 → l[k]? = if k < s.err.rawn.toNat then (s.err.raw[k]?).map BitVec.toNat else some 0) ∧
    ∀ n, 8 < n → s.statusReg n = none

/-- 70_reset_and_hazards.md R245, R246: block reset from any state, also in the middle of a run: the registers take their
reset values and nothing is sent. That no `Close` event is recorded, which R246 does not guarantee either way, and what block reset
leaves alone are the model's choice (log 16); so are the values of K10 to K13 and `T_BAUD`, which 10_state.md R36
leaves open (log 14). -/
def Obligations.BlockResetStopsAnyRun : Prop :=
  ∀ (s : State) (rest : List HostReq), s.host = .blockReset :: rest →
    ∃ t, step s = .next t ∧ t.pos = State.reset.pos ∧ t.busy = false ∧ t.err = State.reset.err ∧
      t.cfg = State.reset.cfg ∧ t.link = State.reset.link ∧ t.trace = s.trace ∧ t.host = rest ∧ t.img = s.img ∧
      t.shm = s.shm ∧ t.env = s.env

/-- 45_orchestrator.md R199, 70_reset_and_hazards.md R245: a block without a run does nothing, for as long as the host asks
nothing (its requests are the model's list, log 1). -/
def Obligations.IdleBlockDoesNothing : Prop :=
  ∀ (s : State) (n : Nat), s.busy = false → s.host = [] → steps n s = .next s

/-- A step runs the decoded instruction: a call whose bytes decode to a well-formed instruction, made while no run is in
progress, is that instruction's meaning at the state with the call taken off the host's list (the model's port, log 1). On an open
transport a call that would send a message outside its protocol phase is refused instead (60_exceptions.md R230; log 35). -/
def Obligations.StepRunsTheDecodedCall : Prop :=
  ∀ (s : State) (f : Format) (bs r : List Byte) (rest : List HostReq) (i : Instr),
    s.host = .call f bs :: rest → s.busy = false → decode f bs = .ok (i, r) → i.wellFormed = true →
    step s =
      if s.link.tOpen = true ∧ callInPhase i s.pos.st = false then .refused .outOfPhase
      else exec i { s with host := rest }

/-- 45_orchestrator.md R204, 60_exceptions.md R236: while a run is in progress no call is accepted, start commands included.
The rules speak of start commands and of a second user of the transport; that a call of any other operation, or of bytes that are
none, is refused too is the model's port (log 1, log 20). -/
def Obligations.CallsAreRefusedWhileBusy : Prop :=
  (∀ (s : State) (f : Format) (bs : List Byte) (rest : List HostReq),
    s.host = .call f bs :: rest → s.busy = true → step s = .refused .busy) ∧
  (∀ s : State, s.busy = true → exec .download s = .refused .busy ∧ exec .listen s = .refused .busy)

/-- 10_state.md R27: a host write of a configuration register takes effect while `BUSY` = 0 and is ignored while `BUSY` = 1;
either way nothing else changes. Each of the fifteen registers is written alone (the request is the
model's, log 1). -/
def Obligations.ConfigWritesOnlyWhileIdle : Prop :=
  (∀ (s : State) (w : CfgWrite) (rest : List HostReq), s.host = .writeReg w :: rest →
    step s = .next { s with host := rest, cfg := if s.busy then s.cfg else w.apply s.cfg }) ∧
  ∀ c : ConfigRegs,
    (∀ v, (CfgWrite.baud v).apply c = { c with baud := v } ∧ (CfgWrite.ramBase v).apply c = { c with ramBase := v } ∧
      (CfgWrite.blankCount v).apply c = { c with blankCount := v } ∧
      (CfgWrite.blankStart v).apply c = { c with blankStart := v } ∧
      (CfgWrite.imgAddr v).apply c = { c with imgAddr := v } ∧ (CfgWrite.imgLen v).apply c = { c with imgLen := v }) ∧
    (∀ v, (CfgWrite.writePage v).apply c = { c with writePage := v } ∧
      (CfgWrite.blankPage v).apply c = { c with blankPage := v } ∧ (CfgWrite.tAssert v).apply c = { c with tAssert := v } ∧
      (CfgWrite.tSettle v).apply c = { c with tSettle := v } ∧ (CfgWrite.tRead v).apply c = { c with tRead := v } ∧
      (CfgWrite.tPoll v).apply c = { c with tPoll := v } ∧ (CfgWrite.shimLen v).apply c = { c with shimLen := v }) ∧
    (∀ v, (CfgWrite.port v).apply c = { c with port := v }) ∧ (∀ v, (CfgWrite.imgErr v).apply c = { c with imgErr := v })

/-- 20_memory.md R51, R65: supplying a byte of an input memory sets that byte and no other, keeps the canonical form, and is
refused during a run (log 32); `MemRead` gives exactly the bytes supplied, and nothing while one is missing (log 15). A byte of the
image goes to `IMG` and one of the shim to `SHM`, and nothing else changes. -/
def Obligations.InputMemoriesHoldWhatIsSupplied : Prop :=
  (∀ (m : Memory) (a b : Nat) (v : Byte), Memory.wf m = true →
    Memory.wf (memSet m a v) = true ∧ memGet (memSet m a v) b = if b = a then some v else memGet m b) ∧
  (∀ (m : Memory) (a n : Nat) (l : List Byte),
    memRead m a n = some l ↔ l.length = n ∧ ∀ k, k < n → memGet m (a + k) = l[k]?) ∧
  (∀ (s : State) (off : Word) (v : Byte) (rest : List HostReq), s.host = .pokeImg off v :: rest →
    step s = if s.busy then .refused .inputsChanged else .next { s with host := rest, img := memSet s.img off.toNat v }) ∧
  (∀ (s : State) (off : Half) (v : Byte) (rest : List HostReq), s.host = .pokeShm off v :: rest →
    step s = if s.busy then .refused .inputsChanged else .next { s with host := rest, shm := memSet s.shm off.toNat v })

/-! ### Encoding -/

/-- Decoding an encoded instruction gives it back, with every operand at every value the encoding admits, whatever bytes
follow (30_encoding.md R71 to R83, R90; the operands' order is the model's, log 2). -/
def Obligations.DecodeAfterEncode : Prop :=
  ∀ (i : Instr) (r : List Byte), i.encodable = true → (i.format = .rawvar → r = []) →
    decode i.format (encode i ++ r) = .ok (i, r)

/-- No two byte strings decode alike: whatever decodes is the encoding of what it decodes to (30_encoding.md R85, R87). -/
def Obligations.EncodeAfterDecode : Prop :=
  ∀ (f : Format) (bs r : List Byte) (i : Instr), decode f bs = .ok (i, r) →
    i.format = f ∧ encode i ++ r = bs ∧ i.encodable = true

/-- The decoder rejects every reserved opcode (30_encoding.md R87) and reads eight words of the opcode table as
the instruction of a row they match. How a bare word, which other rows may match too, is presented is the model's choice (log 3). -/
def Obligations.TableWordsDecode : Prop :=
  (∀ (op : Byte) (r : List Byte), op ≠ 0x00#8 → op ≠ 0x02#8 → op ≠ 0x04#8 → op ≠ 0x07#8 →
    decode .tx (0x49#8 :: op :: r) = .error .reservedOpcode) ∧
  decodeTableWord 160 0x18FF18FF18FF18FF18FF18FF18FF18FF18FF18FF = some .handshakeMsg ∧
  decodeTableWord 80 0xC00000000000000000C0 = some .jumpMsg ∧
  decodeTableWord 72 0x49020000000000004B = some .chipEraseMsg ∧
  decodeTableWord 72 0x49000000002004006D = some (.ramInitMsg 0x20000000#32 4#16 0x6D#8) ∧
  decodeTableWord 88 0x4907000200000400000258 = some (.blankCheckMsg 0x00000200#32 512#16 0x58#8) ∧
  decodeTableWord 8 0x20 = some .handshake ∧ decodeTableWord 8 0x40 = some .chipErase ∧
  decodeTableWord 8 0x50 = some .download

/-! ### The frame codec (41_framecodec.md) -/

/-- 00_scope.md R8: `le16` and `le32` are the slices of the value from the lowest up, `u16le` and `u32le` give the value back, and
every multi-byte integer of the messages the block sends, address and length, stands on the wire so. -/
def Obligations.IntegersAreLittleEndian : Prop :=
  (∀ v : Half, (le16 v).length = 2 ∧ ∃ b0 b1 : Byte, le16 v = [b0, b1] ∧ v.toNat = b0.toNat + 256 * b1.toNat) ∧
  (∀ v : Word, (le32 v).length = 4 ∧ ∃ b0 b1 b2 b3 : Byte, le32 v = [b0, b1, b2, b3] ∧
    v.toNat = b0.toNat + 256 * b1.toNat + 65536 * b2.toNat + 16777216 * b3.toNat) ∧
  (∀ b0 b1 : Byte, (u16le b0 b1).toNat = b0.toNat + 256 * b1.toNat ∧ le16 (u16le b0 b1) = [b0, b1]) ∧
  (∀ b0 b1 b2 b3 : Byte,
    (u32le b0 b1 b2 b3).toNat = b0.toNat + 256 * b1.toNat + 65536 * b2.toNat + 16777216 * b3.toNat ∧
    le32 (u32le b0 b1 b2 b3) = [b0, b1, b2, b3]) ∧
  (∀ v : Half, le16 v = [v.extractLsb' 0 8, v.extractLsb' 8 8]) ∧
  (∀ v : Word, le32 v = [v.extractLsb' 0 8, v.extractLsb' 8 8, v.extractLsb' 16 8, v.extractLsb' 24 8]) ∧
  le32 0x20000000#32 = [0x00#8, 0x00#8, 0x00#8, 0x20#8] ∧ le16 512#16 = [0x00#8, 0x02#8] ∧
  (∀ (a : Word) (l : Half),
    ((TxMsg.ramInit a l).bytes.drop 2).take 4 = le32 a ∧ ((TxMsg.ramInit a l).bytes.drop 6).take 2 = le16 l ∧
    ((TxMsg.blankCheck a l).bytes.drop 2).take 4 = le32 a ∧ ((TxMsg.blankCheck a l).bytes.drop 8).take 2 = le16 l) ∧
  (∀ (a : Word) (data : List Byte),
    ((TxMsg.pageWrite a data).bytes.drop 2).take 4 = le32 a ∧
    ((TxMsg.pageWrite a data).bytes.drop 6).take 2 = le16 (BitVec.ofNat 16 data.length)) ∧
  (TxMsg.chipErase.bytes.drop 2).take 4 = le32 0#32 ∧ (TxMsg.chipErase.bytes.drop 6).take 2 = le16 0#16

/-- 41_framecodec.md R120, R121: `checksum8` (OPID 10) returns (at the return port, log 25), and leaves in `CSUM`, the sum of the bytes modulo 256;
`appendChecksum8` (OPID 11) returns the bytes with that sum at their end. Nothing else changes. -/
def Obligations.ChecksumIsTheSumModulo256 : Prop :=
  ∀ (bytes : List Byte) (s : State), ∃ v : Byte, v.toNat = (bytes.map BitVec.toNat).sum % 256 ∧
    exec (.checksum8 bytes) s = .next { s with wrk := { s.wrk with csum := v }, ret := .byte v } ∧
    exec (.appendChecksum8 bytes) s = .next { s with wrk := { s.wrk with csum := v }, ret := .bytes (bytes ++ [v]) } ∧
    (encode (.checksum8 bytes))[0]? = some 0x10#8 ∧ (encode (.appendChecksum8 bytes))[0]? = some 0x11#8

/-- 41_framecodec.md R122: the frame that `buildCommandFrame` returns, for any opcode byte, and the registers `OP`, `ADDR`,
`CSUM` it writes; nothing else changes. The frame stands at the return port, the model's choice (log 25). -/
def Obligations.BuildCommandFrameLaysOutTheFrame : Prop :=
  ∀ (opcode : Byte) (address : Word) (extra payload : List Byte) (s : State),
    ∃ (b0 b1 b2 b3 ck : Byte) (t : State),
      exec (.buildCommandFrame opcode address extra payload) s = .next t ∧
      address.toNat = b0.toNat + 256 * b1.toNat + 65536 * b2.toNat + 16777216 * b3.toNat ∧
      ck.toNat = (0x49 + opcode.toNat + b0.toNat + b1.toNat + b2.toNat + b3.toNat
        + (extra.map BitVec.toNat).sum + (payload.map BitVec.toNat).sum) % 256 ∧
      t = { s with
        wrk := { s.wrk with op := opcode, addr := address, csum := ck }
        ret := .bytes ([0x49#8, opcode, b0, b1, b2, b3] ++ extra ++ payload ++ [ck]) }

/-- 41_framecodec.md R123, R125, R126, R127: the pattern (OPID 13) and the three detectors (OPID 15, 16, 17) return their value
(at the return port, log 25) and change nothing else. -/
def Obligations.PatternAndDetectorsReturnTheirValue : Prop :=
  (∀ s : State, ∃ p, exec .handshakePattern s = .next { s with ret := .bytes p } ∧ p.length = 20 ∧
    ∀ k, k < 20 → p[k]? = some (if k % 2 = 0 then 0x18#8 else 0xFF#8)) ∧
  (∀ (b : Byte) (s : State), exec (.isSync b) s = .next { s with ret := .bool (decide (b = 0x49#8)) }) ∧
  (∀ (b : Byte) (s : State), exec (.isHandshakeAck b) s = .next { s with ret := .bool (decide (b = 0x11#8)) }) ∧
  (∀ (b : Byte) (s : State), exec (.isAck b) s = .next { s with ret := .bool (decide (b = 0x01#8)) }) ∧
  encode .handshakePattern = [0x13#8] ∧
  ∀ b : Byte, (encode (.isSync b))[0]? = some 0x15#8 ∧ (encode (.isHandshakeAck b))[0]? = some 0x16#8 ∧
    (encode (.isAck b))[0]? = some 0x17#8

/-- 41_framecodec.md R124, 60_exceptions.md R218, R226: `validateResponseFrame` accepts exactly the frames of the expected
length that begin with 49 and end with the sum of the bytes before; it then returns (at the return port, log 25), and else
nothing but `CSUM` changes. Any other bytes raise ProtocolError, carrying them (as many as ERR_RAW holds, log 12), here outside
a run (log 6). No `writePage` or `blankCheckSegment` failed, so `ERR_ADDR` is 0 (10_state.md R26). -/
def Obligations.ValidateAcceptsExactlyTheFrames : Prop :=
  (∀ (bytes : List Byte) (n : Nat), validFrame bytes n = true ↔
    bytes.length = n ∧ bytes[0]? = some 0x49#8 ∧
      ∃ v : Byte, bytes[n - 1]? = some v ∧ v.toNat = ((bytes.take (n - 1)).map BitVec.toNat).sum % 256) ∧
  (∀ (bytes : List Byte) (n : Word) (s : State), validFrame bytes n.toNat = true →
    exec (.validateResponseFrame bytes n) s =
      .next { s with wrk := { s.wrk with csum := sum8 (bytes.take (n.toNat - 1)) }, ret := .unit }) ∧
  (∀ (bytes : List Byte) (n : Word) (s : State), validFrame bytes n.toNat = false → s.busy = false →
    ∃ t, exec (.validateResponseFrame bytes n) s = .next t ∧ t.pos = { s.pos with st := .failed } ∧
      t.err.kind = .protocol ∧ t.err.addr = 0#32 ∧ t.err.idx = s.pos.idx ∧
      (bytes.length ≤ 11 → t.err.raw = bytes ∧ t.err.rawn.toNat = bytes.length) ∧
      t.wrk = (if bytes.length = n.toNat ∧ bytes[0]? = some 0x49#8
        then { s.wrk with csum := sum8 (bytes.take (n.toNat - 1)) } else s.wrk) ∧
      t.link = s.link ∧ t.trace = s.trace ∧ t.ret = s.ret ∧ t.rx = s.rx ∧ t.env = s.env ∧ t.run = s.run ∧ sameInputs s t)

/-- 41_framecodec.md R128: the round trip, and the detection of every change of a single byte. -/
def Obligations.FramesRoundTripAndSingleByteChangesAreDetected : Prop :=
  (∀ (opcode : Byte) (address : Word) (extra payload : List Byte),
    let f := commandFrame opcode address extra payload
    validFrame f f.length = true ∧
      ∀ (k : Nat) (v : Byte), k < f.length → f[k]? ≠ some v → validFrame (f.set k v) f.length = false) ∧
  (∀ b : List Byte, b ≠ [] →
    (b[0]? = some 0x49#8 →
      validFrame (appendSum8 b) (b.length + 1) = true ∧
        ∀ (k : Nat) (v : Byte), k ≤ b.length → (appendSum8 b)[k]? ≠ some v →
          validFrame ((appendSum8 b).set k v) (b.length + 1) = false) ∧
    (b[0]? ≠ some 0x49#8 → validFrame (appendSum8 b) (b.length + 1) = false))

/-- 41_framecodec.md R129, R130: the sum of a concatenation, its invariance under permutation, the sum of one byte, and that
the trailer does not make the total zero. -/
def Obligations.ChecksumLaws : Prop :=
  (∀ a b : List Byte, (sum8 (a ++ b)).toNat = ((sum8 a).toNat + (sum8 b).toNat) % 256) ∧
  (∀ a b : List Byte, a.Perm b → sum8 a = sum8 b) ∧
  (∀ v : Byte, sum8 [v] = v) ∧ sum8 [] = 0#8 ∧
  (∀ b : List Byte, (sum8 (appendSum8 b)).toNat = (2 * (sum8 b).toNat) % 256)

/-! ### The wire messages (30_encoding.md) -/

/-- 30_encoding.md R74, R75, R78: the three constant messages. On an open transport the block transmits exactly these bytes;
CHIP_ERASE leaves its fields in the working registers, and nothing else of the block changes (the environment has its turn
first, log 9). That is the operation wherever `ST` stands; a call out of phase does not reach it (log 35). -/
def Obligations.ConstantMessagesAreTransmitted : Prop :=
  ∀ s : State, s.link.tOpen = true →
    let e := envTurn s
    exec .handshakeMsg s = .next { e with
      link := { e.link with txq := [] }
      trace := s.trace ++ ((List.replicate 10 [0x18#8, 0xFF#8]).flatten).map TraceEvent.tx } ∧
    exec .jumpMsg s = .next { e with
      link := { e.link with txq := [] }
      trace := s.trace ++ [0xC0#8, 0#8, 0#8, 0#8, 0#8, 0#8, 0#8, 0#8, 0#8, 0xC0#8].map TraceEvent.tx } ∧
    exec .chipEraseMsg s = .next { e with
      wrk := { s.wrk with op := 0x02#8, addr := 0#32, len := 0#16, csum := 0x4B#8 }
      link := { e.link with txq := [] }
      trace := s.trace ++ [0x49#8, 0x02#8, 0#8, 0#8, 0#8, 0#8, 0#8, 0#8, 0x4B#8].map TraceEvent.tx }

/-- 30_encoding.md R72, R73, R76, R77, R84: the messages with fields. With the checksum the rule gives, the block transmits the
message in the layout of its rule; with another, it refuses it (log 24). That is the operation wherever `ST` stands; a call out
of phase does not reach it (log 35). -/
def Obligations.FieldMessagesAreTransmitted : Prop :=
  ∀ s : State, s.link.tOpen = true →
    let e := envTurn s
    let sent := fun (w : WorkRegs) (bs : List Byte) => Host.Outcome.next (φ := Fault) (ρ := Refusal)
      { e with wrk := w, link := { e.link with txq := [] }, trace := s.trace ++ bs.map TraceEvent.tx }
    (∀ (a : Word) (l : Half) (ck : Byte),
      let body := [0x49#8, 0x00#8] ++ le32 a ++ le16 l
      exec (.ramInitMsg a l ck) s =
        if ck = sum8 body then sent { s.wrk with op := 0x00#8, addr := a, len := l, csum := ck } (body ++ [ck])
        else .refused .frameChecksum) ∧
    (∀ (data : List Byte) (ck : Byte), data.length ≤ 65535 →
      exec (.shimDataMsg data ck) s =
        if ck = sum8 data then sent { s.wrk with csum := ck } (data ++ [ck]) else .refused .frameChecksum) ∧
    (∀ (a : Word) (data : List Byte) (ck : Byte), data.length ≤ 65535 →
      let n := BitVec.ofNat 16 data.length
      let body := [0x49#8, 0x04#8] ++ le32 a ++ le16 n ++ data
      exec (.pageWriteMsg a data ck) s =
        if ck = sum8 body then sent { s.wrk with op := 0x04#8, addr := a, len := n, csum := ck } (body ++ [ck])
        else .refused .frameChecksum) ∧
    (∀ (a : Word) (l : Half) (ck : Byte),
      let body := [0x49#8, 0x07#8] ++ le32 a ++ [0x04#8, 0x00#8] ++ le16 l
      exec (.blankCheckMsg a l ck) s =
        if ck = sum8 body then sent { s.wrk with op := 0x07#8, addr := a, len := l, csum := ck } (body ++ [ck])
        else .refused .frameChecksum)

/-- 30_encoding.md R79 to R83: a response that arrives on an open transport with nothing queued and a silent environment is
read whole, and accepted when it has its shape (a banner always; RESP9 and RESP10 with a good checksum). That the message
arrives and is read at once is the model's reading of a received message (log 23). -/
def Obligations.ResponsesOfTheirShapeAreAccepted : Prop :=
  ∀ s : State, s.link.tOpen = true → s.link.rxq = [] → s.env.script = [] →
    let got := fun (w : WorkRegs) (bs : List Byte) => Host.Outcome.next (φ := Fault) (ρ := Refusal)
      { s with
        wrk := w
        rx := { rxb := bs, rxn := BitVec.ofNat 4 bs.length }
        trace := s.trace ++ [TraceEvent.readOk bs.length s.cfg.tRead.toNat bs] }
    exec .hsAckMsg s = got s.wrk [0x11#8] ∧
    exec .ackMsg s = got s.wrk [0x01#8] ∧
    (∀ b0 b1 b2 b3 b4 b5 b6 b7 b8 b9 b10 : Byte,
      exec (.jumpBannerMsg b0 b1 b2 b3 b4 b5 b6 b7 b8 b9 b10) s = got s.wrk [b0, b1, b2, b3, b4, b5, b6, b7, b8, b9, b10]) ∧
    (∀ e1 e2 e3 e4 e5 e6 e7 : Byte,
      let body := [0x49#8, e1, e2, e3, e4, e5, e6, e7]
      exec (.resp9Msg e1 e2 e3 e4 e5 e6 e7 (sum8 body)) s =
        got { s.wrk with csum := sum8 body } (body ++ [sum8 body])) ∧
    (∀ e1 e2 e3 e4 e5 u8 : Byte,
      let body := [0x49#8, e1, e2, e3, e4, e5, 0x01#8, 0x00#8, u8]
      exec (.resp10Msg e1 e2 e3 e4 e5 u8 (sum8 body)) s =
        got { s.wrk with csum := sum8 body } (body ++ [sum8 body]))

/-- 30_encoding.md R82, R83, R88: a RESP9 or RESP10 whose last byte is not the sum of the others is rejected: ProtocolError
with the whole response recorded, here outside a run (log 6). Which operation a RESP9 answers, the position says (log 7);
no `writePage` or `blankCheckSegment` failed, so the address is 0 (10_state.md R26). -/
def Obligations.ResponsesWithABadChecksumAreRejected : Prop :=
  ∀ s : State, s.link.tOpen = true → s.link.rxq = [] → s.env.script = [] → s.busy = false →
    let rejected := fun (csum : Byte) (bs : List Byte) (step op : Byte) =>
      Host.Outcome.next (φ := Fault) (ρ := Refusal)
        { s with
          pos := { s.pos with st := .failed }
          wrk := { s.wrk with csum := csum }
          rx := { rxb := bs, rxn := BitVec.ofNat 4 bs.length }
          err :=
            { kind := .protocol, step := step, op := op, addr := 0#32, idx := s.pos.idx, rawn := BitVec.ofNat 4 bs.length, raw := bs }
          trace := s.trace ++ [TraceEvent.readOk bs.length s.cfg.tRead.toNat bs] }
    (∀ e1 e2 e3 e4 e5 e6 e7 ck : Byte,
      let body := [0x49#8, e1, e2, e3, e4, e5, e6, e7]
      ck ≠ sum8 body → exec (.resp9Msg e1 e2 e3 e4 e5 e6 e7 ck) s =
        if s.pos.st = .verified then rejected (sum8 body) (body ++ [ck]) 0x42#8 0x41#8
        else rejected (sum8 body) (body ++ [ck]) 0x40#8 0x40#8) ∧
    (∀ e1 e2 e3 e4 e5 u8 ck : Byte,
      let body := [0x49#8, e1, e2, e3, e4, e5, 0x01#8, 0x00#8, u8]
      ck ≠ sum8 body → exec (.resp10Msg e1 e2 e3 e4 e5 u8 ck) s =
        rejected (sum8 body) (body ++ [ck]) 0x44#8 0x43#8)

/-- 44_flashprogrammer.md R175: the blank verdict, exactly. -/
def Obligations.BlankVerdictIsTheFourTests : Prop :=
  ∀ r0 r1 r2 r3 r4 r5 r6 r7 r8 r9 : Byte,
    RxShape.resp10.accepts [r0, r1, r2, r3, r4, r5, r6, r7, r8, r9] = true ↔
      r0 = 0x49#8 ∧ r9 = sum8 [r0, r1, r2, r3, r4, r5, r6, r7, r8] ∧ r6 = 0x01#8 ∧ r7 = 0x00#8

/-! ### The transport primitives (40_transport.md) -/

/-- 40_transport.md R101, 60_exceptions.md R216: `open` answered by the environment. It closes an open transport first; on
success the transport is open at the rate, its queues empty and the reset line undriven; on refusal it raises IOError and the
transport is closed. As step 1 it leads from `Closed` to `Initialized` (log 5). The answers are a list in
State (log 10). -/
def Obligations.OpenFollowsTheEnvironmentsAnswer : Prop :=
  ∀ (s : State) (port : List Byte) (baud : Word) (ok : Bool) (more : List Bool), s.env.opens = ok :: more →
    ∃ t, exec (.openPort port baud) s = .next t ∧
      t.trace = s.trace ++ (if s.link.tOpen then [TraceEvent.closed] else []) ++ [TraceEvent.opened port baud ok] ∧
      t.env = { (envTurn s).env with opens := more } ∧ t.wrk = s.wrk ∧ t.rx = s.rx ∧ t.ret = s.ret ∧ sameInputs s t ∧
      t.pos.ph = 0#4 ∧ t.pos.idx = 0#32 ∧
      (ok = true → t.link = { tOpen := true, tBaud := baud, rxq := [], txq := [], rst := .undriven } ∧
        t.err = s.err ∧ t.run = s.run ∧ t.pos.st = if s.pos.st = .closed then .initialized else s.pos.st) ∧
      (ok = false → t.link.tOpen = false ∧
        t.link = (if s.link.tOpen then { s.link with tOpen := false, rxq := [], txq := [], rst := .undriven } else s.link) ∧
        t.pos.st = .failed ∧ t.run = none ∧
        t.err = { kind := .io, step := 0x01#8, op := 0x01#8, addr := 0#32, idx := 0#32, rawn := 0#4, raw := [] })

/-- 40_transport.md R102: `close` is idempotent: on an open transport one `Close` event, after which the queues are empty and
the reset line undriven; on a closed one no effect at all, so a second `close` changes nothing. As step 8 it leads from `Reset` to
`Done` and ends the run (45_orchestrator.md R193; called alone: log 5). -/
def Obligations.CloseIsIdempotent : Prop :=
  (∀ s : State, s.link.tOpen = false → exec .closePort s = .next s) ∧
  ∀ s : State, s.link.tOpen = true → ∃ t, exec .closePort s = .next t ∧ exec .closePort t = .next t ∧
    t.trace = s.trace ++ [TraceEvent.closed] ∧
    t.link = { tOpen := false, tBaud := s.link.tBaud, rxq := [], txq := [], rst := .undriven } ∧
    t.env = (envTurn s).env ∧ t.wrk = s.wrk ∧ t.err = s.err ∧ t.rx = s.rx ∧ t.ret = s.ret ∧ sameInputs s t ∧
    t.pos = { st := if s.pos.st = .reset then .done else s.pos.st, ph := 0#4, idx := 0#32 } ∧
    t.run = (if s.pos.st = .reset ∧ s.run = some .download then none else s.run)

/-- 40_transport.md R103, R104, R105, 20_memory.md R62: the effect of the line, discard and write primitives on an open
transport, and their frames (the environment has its turn first, log 9). -/
def Obligations.LineDiscardAndWriteEffects : Prop :=
  ∀ s : State, s.link.tOpen = true →
    let e := envTurn s
    (∀ a : Bool, exec (.setResetLine a) s = .next { e with
      link := { e.link with rst := if a then .asserted else .deasserted }, trace := s.trace ++ [TraceEvent.setReset a] }) ∧
    exec .discardBuffers s = .next { e with
      link := { e.link with rxq := [], txq := [] }, trace := s.trace ++ [TraceEvent.discarded] } ∧
    (∀ data : List Byte, exec (.writeBytes data) s = .next { e with
      link := { e.link with txq := [] }, trace := s.trace ++ data.map TraceEvent.tx })

/-- 40_transport.md R109, 10_state.md R30: the environment's turn lets its time pass and puts its bytes at the tail of `RXQ`
of an open transport, and touches nothing else. -/
def Obligations.EnvironmentTouchesOnlyTimeAndQueue : Prop :=
  ∀ s : State,
    (s.env.script = [] → envTurn s = s) ∧
    (∀ (t : Turn) (r : List Turn), s.env.script = t :: r →
      envTurn s = { s with
        env := { s.env with now := s.env.now + t.elapse, script := r }
        link := { s.link with rxq := if s.link.tOpen then s.link.rxq ++ t.arrive else s.link.rxq } })

/-- 40_transport.md R106: a wait is a lower bound on time; it needs no open transport, and only time, arrivals and the trace
move: what arrives is what the turns that passed deliver (log 9). -/
def Obligations.WaitLastsAtLeastItsTime : Prop :=
  ∀ (s : State) (ms : Word), ∃ t, exec (.wait ms) s = .next t ∧
    (envTurn s).env.now + ms.toNat ≤ t.env.now ∧ t.env.opens = s.env.opens ∧
    (∃ used, s.env.script = used ++ t.env.script ∧ t.link = { s.link with
      rxq := s.link.rxq ++ if s.link.tOpen then (used.map Turn.arrive).flatten else [] }) ∧
    t.trace = s.trace ++ [.waited ms.toNat] ∧ t.pos = s.pos ∧ t.run = s.run ∧ t.wrk = s.wrk ∧ t.err = s.err ∧
    t.rx = s.rx ∧ t.ret = s.ret ∧ sameInputs s t

/-- 40_transport.md R107: `readExact` when its bytes are queued when it begins: it takes exactly the oldest `count`, leaves the
rest queued, and waits no time. `RXB` then holds them, where they fit its eleven bytes (log 12), and so
does the return port (log 25). -/
def Obligations.ReadTakesTheOldestBytes : Prop :=
  ∀ (s : State) (count timeout : Word), s.link.tOpen = true → count.toNat ≤ (envTurn s).link.rxq.length →
    let e := envTurn s
    let b := e.link.rxq.take count.toNat
    ∃ rx, exec (.readExact count timeout) s = .next { e with
        link := { e.link with rxq := e.link.rxq.drop count.toNat }
        rx := rx
        trace := s.trace ++ [TraceEvent.readOk count.toNat timeout.toNat b]
        ret := .bytes b } ∧
      (count.toNat ≤ 11 → rx = { rxb := b, rxn := BitVec.ofNat 4 count.toNat })

/-- 40_transport.md R107, R108: on an open transport `readExact` ends in one of two ways: it returns exactly `count` bytes, the
oldest received, or it raises TimeoutError with all the bytes there are, fewer than `count`, no earlier than its deadline; here
outside a run (log 6), where a timeout does not close the transport. What arrived is what the turns consumed delivered (log 9).
The buffers hold the bytes where they fit (log 12), and a successful read leaves them at the return port (log 25). No
`writePage` or `blankCheckSegment` failed, so `ERR_ADDR` is 0 (10_state.md R26). -/
def Obligations.ReadReturnsExactlyOrTimesOut : Prop :=
  ∀ (s : State) (count timeout : Word), s.link.tOpen = true → s.busy = false →
    ∃ t, exec (.readExact count timeout) s = .next t ∧ sameInputs s t ∧ t.wrk = s.wrk ∧ t.env.opens = s.env.opens ∧
      t.run = s.run ∧ ∃ used, s.env.script = used ++ t.env.script ∧
      let arrived := (used.map Turn.arrive).flatten
      ((∃ b more, b.length = count.toNat ∧ s.link.rxq ++ arrived = b ++ more ∧ t.link = { s.link with rxq := more } ∧
          t.ret = .bytes b ∧ (b.length ≤ 11 → t.rx = { rxb := b, rxn := BitVec.ofNat 4 b.length }) ∧ t.pos = s.pos ∧
          t.err = s.err ∧ t.trace = s.trace ++ [TraceEvent.readOk count.toNat timeout.toNat b]) ∨
       (∃ p, p.length < count.toNat ∧ s.link.rxq ++ arrived = p ∧ t.link = { s.link with rxq := [] } ∧
          (envTurn s).env.now + timeout.toNat ≤ t.env.now ∧ t.ret = s.ret ∧
          (p.length ≤ 11 → t.rx = { rxb := p, rxn := BitVec.ofNat 4 p.length }) ∧ t.pos = { s.pos with st := .failed } ∧
          t.err.kind = .timeout ∧ t.err.addr = 0#32 ∧ t.err.idx = s.pos.idx ∧ (p.length ≤ 11 → t.err.raw = p ∧ t.err.rawn.toNat = p.length) ∧
          t.trace = s.trace ++ [.readTimeout count.toNat timeout.toNat p]))

/-- 40_transport.md R108: a read whose bytes have arrived by its deadline succeeds, one whose bytes never arrive times out;
in between the environment decides. -/
def Obligations.ReadVerdictAtTheDeadline : Prop :=
  ∀ (s : State) (count timeout : Nat), s.link.tOpen = true →
    let e := envTurn s
    (count ≤ (e.link.rxq ++ arrivedBy timeout e.env.script).length → (readVerdict count timeout s).2 = true) ∧
    ((e.link.rxq ++ (e.env.script.map Turn.arrive).flatten).length < count → (readVerdict count timeout s).2 = false)

/-- 40_transport.md R100, 60_exceptions.md R236: on a closed transport every operation and message that acts on the link, but
`open`, `close` and `wait`, is refused and gives no step (`writeImage` of no bytes and `blankCheck` of no segment perform no event and
are not); operands outside the range of an operation are refused in every state (43_shimloader.md R151, 44_flashprogrammer.md R168,
R171, R176, 30_encoding.md R84). The names of the refusals are the model's (log 20, log 24). -/
def Obligations.RefusedOperationsHaveNoStep : Prop :=
  (∀ s : State,
    (∀ (shim : List Byte) (base : Word) (ck : Byte), 65535 < shim.length →
      exec (.loadAndRun shim base) s = .refused .shimTooLong ∧ exec (.shimData shim) s = .refused .shimTooLong ∧
      exec (.shimDataMsg shim ck) s = .refused .shimTooLong) ∧
    (∀ (a : Word) (data : List Byte) (ck : Byte), 65535 < data.length →
      exec (.writePage a data) s = .refused .pageTooLong ∧ exec (.pageWriteMsg a data ck) s = .refused .pageTooLong) ∧
    (∀ (a : Word) (bytes : List Byte) (p : Half), p = 0#16 ∨ 2 ^ 32 < a.toNat + bytes.length →
      exec (.writeImage a bytes p) s = .refused .rangePrecondition) ∧
    (∀ (a : Word) (p : Half) (n : Word), p = 0#16 ∨ 2 ^ 32 < a.toNat + n.toNat * p.toNat →
      exec (.blankCheck a p n) s = .refused .rangePrecondition)) ∧
  ∀ s : State, s.link.tOpen = false →
    (∀ a, exec (.setResetLine a) s = .refused .transportClosed) ∧
    exec .discardBuffers s = .refused .transportClosed ∧
    (∀ data, exec (.writeBytes data) s = .refused .transportClosed) ∧
    (∀ n t, exec (.readExact n t) s = .refused .transportClosed) ∧
    exec .handshake s = .refused .transportClosed ∧ exec .resetPulse s = .refused .transportClosed ∧
    (∀ shim base, shim.length ≤ 65535 → exec (.loadAndRun shim base) s = .refused .transportClosed) ∧
    (∀ b l, exec (.ramInit b l) s = .refused .transportClosed) ∧
    (∀ shim, shim.length ≤ 65535 → exec (.shimData shim) s = .refused .transportClosed) ∧
    exec .jump s = .refused .transportClosed ∧ exec .chipErase s = .refused .transportClosed ∧
    (∀ a data, data.length ≤ 65535 → exec (.writePage a data) s = .refused .transportClosed) ∧
    (∀ (a : Word) (bytes : List Byte) (p : Half), bytes ≠ [] → bytes.length < 2 ^ 32 → p ≠ 0#16 →
      a.toNat + bytes.length ≤ 2 ^ 32 → exec (.writeImage a bytes p) s = .refused .transportClosed) ∧
    (∀ a l, exec (.blankCheckSegment a l) s = .refused .transportClosed) ∧
    (∀ (a : Word) (p : Half) (n : Word), n ≠ 0#32 → p ≠ 0#16 → a.toNat + n.toNat * p.toNat ≤ 2 ^ 32 →
      exec (.blankCheck a p n) s = .refused .transportClosed) ∧
    exec .handshakeMsg s = .refused .transportClosed ∧ exec .jumpMsg s = .refused .transportClosed ∧
    exec .chipEraseMsg s = .refused .transportClosed ∧
    (∀ (a : Word) (l : Half) (ck : Byte), exec (.ramInitMsg a l ck) s =
      .refused (if ck = sum8 ([0x49#8, 0x00#8] ++ le32 a ++ le16 l) then .transportClosed else .frameChecksum)) ∧
    (∀ (data : List Byte) (ck : Byte), data.length ≤ 65535 → exec (.shimDataMsg data ck) s =
      .refused (if ck = sum8 data then .transportClosed else .frameChecksum)) ∧
    (∀ (a : Word) (data : List Byte) (ck : Byte), data.length ≤ 65535 → exec (.pageWriteMsg a data ck) s =
      .refused (if ck = sum8 ([0x49#8, 0x04#8] ++ le32 a ++ le16 (BitVec.ofNat 16 data.length) ++ data)
        then .transportClosed else .frameChecksum)) ∧
    (∀ (a : Word) (l : Half) (ck : Byte), exec (.blankCheckMsg a l ck) s =
      .refused (if ck = sum8 ([0x49#8, 0x07#8] ++ le32 a ++ [0x04#8, 0x00#8] ++ le16 l)
        then .transportClosed else .frameChecksum)) ∧
    exec .hsAckMsg s = .refused .transportClosed ∧ exec .ackMsg s = .refused .transportClosed ∧
    (∀ b0 b1 b2 b3 b4 b5 b6 b7 b8 b9 b10 : Byte,
      exec (.jumpBannerMsg b0 b1 b2 b3 b4 b5 b6 b7 b8 b9 b10) s = .refused .transportClosed) ∧
    (∀ e1 e2 e3 e4 e5 e6 e7 ck : Byte, exec (.resp9Msg e1 e2 e3 e4 e5 e6 e7 ck) s = .refused .transportClosed) ∧
    (∀ e1 e2 e3 e4 e5 u8 ck : Byte, exec (.resp10Msg e1 e2 e3 e4 e5 u8 ck) s = .refused .transportClosed)

/-! ### The sequencers' operations -/

/-- 42_handshake.md R141, R142: `resetPulse` on an open transport cannot fail, whatever the environment does; it transmits the
whole pattern between asserting and releasing the line, waits both times, and leaves the line deasserted (the position after a
single call: log 5). That is the operation wherever `ST` stands; a call out of phase does not reach it (log 35). -/
def Obligations.ResetPulseCannotFail : Prop :=
  ∀ s : State, s.link.tOpen = true → ∃ t, exec .resetPulse s = .next t ∧
    t.trace = s.trace ++ [TraceEvent.setReset true, .waited s.cfg.tAssert.toNat, .discarded]
      ++ ((List.replicate 10 [0x18#8, 0xFF#8]).flatten).map TraceEvent.tx ++ [TraceEvent.setReset false, .waited s.cfg.tSettle.toNat] ∧
    s.env.now + s.cfg.tAssert.toNat + s.cfg.tSettle.toNat ≤ t.env.now ∧
    t.link.tOpen = true ∧ t.link.rst = .deasserted ∧ t.link.txq = [] ∧ t.link.tBaud = s.link.tBaud ∧
    t.run = s.run ∧ t.wrk = s.wrk ∧ t.err = s.err ∧ t.rx = s.rx ∧ t.ret = s.ret ∧ sameInputs s t ∧
    t.pos.ph = 0#4 ∧ t.pos.idx = 0#32 ∧
    t.pos.st = (if s.run = some .listen then (if s.pos.st = .initialized then .reset else s.pos.st)
      else if s.pos.st = .programmed then .reset else s.pos.st)

/-- 42_handshake.md R140: `handshake` when the device answers 11: the eight events in order, and `Initialized` to `Synced` (log
5). That is the operation wherever `ST` stands; a call out of phase does not reach it (log 35). -/
def Obligations.HandshakeCompletes : Prop :=
  ∀ (s : State) (ans : RxShape → List Byte) (rest : List Turn), s.link.tOpen = true → goodAnswers ans →
    s.env.script = scriptOf ans (handshakeEvents s.cfg) ++ rest →
    ∃ t, exec .handshake s = .next t ∧
      t.trace = s.trace ++ [TraceEvent.setReset true, .waited s.cfg.tAssert.toNat, .discarded]
        ++ ((List.replicate 10 [0x18#8, 0xFF#8]).flatten).map TraceEvent.tx
        ++ [TraceEvent.setReset false, .waited s.cfg.tSettle.toNat, .readOk 1 s.cfg.tRead.toNat [0x11#8], .discarded] ∧
      t.link = { s.link with rxq := [], txq := [], rst := .deasserted } ∧ t.env.script = rest ∧
      t.rx = { rxb := [0x11#8], rxn := 1#4 } ∧ t.run = s.run ∧ t.wrk = s.wrk ∧ t.err = s.err ∧ t.ret = s.ret ∧
      sameInputs s t ∧
      t.pos = { st := if s.pos.st = .initialized then .synced else s.pos.st, ph := 0#4, idx := 0#32 }

/-- 42_handshake.md R140, 60_exceptions.md R217, R218: a handshake whose answer is another byte, or that gets none, fails: the
last `Discard` is not performed, the error carries the byte or nothing, and `PH` is 6 and `IDX` 0 (log 5; here outside a run,
log 6: the transport stays as it is). That is the operation wherever `ST` stands; a call out of phase does not reach it (log
35). -/
def Obligations.HandshakeFailsWithoutTheAck : Prop :=
  ∀ (s : State) (b : Byte), s.link.tOpen = true → s.busy = false →
    let failed := fun (kind : ErrKind) (raw : List Byte) (t : State) =>
      t.pos = { st := .failed, ph := 6#4, idx := 0#32 } ∧
      t.err = { kind := kind, step := 0x20#8, op := 0x20#8, addr := 0#32, idx := 0#32, rawn := BitVec.ofNat 4 raw.length, raw := raw } ∧
      t.rx = { rxb := raw, rxn := BitVec.ofNat 4 raw.length } ∧
      t.link = { s.link with rxq := [], txq := [], rst := .deasserted } ∧ t.run = s.run ∧ t.wrk = s.wrk ∧ t.ret = s.ret ∧
      sameInputs s t
    (b ≠ 0x11#8 → s.env.script = scriptOf (fun _ => [b]) (resetPulseEvents s.cfg ++ [.recv .hsAck]) →
      ∃ t, exec .handshake s = .next t ∧ failed .protocol [b] t ∧
        t.trace = s.trace ++ traceOf (fun _ => [b]) s.cfg.tRead.toNat (resetPulseEvents s.cfg ++ [.recv .hsAck])) ∧
    (s.env.script = scriptOf (fun _ => []) (resetPulseEvents s.cfg) →
      ∃ t, exec .handshake s = .next t ∧ failed .timeout [] t ∧
        t.trace = s.trace ++ traceOf (fun _ => []) s.cfg.tRead.toNat (resetPulseEvents s.cfg)
          ++ [.readTimeout 1 s.cfg.tRead.toNat []])

/-- 43_shimloader.md R152, R153, R154: the three exchanges of the shim loader, each acknowledged; the banner may be any eleven
bytes. That `PH` and `IDX` are 0 after such a single call is the model's (log 5). That is the operation wherever `ST` stands; a
call out of phase does not reach it (log 35). -/
def Obligations.ShimExchangesComplete : Prop :=
  ∀ (s : State) (ans : RxShape → List Byte) (rest : List Turn), s.link.tOpen = true → s.link.rxq = [] → goodAnswers ans →
    let after := fun (es : List Ev) (t : State) =>
      t.trace = s.trace ++ traceOf ans s.cfg.tRead.toNat es ∧ t.env.script = rest ∧
      t.link = { s.link with rxq := [], txq := [] } ∧ t.run = s.run ∧ t.err = s.err ∧ t.ret = s.ret ∧ sameInputs s t ∧
      t.pos = { s.pos with ph := 0#4, idx := 0#32 }
    (∀ (base : Word) (len : Half), s.env.script = scriptOf ans (ramInitEvents base len) ++ rest →
      ∃ t, exec (.ramInit base len) s = .next t ∧ after (ramInitEvents base len) t ∧
        t.rx = { rxb := [0x01#8], rxn := 1#4 } ∧
        t.wrk = { s.wrk with
          op := 0x00#8, addr := base, len := len, csum := sum8 ([0x49#8, 0x00#8] ++ le32 base ++ le16 len) }) ∧
    (∀ shim : List Byte, shim.length ≤ 65535 → s.env.script = scriptOf ans (shimDataEvents shim) ++ rest →
      ∃ t, exec (.shimData shim) s = .next t ∧ after (shimDataEvents shim) t ∧
        t.rx = { rxb := [0x01#8], rxn := 1#4 } ∧ t.wrk = { s.wrk with csum := sum8 shim }) ∧
    (s.env.script = scriptOf ans jumpEvents ++ rest →
      ∃ t, exec .jump s = .next t ∧ after jumpEvents t ∧ t.rx = { rxb := ans .banner, rxn := 11#4 } ∧ t.wrk = s.wrk)

/-- 43_shimloader.md R150: `loadAndRun` performs RAM_INIT, SHIM_DATA and JUMP in that order, with no `Discard`, and leads from
`Synced` to `ShimActive` (log 5, log 8). That is the operation wherever `ST` stands; a call out of phase does not reach it (log
35). -/
def Obligations.LoadAndRunCompletes : Prop :=
  ∀ (s : State) (ans : RxShape → List Byte) (rest : List Turn) (shim : List Byte) (base : Word),
    s.link.tOpen = true → s.link.rxq = [] → goodAnswers ans → shim.length ≤ 65535 →
    s.env.script = scriptOf ans (loadEvents shim base) ++ rest →
    ∃ t, exec (.loadAndRun shim base) s = .next t ∧
      t.trace = s.trace
        ++ ([0x49#8, 0x00#8] ++ le32 base ++ le16 (BitVec.ofNat 16 shim.length)
            ++ [sum8 ([0x49#8, 0x00#8] ++ le32 base ++ le16 (BitVec.ofNat 16 shim.length))]).map TraceEvent.tx
        ++ [TraceEvent.readOk 1 s.cfg.tRead.toNat [0x01#8]] ++ (shim ++ [sum8 shim]).map TraceEvent.tx
        ++ [TraceEvent.readOk 1 s.cfg.tRead.toNat [0x01#8]]
        ++ [0xC0#8, 0#8, 0#8, 0#8, 0#8, 0#8, 0#8, 0#8, 0#8, 0xC0#8].map TraceEvent.tx
        ++ [TraceEvent.readOk 11 s.cfg.tRead.toNat (ans .banner)] ∧
      t.env.script = rest ∧ t.link = { s.link with rxq := [], txq := [] } ∧ t.run = s.run ∧ t.err = s.err ∧
      t.ret = s.ret ∧ sameInputs s t ∧
      t.wrk = { s.wrk with op := 0x00#8, addr := base, len := BitVec.ofNat 16 shim.length, csum := sum8 shim } ∧
      t.pos = { st := if s.pos.st = .synced then .shimActive else s.pos.st, ph := 0#4, idx := 0#32 }

/-- 44_flashprogrammer.md R165, R167, R168, R174: the three flash exchanges: a `Discard` directly before the request, the
request, the response, accepted. `CSUM` is left as the sum of the response before its last byte (41_framecodec.md R120, R124).
The position after a single call is the model's (log 5). That is the operation wherever `ST` stands; a call out of phase does
not reach it (log 35). -/
def Obligations.FlashExchangesComplete : Prop :=
  ∀ (s : State) (ans : RxShape → List Byte) (rest : List Turn), s.link.tOpen = true → goodAnswers ans →
    let after := fun (es : List Ev) (r : List Byte) (op : Byte) (a : Word) (l : Half) (t : State) =>
      t.trace = s.trace ++ traceOf ans s.cfg.tRead.toNat es ∧ t.env.script = rest ∧
      t.link = { s.link with rxq := [], txq := [] } ∧ t.rx = { rxb := r, rxn := BitVec.ofNat 4 r.length } ∧
      t.wrk = { s.wrk with op := op, addr := a, len := l, csum := sum8 r.dropLast } ∧
      t.run = s.run ∧ t.err = s.err ∧ t.ret = s.ret ∧ sameInputs s t
    (s.env.script = scriptOf ans chipEraseEvents ++ rest →
      ∃ t, exec .chipErase s = .next t ∧ after chipEraseEvents (ans .resp9) 0x02#8 0#32 0#16 t ∧
        t.pos = { st := if s.pos.st = .shimActive then .erased else s.pos.st, ph := 0#4, idx := 0#32 }) ∧
    (∀ (a : Word) (data : List Byte), data.length ≤ 65535 → s.env.script = scriptOf ans (pageEvents a data) ++ rest →
      ∃ t, exec (.writePage a data) s = .next t ∧
        after (pageEvents a data) (ans .resp9) 0x04#8 a (BitVec.ofNat 16 data.length) t ∧ t.pos = { s.pos with ph := 0#4 }) ∧
    (∀ (a : Word) (l : Half), s.env.script = scriptOf ans (segmentEvents a l) ++ rest →
      ∃ t, exec (.blankCheckSegment a l) s = .next t ∧ after (segmentEvents a l) (ans .resp10) 0x07#8 a l t ∧
        t.pos = { s.pos with ph := 0#4 })

/-- 60_exceptions.md R217, R218, R220: an exchange whose response is rejected, or does not come in full, fails: the error
records the step, the operation, the address of the page or segment and the loop index (0 for the others), and the bytes; a
banner that is too short is the only failure of `jump` (here outside a run, log 6: the transport stays as it is). The codes of
an exchange called alone are those of log 7, its `PH` inside `loadAndRun` of log 8, its `IDX` of log 5. That is the operation
wherever `ST` stands; a call out of phase does not reach it (log 35). -/
def Obligations.ExchangesFailWithTheirAddress : Prop :=
  ∀ (s : State) (r : List Byte), s.link.tOpen = true → s.busy = false →
    let failed := fun (sh : RxShape) (ph : Nat) (step op : Byte) (addr idx : Word) (es : List Ev) (t : State) =>
      t.pos = { st := .failed, ph := BitVec.ofNat 4 ph, idx := idx } ∧
      t.err =
        { kind := if r.length = sh.count then .protocol else .timeout
          step := step, op := op, addr := addr, idx := idx, rawn := BitVec.ofNat 4 r.length, raw := r } ∧
      t.rx = { rxb := r, rxn := BitVec.ofNat 4 r.length } ∧ t.link = { s.link with rxq := [], txq := [] } ∧
      t.trace = s.trace ++ traceOf (fun _ => r) s.cfg.tRead.toNat es.dropLast ++
        [if r.length = sh.count then .readOk sh.count s.cfg.tRead.toNat r
          else .readTimeout sh.count s.cfg.tRead.toNat r] ∧
      t.wrk.rem = s.wrk.rem ∧ t.run = s.run ∧ t.ret = s.ret ∧ sameInputs s t
    (r.length ≤ 9 → validFrame r 9 = false →
      (s.env.script = scriptOf (fun _ => r) chipEraseEvents →
        ∃ t, exec .chipErase s = .next t ∧ failed .resp9 2 0x40#8 0x40#8 0#32 0#32 chipEraseEvents t) ∧
      (∀ (a : Word) (data : List Byte), data.length ≤ 65535 → s.env.script = scriptOf (fun _ => r) (pageEvents a data) →
        ∃ t, exec (.writePage a data) s = .next t ∧ failed .resp9 2 0x42#8 0x41#8 a s.pos.idx (pageEvents a data) t)) ∧
    (r.length ≤ 10 → RxShape.resp10.accepts r = false →
      ∀ (a : Word) (l : Half), s.env.script = scriptOf (fun _ => r) (segmentEvents a l) →
        ∃ t, exec (.blankCheckSegment a l) s = .next t ∧
          failed .resp10 2 0x44#8 0x43#8 a s.pos.idx (segmentEvents a l) t) ∧
    (s.link.rxq = [] →
      (r = [] ∨ (∃ b, r = [b] ∧ b ≠ 0x01#8) →
        (∀ (base : Word) (len : Half), s.env.script = scriptOf (fun _ => r) (ramInitEvents base len) →
          ∃ t, exec (.ramInit base len) s = .next t ∧
            failed .ack 1 0x30#8 0x31#8 0#32 0#32 (ramInitEvents base len) t) ∧
        (∀ shim : List Byte, shim.length ≤ 65535 → s.env.script = scriptOf (fun _ => r) (shimDataEvents shim) →
          ∃ t, exec (.shimData shim) s = .next t ∧ failed .ack 3 0x30#8 0x32#8 0#32 0#32 (shimDataEvents shim) t)) ∧
      (r.length < 11 → s.env.script = scriptOf (fun _ => r) jumpEvents →
        ∃ t, exec .jump s = .next t ∧ failed .banner 5 0x30#8 0x33#8 0#32 0#32 jumpEvents t))

/-- 44_flashprogrammer.md R176: `blankCheck` issues exactly `pageCount` segment queries, each preceded by a `Discard`, at
addresses `start`, `start + pageSize`, …, in ascending order, and leads from `Erased` to `Verified`; zero segments are none
(`ST` of a single call: log 5). That is the operation wherever `ST` stands; a call out of phase does not reach it (log 35). -/
def Obligations.BlankCheckQueriesEverySegment : Prop :=
  ∀ (s : State) (ans : RxShape → List Byte) (rest : List Turn) (start : Word) (size : Half) (count : Word),
    s.link.tOpen = true → s.link.rxq = [] → s.link.txq = [] → goodAnswers ans →
    1 ≤ size.toNat → start.toNat + count.toNat * size.toNat ≤ 2 ^ 32 →
    s.env.script = scriptOf ans (blankEvents start size count.toNat) ++ rest →
    (∃ t, exec (.blankCheck start size count) s = .next t ∧
      t.trace = s.trace ++ ((List.range count.toNat).map fun i =>
        [TraceEvent.discarded] ++ (TxMsg.blankCheck (BitVec.ofNat 32 (start.toNat + i * size.toNat)) size).bytes.map TraceEvent.tx
          ++ [TraceEvent.readOk 10 s.cfg.tRead.toNat (ans .resp10)]).flatten ∧
      t.env.script = rest ∧ t.link = s.link ∧ t.run = s.run ∧ t.err = s.err ∧ t.ret = s.ret ∧ sameInputs s t ∧
      t.wrk.rem = s.wrk.rem ∧
      t.pos = { st := if s.pos.st = .erased then .verified else s.pos.st, ph := 0#4, idx := 0#32 }) ∧
    (∀ i, i < count.toNat → (segmentAddr start size.toNat i).toNat = start.toNat + i * size.toNat)

/-- 44_flashprogrammer.md R172: `writeImage` performs one PAGE_WRITE exchange for each page of the partition, in ascending
address order, counts `REM` down to 0, and leads from `Verified` to `Programmed`; an empty image writes nothing (`ST` of a
single call: log 5). That is the operation wherever `ST` stands; a call out of phase does not reach it (log 35). -/
def Obligations.WriteImageWritesEveryPage : Prop :=
  ∀ (s : State) (ans : RxShape → List Byte) (rest : List Turn) (a : Word) (bytes : List Byte) (p : Half),
    s.link.tOpen = true → s.link.rxq = [] → s.link.txq = [] → goodAnswers ans →
    1 ≤ p.toNat → a.toNat + bytes.length ≤ 2 ^ 32 → bytes.length < 2 ^ 32 →
    s.env.script = scriptOf ans (imageEvents a bytes p.toNat) ++ rest →
    ∃ t, exec (.writeImage a bytes p) s = .next t ∧
      t.trace = s.trace ++ ((List.range ((bytes.length + p.toNat - 1) / p.toNat)).map fun i =>
        [TraceEvent.discarded]
          ++ (TxMsg.pageWrite (BitVec.ofNat 32 (a.toNat + p.toNat * i)) ((bytes.drop (p.toNat * i)).take p.toNat)).bytes.map TraceEvent.tx
          ++ [TraceEvent.readOk 9 s.cfg.tRead.toNat (ans .resp9)]).flatten ∧
      t.env.script = rest ∧ t.link = s.link ∧ t.run = s.run ∧ t.err = s.err ∧ t.ret = s.ret ∧ sameInputs s t ∧
      t.wrk.rem = 0#32 ∧
      t.pos = { st := if s.pos.st = .verified then .programmed else s.pos.st, ph := 0#4, idx := 0#32 }

/-- 44_flashprogrammer.md R169: the partition of an image of length L into pages of size P: `ceil(L/P)` pages, all of length P but
the last, of length `L - P*(ceil(L/P)-1)`, which is P exactly when P divides L and L is not 0; page `i` is the bytes from `P*i` on
at the address `loadAddress + P*i`; the pages are in order and their concatenation is the image. -/
def Obligations.PartitionCoversTheImage : Prop :=
  ∀ (bytes : List Byte) (p : Nat) (a : Word), 1 ≤ p → a.toNat + bytes.length ≤ 2 ^ 32 →
    let n := pageCount bytes.length p
    let len := fun i => if i + 1 < n then p else bytes.length - p * (n - 1)
    n = (bytes.length + p - 1) / p ∧ bytes.length ≤ p * n ∧ (n ≠ 0 → p * (n - 1) < bytes.length) ∧
    (∀ i, i < n → pageData bytes p i = (bytes.drop (p * i)).take (len i) ∧ (pageData bytes p i).length = len i ∧
      1 ≤ len i ∧ len i ≤ p ∧ (pageAddr a p i).toNat = a.toNat + p * i) ∧
    (n ≠ 0 → (len (n - 1) = p ↔ p ∣ bytes.length ∧ 0 < bytes.length)) ∧
    ((List.range n).map (pageData bytes p)).flatten = bytes

/-! ### The orchestrator (45_orchestrator.md) -/

/-- 45_orchestrator.md R190: a `download` start is accepted exactly when no run is in progress and the preconditions hold; the
run then starts at `Closed` with the errors cleared and `BUSY` set, and nothing else changes. A `listen` start has no
preconditions. A start whose precondition fails is refused. Such a start is accepted whatever `ST` and the transport are, the
model's choice (log 34); the sampling is log 21. -/
def Obligations.StartCommandsBeginARun : Prop :=
  ∀ s : State, s.busy = false →
    let started := fun (k : RunKind) =>
      { s with
        pos := { st := .closed, ph := 0#4, idx := 0#32 }
        run := some k
        err := { kind := .none, step := 0#8, op := 0#8, addr := 0#32, idx := 0#32, rawn := 0#4, raw := [] } }
    exec .listen s = .next (started .listen) ∧
    ((1 ≤ s.cfg.writePage.toNat ∧ 1 ≤ s.cfg.blankPage.toNat ∧ s.cfg.imgAddr.toNat + s.cfg.imgLen.toNat ≤ 2 ^ 32 ∧
        s.cfg.blankStart.toNat + s.cfg.blankCount.toNat * s.cfg.blankPage.toNat ≤ 2 ^ 32) →
      exec .download s = .next (started .download)) ∧
    (¬ (1 ≤ s.cfg.writePage.toNat ∧ 1 ≤ s.cfg.blankPage.toNat ∧ s.cfg.imgAddr.toNat + s.cfg.imgLen.toNat ≤ 2 ^ 32 ∧
        s.cfg.blankStart.toNat + s.cfg.blankCount.toNat * s.cfg.blankPage.toNat ≤ 2 ^ 32) →
      exec .download s = .refused .illFormedConfig)

/-- 45_orchestrator.md R192, 60_exceptions.md R219: `loadImage` hands the image over, or raises the ImageError the host
signalled by `IMG_ERR`; a download started with `IMG_ERR` = 1 fails so, without any transport event (a
transport that a single call left open: log 34). -/
def Obligations.LoadImageSurfacesTheImageError : Prop :=
  (∀ s : State, s.cfg.imgErr = false → exec .loadImage s = .next s) ∧
  (∀ s : State, s.cfg.imgErr = true → s.link.tOpen = false →
    exec .loadImage s = .next { s with
      pos := { s.pos with st := .failed }
      run := none
      err := { kind := .image, step := 0x52#8, op := 0x52#8, addr := 0#32, idx := 0#32, rawn := 0#4, raw := [] } } ∧
    (s.host = [] → s.run = some .download → s.pos.st = .closed → step s = exec .loadImage s))

/-- 45_orchestrator.md R191, R194: in a run each step of the machine leaves `ST` or moves it one state along the chain, or to
`Failed` from a state whose step can fail (a listen run also goes from `Initialized` to `Reset`, R202). A step is one
transport event (log 4). -/
def Obligations.RunsFollowTheChain : Prop :=
  ∀ (s t : State) (k : RunKind), StateInv s → s.run = some k → s.host = [] → step s = .next t →
    t.pos.st = s.pos.st ∨ s.pos.st.next = some t.pos.st ∨ (t.pos.st = .failed ∧ s.pos.st.canFail = true) ∨
      (k = .listen ∧ s.pos.st = .initialized ∧ t.pos.st = .reset)

/-- 10_state.md R27, R35, 20_memory.md R65: nothing changes the configuration and the input memories while a run is in progress, but
block reset. -/
def Obligations.InputsAreFixedDuringARun : Prop :=
  ∀ s t : State, s.busy = true → s.host.head? ≠ some .blockReset → step s = .next t →
    t.cfg = s.cfg ∧ t.img = s.img ∧ t.shm = s.shm

/-- 10_state.md R26, 60_exceptions.md R226: the error registers change only on entry to `Failed`, and are cleared only by a start
command or block reset. A step that changes them enters `Failed` with an error recorded, and is a step of a run or takes a call
(an operation called alone that fails: log 6); or it accepts a start command, a call that begins a run; or it is block reset. -/
def Obligations.ErrorRegistersChangeOnlyOnFailure : Prop :=
  ∀ s t : State, step s = .next t →
    let called := ∃ f bs, s.host.head? = some (HostReq.call f bs)
    t.err = s.err ∨
      (t.pos.st = .failed ∧ t.err.kind ≠ .none ∧ (s.busy = true ∨ called)) ∨
      (t.err = State.reset.err ∧ t.pos = State.reset.pos ∧
        ((called ∧ s.busy = false ∧ t.busy = true) ∨ s.host.head? = some .blockReset))

/-- 60_exceptions.md R226, R227, 45_orchestrator.md R195, R196: a step of a run that enters `Failed` ends the run as one action:
`PH` and `IDX` keep the values of the failing event, an error is recorded, the transport is released, `BUSY` is 0, the inputs
are untouched and no byte is transmitted. A step is one transport event (log 4). -/
def Obligations.FailureEndsTheRunAtOnce : Prop :=
  ∀ s t : State, StateInv s → s.busy = true → s.host = [] → step s = .next t → t.pos.st = .failed →
    t.busy = false ∧ t.link.tOpen = false ∧ t.link.rst = .undriven ∧ t.pos.ph = s.pos.ph ∧ t.pos.idx = s.pos.idx ∧
    t.err.kind ≠ .none ∧ sameInputs s t ∧ ∃ es, t.trace = s.trace ++ es ∧ txBytes es = [] ∧ ∀ a, .setReset a ∉ es

/-- 60_exceptions.md R216, R217, R218, R219, R220: what a step of a run that fails records: the kind, the step and the innermost
operation of the state it stood in, the address and the loop index of the segment or page, and the bytes read; the last two
steps of a run cannot fail. At `Erased` the address is that of the segment, `BLANK_START + IDX*BLANK_PAGE`, at `Verified` that of the
page, `IMG_ADDR + WRITE_PAGE*IDX`. A step is one transport event (log 4), and `PH` counts those of `loadAndRun` in one list (log 8). -/
def Obligations.FailuresRecordTheirStepAndOperation : Prop :=
  ∀ (s t : State) (k : RunKind), StateInv s → s.run = some k → s.host = [] → step s = .next t → t.pos.st = .failed →
    let answered := fun (n : Nat) => t.err.raw = t.rx.rxb ∧
      ((t.err.kind = .timeout ∧ t.err.raw.length < n) ∨ (t.err.kind = .protocol ∧ t.err.raw.length = n))
    let recorded := fun (step op : Byte) (addr idx : Word) =>
      t.err.step = step ∧ t.err.op = op ∧ t.err.addr = addr ∧ t.err.idx = idx
    (s.pos.st = .closed → t.err.raw = [] ∧
      ((k = .download ∧ s.cfg.imgErr = true ∧ t.err.kind = .image ∧ recorded 0x52#8 0x52#8 0#32 0#32) ∨
        (t.err.kind = .io ∧ recorded 0x01#8 0x01#8 0#32 0#32))) ∧
    (s.pos.st = .initialized → answered 1 ∧ recorded 0x20#8 0x20#8 0#32 0#32) ∧
    (s.pos.st = .synced →
      (s.pos.ph = 1#4 ∧ answered 1 ∧ recorded 0x30#8 0x31#8 0#32 0#32) ∨
      (s.pos.ph = 3#4 ∧ answered 1 ∧ recorded 0x30#8 0x32#8 0#32 0#32) ∨
      (s.pos.ph = 5#4 ∧ answered 11 ∧ t.err.kind = .timeout ∧ recorded 0x30#8 0x33#8 0#32 0#32)) ∧
    (s.pos.st = .shimActive → answered 9 ∧ recorded 0x40#8 0x40#8 0#32 0#32) ∧
    (s.pos.st = .erased → answered 10 ∧ recorded 0x44#8 0x43#8 s.wrk.addr s.pos.idx ∧
      t.err.addr.toNat = s.cfg.blankStart.toNat + s.pos.idx.toNat * s.cfg.blankPage.toNat) ∧
    (s.pos.st = .verified → answered 9 ∧ recorded 0x42#8 0x41#8 s.wrk.addr s.pos.idx ∧
      t.err.addr.toNat = s.cfg.imgAddr.toNat + s.cfg.writePage.toNat * s.pos.idx.toNat) ∧
    s.pos.st ≠ .programmed ∧ s.pos.st ≠ .reset

/-- 45_orchestrator.md R202: a listen run opens the link, gives the reset pulse and ends at `Reset` with `BUSY` = 1 and the
transport open, after seven steps, one for each event (log 4). The rule says nothing of what follows; that the next step is the
refusal `passThrough` is the model's way to say nothing (log 19). -/
def Obligations.ListenEndsAtReset : Prop :=
  ∀ (s : State) (more : List Bool), s.run = some .listen → s.host = [] → s.pos = State.reset.pos →
    s.link.tOpen = false → s.env.opens = true :: more →
    ∃ t, steps 7 s = .next t ∧ t.pos = { st := .reset, ph := 0#4, idx := 0#32 } ∧ t.busy = true ∧
      t.link.tOpen = true ∧ t.link.rst = .deasserted ∧ t.link.tBaud = s.cfg.baud ∧
      t.trace = s.trace ++ [TraceEvent.opened s.cfg.port s.cfg.baud true] ++ traceOf (fun _ => []) 0 (resetPulseEvents s.cfg) ∧
      step t = .refused .passThrough

/-- 60_exceptions.md R230: what a step of a run transmits is nothing, or one whole message that may be sent in its state, and it is
the message of that position: at `Synced` RAM_INIT of the configured base and length, then SHIM_DATA of the shim memory, then JUMP; at
`ShimActive` CHIP_ERASE; at `Erased` BLANK_CHECK of the segment at hand; at `Verified` PAGE_WRITE of the page at hand, read from the
image memory; at `Initialized` and `Programmed` the pattern. A step is one transport event (log 4), and `PH` counts those of
`loadAndRun` in one list (log 8). And no step at all, run or call, transmits a message outside its phase, the flash requests before
`ShimActive` among them: what any step transmits is a sequence of messages each in its phase, unless the step is a call of
`writeBytes`, which transmits the bytes it is given (40_transport.md R105; calls alone: log 35). -/
def Obligations.MessagesKeepToTheirPhase : Prop :=
  (∀ s t : State, s.busy = true → s.host = [] → step s = .next t →
    ∃ es, t.trace = s.trace ++ es ∧ (txBytes es = [] ∨ ∃ m : TxMsg, txBytes es = m.bytes ∧ s.pos.st.maySend m = true ∧
      m.keepsPhase s.pos.st = true ∧
      (s.pos.st = .initialized ∨ s.pos.st = .programmed → m = .handshake ∧ s.pos.ph = 3#4) ∧
      (s.pos.st = .synced →
        (s.pos.ph = 0#4 ∧ m = .ramInit s.cfg.ramBase s.cfg.shimLen) ∨
        (s.pos.ph = 2#4 ∧ ∃ shim, memRead s.shm 0 s.cfg.shimLen.toNat = some shim ∧ m = .shimData shim) ∨
        (s.pos.ph = 4#4 ∧ m = .jump)) ∧
      (s.pos.st = .shimActive → s.pos.ph = 1#4 ∧ m = .chipErase) ∧
      (s.pos.st = .erased → s.pos.ph = 1#4 ∧
        m = .blankCheck (segmentAddr s.cfg.blankStart s.cfg.blankPage.toNat s.pos.idx.toNat) s.cfg.blankPage) ∧
      (s.pos.st = .verified → s.pos.ph = 1#4 ∧ ∃ data,
        memRead s.img (s.cfg.writePage.toNat * s.pos.idx.toNat) (min s.cfg.writePage.toNat s.wrk.rem.toNat) = some data ∧
        m = .pageWrite (pageAddr s.cfg.imgAddr s.cfg.writePage.toNat s.pos.idx.toNat) data))) ∧
  ∀ s t : State, step s = .next t →
    ∃ es, t.trace = s.trace ++ es ∧
      ((∃ ms : List TxMsg, txBytes es = (ms.map TxMsg.bytes).flatten ∧ ∀ m ∈ ms, m.keepsPhase s.pos.st = true) ∨
        ∃ f bs data r, s.host.head? = some (HostReq.call f bs) ∧ s.busy = false ∧ decode f bs = .ok (.writeBytes data, r) ∧
          txBytes es = data)

/-- 44_flashprogrammer.md R165, 70_reset_and_hazards.md R252, R255: in the flash states of a run the event at `PH` = 0 is a
`Discard`, a request is transmitted at `PH` = 1 only, directly after it, and a response is read at `PH` = 2 only. A step is one transport
event (log 4). -/
def Obligations.FlashRequestsFollowADiscard : Prop :=
  ∀ s t : State, StateInv s → s.busy = true → s.host = [] →
    s.pos.st = .shimActive ∨ s.pos.st = .erased ∨ s.pos.st = .verified → step s = .next t →
    (s.pos.ph = 0#4 → (t.trace = s.trace ++ [TraceEvent.discarded] ∧ t.link.rxq = [] ∧ t.pos.st = s.pos.st ∧ t.pos.ph = 1#4) ∨
      (t.trace = s.trace ∧ s.pos.st.next = some t.pos.st)) ∧
    (s.pos.ph = 1#4 → t.pos = { s.pos with ph := 2#4 } ∧ ∃ m : TxMsg, t.trace = s.trace ++ m.bytes.map TraceEvent.tx ∧
      s.pos.st.maySend m = true) ∧
    (s.pos.ph = 2#4 → (∃ n b, t.trace = s.trace ++ [TraceEvent.readOk n s.cfg.tRead.toNat b] ∧ t.pos.st ≠ .failed) ∨
      (∃ n b, t.trace = s.trace ++ [TraceEvent.readOk n s.cfg.tRead.toNat b, .closed] ∧ t.pos.st = .failed) ∨
      (∃ n b, t.trace = s.trace ++ [.readTimeout n s.cfg.tRead.toNat b, .closed] ∧ t.pos.st = .failed))

/-! ### Invariants and refinements -/

/-- 10_state.md R36: the invariant holds after block reset (`RXB` and `RXN`, which the rule leaves open, are those of log 13). -/
def Obligations.ResetMeetsTheInvariant : Prop := StateInv State.reset

/-- Every step keeps the invariant, from every state that meets it, whatever the host and the environment do. -/
def Obligations.EveryStepKeepsTheInvariant : Prop :=
  ∀ s t : State, StateInv s → step s = .next t → StateInv t

/-- 45_orchestrator.md R193, 42_handshake.md R140: the eight steps of a run at `Initialized` are the operation `handshake`, in
every environment, success or failure (steps: log 4; the operation alone: log 5). -/
def Obligations.HandshakeStepsRefineTheOperation : Prop :=
  ∀ s : State, s.run = some .download → s.host = [] → s.pos = { st := .initialized, ph := 0#4, idx := 0#32 } →
    steps 8 s = exec .handshake s

/-- 45_orchestrator.md R193, 43_shimloader.md R150, 44_flashprogrammer.md R167: the six steps of a run at `Synced` are `loadAndRun`
of the shim memory, and the three at `ShimActive` are `chipErase` (log 4, log 5, log 8). -/
def Obligations.LoadAndEraseStepsRefineTheOperations : Prop :=
  (∀ (s : State) (shim : List Byte), s.run = some .download → s.host = [] →
    s.pos = { st := .synced, ph := 0#4, idx := 0#32 } → memRead s.shm 0 s.cfg.shimLen.toNat = some shim →
    steps 6 s = exec (.loadAndRun shim s.cfg.ramBase) s) ∧
  (∀ s : State, s.run = some .download → s.host = [] → s.pos = { st := .shimActive, ph := 0#4, idx := 0#32 } →
    steps 3 s = exec .chipErase s)

/-- 45_orchestrator.md R193, 44_flashprogrammer.md R176: the steps of a run at `Erased` are `blankCheck` of the configured region:
three a segment, or one when there is none. A run that fails on the way has ended, and the remaining steps change nothing
(log 4, log 5). -/
def Obligations.BlankCheckStepsRefineTheOperation : Prop :=
  ∀ s : State, s.run = some .download → s.host = [] → s.pos = { st := .erased, ph := 0#4, idx := 0#32 } →
    s.cfg.downloadOk = true →
    (s.cfg.blankCount ≠ 0#32 →
      steps (3 * s.cfg.blankCount.toNat) s
        = exec (.blankCheck s.cfg.blankStart s.cfg.blankPage s.cfg.blankCount) s) ∧
    (s.cfg.blankCount = 0#32 →
      steps 1 s = exec (.blankCheck s.cfg.blankStart s.cfg.blankPage s.cfg.blankCount) s)

/-- 45_orchestrator.md R193, 44_flashprogrammer.md R172: the steps of a run at `Verified` are `writeImage` of the image memory:
three a page, or one when the image is empty (log 4, log 5). -/
def Obligations.WriteImageStepsRefineTheOperation : Prop :=
  ∀ (s : State) (image : List Byte), s.run = some .download → s.host = [] →
    s.pos = { st := .verified, ph := 0#4, idx := 0#32 } → s.cfg.downloadOk = true →
    memRead s.img 0 s.cfg.imgLen.toNat = some image →
    (s.cfg.imgLen ≠ 0#32 →
      steps (3 * pageCount s.cfg.imgLen.toNat s.cfg.writePage.toNat) s
        = exec (.writeImage s.cfg.imgAddr image s.cfg.writePage) s) ∧
    (s.cfg.imgLen = 0#32 → steps 1 s = exec (.writeImage s.cfg.imgAddr image s.cfg.writePage) s)

/-- 45_orchestrator.md R196, R199, 60_exceptions.md R236: every download run whose inputs were supplied comes to its end, in every
environment: within a number of steps the configuration bounds it is at `Done` or `Failed` with `BUSY` = 0 and the transport
closed, and no step of it is refused (the count of steps: log 4; a byte not supplied faults, log 15). -/
def Obligations.EveryDownloadRunEnds : Prop :=
  ∀ (s : State) (image shim : List Byte), StateInv s → s.run = some .download → s.host = [] → s.pos = State.reset.pos →
    memRead s.img 0 s.cfg.imgLen.toNat = some image → memRead s.shm 0 s.cfg.shimLen.toNat = some shim →
    ∃ t, steps (downloadSteps s.cfg) s = .next t ∧ (t.pos.st = .done ∨ t.pos.st = .failed) ∧
      t.busy = false ∧ t.link.tOpen = false ∧ (t.pos.st = .done → t.err = s.err)

/-- 45_orchestrator.md R201: a link that opens and returns the expected answer to every request drives a run through all states
to `Done` without error, and the trace is the whole protocol in order (R193). One that returns a chip-erase response that fails
validation stops it: `Failed` is entered from `ShimActive` with ProtocolError in step and operation 40 and the nine bytes, the
transport is closed, and nothing is sent after the erase, by no later step either. The environment is a list
of turns whose answers are there when a read begins (log 9), and a step is one transport event (log 4). -/
def Obligations.PipelineReachesDoneOrStopsAtTheErase : Prop :=
  ∀ (s : State) (ans : RxShape → List Byte) (image shim : List Byte) (more : List Bool),
    s.run = some .download → s.host = [] → s.pos = State.reset.pos → s.link.tOpen = false → s.cfg.downloadOk = true →
    s.cfg.imgErr = false → goodAnswers ans →
    memRead s.img 0 s.cfg.imgLen.toNat = some image → memRead s.shm 0 s.cfg.shimLen.toNat = some shim →
    s.env.opens = true :: more →
    let closedLink := { tOpen := false, tBaud := s.cfg.baud, rxq := [], txq := [], rst := .undriven : Link }
    (∀ rest : List Turn,
      s.env.script = quiet :: scriptOf ans (downloadEvents s.cfg image shim) ++ quiet :: rest →
      ∃ t, steps (downloadSteps s.cfg) s = .next t ∧
        t.pos = { st := .done, ph := 0#4, idx := 0#32 } ∧ t.busy = false ∧ t.err = s.err ∧
        t.trace = s.trace ++ [TraceEvent.opened s.cfg.port s.cfg.baud true]
          ++ traceOf ans s.cfg.tRead.toNat (downloadEvents s.cfg image shim) ++ [TraceEvent.closed] ∧
        t.link = closedLink ∧ t.env.script = rest ∧ sameInputs s t ∧
        ∀ st : SeqState, st ≠ .failed →
          ∃ (k : Nat) (u : State), k ≤ downloadSteps s.cfg ∧ steps k s = .next u ∧ u.pos.st = st) ∧
    (∀ (r : List Byte) (rest : List Turn) (n : Nat), r.length = 9 → validFrame r 9 = false →
      let es := handshakeEvents s.cfg ++ loadEvents shim s.cfg.ramBase ++ [.discard, .send .chipErase]
      s.env.script = quiet :: scriptOf ans es ++ { elapse := 0, arrive := r } :: rest →
      (∃ u, steps 17 s = .next u ∧ u.pos = { st := .shimActive, ph := 2#4, idx := 0#32 }) ∧
      ∃ t, steps (18 + n) s = .next t ∧ t.pos = { st := .failed, ph := 2#4, idx := 0#32 } ∧ t.busy = false ∧
        t.err = { kind := .protocol, step := 0x40#8, op := 0x40#8, addr := 0#32, idx := 0#32, rawn := 9#4, raw := r } ∧
        t.trace = s.trace ++ [TraceEvent.opened s.cfg.port s.cfg.baud true] ++ traceOf ans s.cfg.tRead.toNat es
          ++ [TraceEvent.readOk 9 s.cfg.tRead.toNat r, .closed] ∧
        t.link = closedLink ∧ sameInputs s t)
end

