-- ==== Sys2Proof/Laws/Codec.lean ====
section
/-! SUPPORT. Lemmas about the codec functions: the running sum over the pieces of a list, and the byte order of the integers. -/

namespace Sys2Proof

-- One lemma after another: many small proofs at once would take a thread each.
set_option Elab.async false

theorem sum8_from (l : List Byte) (a : Byte) : l.foldl (· + ·) a = a + sum8 l := by
  unfold sum8
  induction l generalizing a with
  | nil => simp
  | cons b l ih => simp only [List.foldl_cons]; rw [ih, ih (0#8 + b)]; simp [BitVec.add_assoc]

theorem sum8_cons (b : Byte) (l : List Byte) : sum8 (b :: l) = b + sum8 l := by
  rw [sum8, List.foldl_cons, sum8_from]; simp

theorem sum8_concat (a b : List Byte) : sum8 (a ++ b) = sum8 a + sum8 b := by
  induction a with
  | nil => simp [sum8]
  | cons x a ih => simp [sum8_cons, ih, BitVec.add_assoc]

theorem sum8_toNat (l : List Byte) : (sum8 l).toNat = (l.map BitVec.toNat).sum % 256 := by
  induction l with
  | nil => rfl
  | cons x a ih => simp [sum8_cons, ih]

@[simp] theorem appendSum8_length (l : List Byte) : (appendSum8 l).length = l.length + 1 := by simp [appendSum8]
@[simp] theorem appendSum8_getLast (l : List Byte) : (appendSum8 l).getLast? = some (sum8 l) := by simp [appendSum8]

@[simp] theorem le16_length (v : Half) : (le16 v).length = 2 := rfl
@[simp] theorem le32_length (v : Word) : (le32 v).length = 4 := rfl

/-- The bytes of a 32-bit integer put together again. -/
theorem u32le_of_bytes (v : Word) :
    u32le (v.extractLsb' 0 8) (v.extractLsb' 8 8) (v.extractLsb' 16 8) (v.extractLsb' 24 8) = v := by
  unfold u32le; ext i hi; simp; grind

/-- The bytes of a 16-bit integer put together again. -/
theorem u16le_of_bytes (v : Half) : u16le (v.extractLsb' 0 8) (v.extractLsb' 8 8) = v := by
  unfold u16le; ext i hi; simp; grind

end Sys2Proof
end

