-- ==== Sys2Proof/Laws/Decode.lean ====
section
/-! SUPPORT. What each operand reader of the decoder gives on the bytes the encoder writes for it. -/

namespace Sys2Proof

-- One lemma after another: many small proofs at once would take a thread each.
set_option Elab.async false

@[simp] theorem takeWord_le32 (v : Word) (r : List Byte) (k : Word → List Byte → Decoded) :
    takeWord (le32 v ++ r) k = k v r := by simp [takeWord, le32, u32le_of_bytes]

@[simp] theorem takeHalf_le16 (v : Half) (r : List Byte) (k : Half → List Byte → Decoded) :
    takeHalf (le16 v ++ r) k = k v r := by simp [takeHalf, le16, u16le_of_bytes]

@[simp] theorem takeByte_cons (v : Byte) (r : List Byte) (k : Byte → List Byte → Decoded) : takeByte (v :: r) k = k v r := rfl

theorem takeBytes_append (l r : List Byte) (k : List Byte → List Byte → Decoded) {n : Nat} (h : n = l.length) :
    takeBytes n (l ++ r) k = k l r := by subst h; simp [takeBytes]

theorem takeSeq_encodeSeq (l r : List Byte) (k : List Byte → List Byte → Decoded) (h : seqFits l = true) :
    takeSeq (encodeSeq l ++ r) k = k l r := by
  simp only [seqFits, decide_eq_true_eq] at h
  simp only [takeSeq, encodeSeq, List.append_assoc, takeWord_le32]
  exact takeBytes_append l r k (by simp; omega)

@[simp] theorem takeBool_encodeBool (a : Bool) (r : List Byte) (k : Bool → List Byte → Decoded) :
    takeBool (encodeBool a :: r) k = k a r := by cases a <;> simp [takeBool, encodeBool]

@[simp] theorem takeLiteral_append (lit r : List Byte) (i : Instr) : takeLiteral lit i (lit ++ r) = .ok (i, r) := by
  simp [takeLiteral]

/-- A reader that succeeds consumed the bytes of one operand. -/
theorem takeByte_ok {bs : List Byte} {k : Byte → List Byte → Decoded} {i : Instr} {r : List Byte} :
    takeByte bs k = .ok (i, r) ↔ ∃ v s, bs = v :: s ∧ k v s = .ok (i, r) := by cases bs <;> simp [takeByte]

end Sys2Proof
end

