-- ==== Sys2Proof/Laws/State.lean ====
section
/-! SUPPORT. One lemma for each field and each named update of the state, true by rfl, so that no later proof unfolds a record
update. -/

namespace Sys2Proof.Machine

-- One lemma after another: many small proofs at once would take a thread each.
set_option Elab.async false

/-! ### applyTurn -/

@[simp] theorem applyTurn_pos (t : Turn) (rest : List Turn) (s : State) :
    (applyTurn t rest s).pos = s.pos := rfl
@[simp] theorem applyTurn_run (t : Turn) (rest : List Turn) (s : State) :
    (applyTurn t rest s).run = s.run := rfl
@[simp] theorem applyTurn_wrk (t : Turn) (rest : List Turn) (s : State) :
    (applyTurn t rest s).wrk = s.wrk := rfl
@[simp] theorem applyTurn_err (t : Turn) (rest : List Turn) (s : State) :
    (applyTurn t rest s).err = s.err := rfl
@[simp] theorem applyTurn_cfg (t : Turn) (rest : List Turn) (s : State) :
    (applyTurn t rest s).cfg = s.cfg := rfl
@[simp] theorem applyTurn_rx (t : Turn) (rest : List Turn) (s : State) :
    (applyTurn t rest s).rx = s.rx := rfl
@[simp] theorem applyTurn_link (t : Turn) (rest : List Turn) (s : State) :
    (applyTurn t rest s).link = if s.link.tOpen then { s.link with rxq := s.link.rxq ++ t.arrive } else s.link := rfl
@[simp] theorem applyTurn_env (t : Turn) (rest : List Turn) (s : State) :
    (applyTurn t rest s).env = { s.env with now := s.env.now + t.elapse, script := rest } := rfl
@[simp] theorem applyTurn_img (t : Turn) (rest : List Turn) (s : State) :
    (applyTurn t rest s).img = s.img := rfl
@[simp] theorem applyTurn_shm (t : Turn) (rest : List Turn) (s : State) :
    (applyTurn t rest s).shm = s.shm := rfl
@[simp] theorem applyTurn_host (t : Turn) (rest : List Turn) (s : State) :
    (applyTurn t rest s).host = s.host := rfl
@[simp] theorem applyTurn_trace (t : Turn) (rest : List Turn) (s : State) :
    (applyTurn t rest s).trace = s.trace := rfl
@[simp] theorem applyTurn_ret (t : Turn) (rest : List Turn) (s : State) :
    (applyTurn t rest s).ret = s.ret := rfl

/-! ### closeLink -/

@[simp] theorem closeLink_pos (s : State) :
    (closeLink s).pos = s.pos := rfl
@[simp] theorem closeLink_run (s : State) :
    (closeLink s).run = s.run := rfl
@[simp] theorem closeLink_wrk (s : State) :
    (closeLink s).wrk = s.wrk := rfl
@[simp] theorem closeLink_err (s : State) :
    (closeLink s).err = s.err := rfl
@[simp] theorem closeLink_cfg (s : State) :
    (closeLink s).cfg = s.cfg := rfl
@[simp] theorem closeLink_rx (s : State) :
    (closeLink s).rx = s.rx := rfl
@[simp] theorem closeLink_link (s : State) :
    (closeLink s).link = { s.link with tOpen := false, rxq := [], txq := [], rst := .undriven } := rfl
@[simp] theorem closeLink_env (s : State) :
    (closeLink s).env = s.env := rfl
@[simp] theorem closeLink_img (s : State) :
    (closeLink s).img = s.img := rfl
@[simp] theorem closeLink_shm (s : State) :
    (closeLink s).shm = s.shm := rfl
@[simp] theorem closeLink_host (s : State) :
    (closeLink s).host = s.host := rfl
@[simp] theorem closeLink_trace (s : State) :
    (closeLink s).trace = s.trace ++ [.closed] := rfl
@[simp] theorem closeLink_ret (s : State) :
    (closeLink s).ret = s.ret := rfl

/-! ### transmit -/

@[simp] theorem transmit_pos (data : List Byte) (s : State) :
    (transmit data s).pos = s.pos := rfl
@[simp] theorem transmit_run (data : List Byte) (s : State) :
    (transmit data s).run = s.run := rfl
@[simp] theorem transmit_wrk (data : List Byte) (s : State) :
    (transmit data s).wrk = s.wrk := rfl
@[simp] theorem transmit_err (data : List Byte) (s : State) :
    (transmit data s).err = s.err := rfl
@[simp] theorem transmit_cfg (data : List Byte) (s : State) :
    (transmit data s).cfg = s.cfg := rfl
@[simp] theorem transmit_rx (data : List Byte) (s : State) :
    (transmit data s).rx = s.rx := rfl
@[simp] theorem transmit_link (data : List Byte) (s : State) :
    (transmit data s).link = { s.link with txq := [] } := rfl
@[simp] theorem transmit_env (data : List Byte) (s : State) :
    (transmit data s).env = s.env := rfl
@[simp] theorem transmit_img (data : List Byte) (s : State) :
    (transmit data s).img = s.img := rfl
@[simp] theorem transmit_shm (data : List Byte) (s : State) :
    (transmit data s).shm = s.shm := rfl
@[simp] theorem transmit_host (data : List Byte) (s : State) :
    (transmit data s).host = s.host := rfl
@[simp] theorem transmit_trace (data : List Byte) (s : State) :
    (transmit data s).trace = s.trace ++ data.map .tx := rfl
@[simp] theorem transmit_ret (data : List Byte) (s : State) :
    (transmit data s).ret = s.ret := rfl

/-! ### recordError -/

@[simp] theorem recordError_pos (e : ErrInfo) (s : State) :
    (recordError e s).pos = { s.pos with st := .failed } := rfl
@[simp] theorem recordError_run (e : ErrInfo) (s : State) :
    (recordError e s).run = s.run := rfl
@[simp] theorem recordError_wrk (e : ErrInfo) (s : State) :
    (recordError e s).wrk = s.wrk := rfl
@[simp] theorem recordError_err (e : ErrInfo) (s : State) :
    (recordError e s).err = { kind := e.kind, step := e.ctx.step, op := e.ctx.op, addr := errAddress e s, idx := errIndex e s, rawn := BitVec.ofNat 4 (clip e.raw).length, raw := clip e.raw } := rfl
@[simp] theorem recordError_cfg (e : ErrInfo) (s : State) :
    (recordError e s).cfg = s.cfg := rfl
@[simp] theorem recordError_rx (e : ErrInfo) (s : State) :
    (recordError e s).rx = s.rx := rfl
@[simp] theorem recordError_link (e : ErrInfo) (s : State) :
    (recordError e s).link = s.link := rfl
@[simp] theorem recordError_env (e : ErrInfo) (s : State) :
    (recordError e s).env = s.env := rfl
@[simp] theorem recordError_img (e : ErrInfo) (s : State) :
    (recordError e s).img = s.img := rfl
@[simp] theorem recordError_shm (e : ErrInfo) (s : State) :
    (recordError e s).shm = s.shm := rfl
@[simp] theorem recordError_host (e : ErrInfo) (s : State) :
    (recordError e s).host = s.host := rfl
@[simp] theorem recordError_trace (e : ErrInfo) (s : State) :
    (recordError e s).trace = s.trace := rfl
@[simp] theorem recordError_ret (e : ErrInfo) (s : State) :
    (recordError e s).ret = s.ret := rfl

/-! ### readTaken -/

@[simp] theorem readTaken_pos (n t : Nat) (s : State) :
    (readTaken n t s).pos = s.pos := rfl
@[simp] theorem readTaken_run (n t : Nat) (s : State) :
    (readTaken n t s).run = s.run := rfl
@[simp] theorem readTaken_wrk (n t : Nat) (s : State) :
    (readTaken n t s).wrk = s.wrk := rfl
@[simp] theorem readTaken_err (n t : Nat) (s : State) :
    (readTaken n t s).err = s.err := rfl
@[simp] theorem readTaken_cfg (n t : Nat) (s : State) :
    (readTaken n t s).cfg = s.cfg := rfl
@[simp] theorem readTaken_rx (n t : Nat) (s : State) :
    (readTaken n t s).rx = rxBuffer (s.link.rxq.take n) := rfl
@[simp] theorem readTaken_link (n t : Nat) (s : State) :
    (readTaken n t s).link = { s.link with rxq := s.link.rxq.drop n } := rfl
@[simp] theorem readTaken_env (n t : Nat) (s : State) :
    (readTaken n t s).env = s.env := rfl
@[simp] theorem readTaken_img (n t : Nat) (s : State) :
    (readTaken n t s).img = s.img := rfl
@[simp] theorem readTaken_shm (n t : Nat) (s : State) :
    (readTaken n t s).shm = s.shm := rfl
@[simp] theorem readTaken_host (n t : Nat) (s : State) :
    (readTaken n t s).host = s.host := rfl
@[simp] theorem readTaken_trace (n t : Nat) (s : State) :
    (readTaken n t s).trace = s.trace ++ [.readOk n t (s.link.rxq.take n)] := rfl
@[simp] theorem readTaken_ret (n t : Nat) (s : State) :
    (readTaken n t s).ret = s.ret := rfl

/-! ### readPartial -/

@[simp] theorem readPartial_pos (n t : Nat) (s : State) :
    (readPartial n t s).pos = s.pos := rfl
@[simp] theorem readPartial_run (n t : Nat) (s : State) :
    (readPartial n t s).run = s.run := rfl
@[simp] theorem readPartial_wrk (n t : Nat) (s : State) :
    (readPartial n t s).wrk = s.wrk := rfl
@[simp] theorem readPartial_err (n t : Nat) (s : State) :
    (readPartial n t s).err = s.err := rfl
@[simp] theorem readPartial_cfg (n t : Nat) (s : State) :
    (readPartial n t s).cfg = s.cfg := rfl
@[simp] theorem readPartial_rx (n t : Nat) (s : State) :
    (readPartial n t s).rx = rxBuffer s.link.rxq := rfl
@[simp] theorem readPartial_link (n t : Nat) (s : State) :
    (readPartial n t s).link = { s.link with rxq := [] } := rfl
@[simp] theorem readPartial_env (n t : Nat) (s : State) :
    (readPartial n t s).env = s.env := rfl
@[simp] theorem readPartial_img (n t : Nat) (s : State) :
    (readPartial n t s).img = s.img := rfl
@[simp] theorem readPartial_shm (n t : Nat) (s : State) :
    (readPartial n t s).shm = s.shm := rfl
@[simp] theorem readPartial_host (n t : Nat) (s : State) :
    (readPartial n t s).host = s.host := rfl
@[simp] theorem readPartial_trace (n t : Nat) (s : State) :
    (readPartial n t s).trace = s.trace ++ [.readTimeout n t s.link.rxq] := rfl
@[simp] theorem readPartial_ret (n t : Nat) (s : State) :
    (readPartial n t s).ret = s.ret := rfl

/-! ### setPh -/

@[simp] theorem setPh_pos (k : Nat) (s : State) :
    (setPh k s).pos = { s.pos with ph := BitVec.ofNat 4 k } := rfl
@[simp] theorem setPh_run (k : Nat) (s : State) :
    (setPh k s).run = s.run := rfl
@[simp] theorem setPh_wrk (k : Nat) (s : State) :
    (setPh k s).wrk = s.wrk := rfl
@[simp] theorem setPh_err (k : Nat) (s : State) :
    (setPh k s).err = s.err := rfl
@[simp] theorem setPh_cfg (k : Nat) (s : State) :
    (setPh k s).cfg = s.cfg := rfl
@[simp] theorem setPh_rx (k : Nat) (s : State) :
    (setPh k s).rx = s.rx := rfl
@[simp] theorem setPh_link (k : Nat) (s : State) :
    (setPh k s).link = s.link := rfl
@[simp] theorem setPh_env (k : Nat) (s : State) :
    (setPh k s).env = s.env := rfl
@[simp] theorem setPh_img (k : Nat) (s : State) :
    (setPh k s).img = s.img := rfl
@[simp] theorem setPh_shm (k : Nat) (s : State) :
    (setPh k s).shm = s.shm := rfl
@[simp] theorem setPh_host (k : Nat) (s : State) :
    (setPh k s).host = s.host := rfl
@[simp] theorem setPh_trace (k : Nat) (s : State) :
    (setPh k s).trace = s.trace := rfl
@[simp] theorem setPh_ret (k : Nat) (s : State) :
    (setPh k s).ret = s.ret := rfl

/-! ### setIdx -/

@[simp] theorem setIdx_pos (k : Nat) (s : State) :
    (setIdx k s).pos = { s.pos with idx := BitVec.ofNat 32 k } := rfl
@[simp] theorem setIdx_run (k : Nat) (s : State) :
    (setIdx k s).run = s.run := rfl
@[simp] theorem setIdx_wrk (k : Nat) (s : State) :
    (setIdx k s).wrk = s.wrk := rfl
@[simp] theorem setIdx_err (k : Nat) (s : State) :
    (setIdx k s).err = s.err := rfl
@[simp] theorem setIdx_cfg (k : Nat) (s : State) :
    (setIdx k s).cfg = s.cfg := rfl
@[simp] theorem setIdx_rx (k : Nat) (s : State) :
    (setIdx k s).rx = s.rx := rfl
@[simp] theorem setIdx_link (k : Nat) (s : State) :
    (setIdx k s).link = s.link := rfl
@[simp] theorem setIdx_env (k : Nat) (s : State) :
    (setIdx k s).env = s.env := rfl
@[simp] theorem setIdx_img (k : Nat) (s : State) :
    (setIdx k s).img = s.img := rfl
@[simp] theorem setIdx_shm (k : Nat) (s : State) :
    (setIdx k s).shm = s.shm := rfl
@[simp] theorem setIdx_host (k : Nat) (s : State) :
    (setIdx k s).host = s.host := rfl
@[simp] theorem setIdx_trace (k : Nat) (s : State) :
    (setIdx k s).trace = s.trace := rfl
@[simp] theorem setIdx_ret (k : Nat) (s : State) :
    (setIdx k s).ret = s.ret := rfl

/-! ### restart -/

@[simp] theorem restart_pos (s : State) :
    (restart s).pos = { s.pos with ph := 0#4, idx := 0#32 } := rfl
@[simp] theorem restart_run (s : State) :
    (restart s).run = s.run := rfl
@[simp] theorem restart_wrk (s : State) :
    (restart s).wrk = s.wrk := rfl
@[simp] theorem restart_err (s : State) :
    (restart s).err = s.err := rfl
@[simp] theorem restart_cfg (s : State) :
    (restart s).cfg = s.cfg := rfl
@[simp] theorem restart_rx (s : State) :
    (restart s).rx = s.rx := rfl
@[simp] theorem restart_link (s : State) :
    (restart s).link = s.link := rfl
@[simp] theorem restart_env (s : State) :
    (restart s).env = s.env := rfl
@[simp] theorem restart_img (s : State) :
    (restart s).img = s.img := rfl
@[simp] theorem restart_shm (s : State) :
    (restart s).shm = s.shm := rfl
@[simp] theorem restart_host (s : State) :
    (restart s).host = s.host := rfl
@[simp] theorem restart_trace (s : State) :
    (restart s).trace = s.trace := rfl
@[simp] theorem restart_ret (s : State) :
    (restart s).ret = s.ret := rfl

/-! ### advance -/

@[simp] theorem advance_pos (a b : SeqState) (s : State) :
    (advance a b s).pos = { st := if s.pos.st = a then b else s.pos.st, ph := 0#4, idx := 0#32 } := rfl
@[simp] theorem advance_run (a b : SeqState) (s : State) :
    (advance a b s).run = s.run := rfl
@[simp] theorem advance_wrk (a b : SeqState) (s : State) :
    (advance a b s).wrk = s.wrk := rfl
@[simp] theorem advance_err (a b : SeqState) (s : State) :
    (advance a b s).err = s.err := rfl
@[simp] theorem advance_cfg (a b : SeqState) (s : State) :
    (advance a b s).cfg = s.cfg := rfl
@[simp] theorem advance_rx (a b : SeqState) (s : State) :
    (advance a b s).rx = s.rx := rfl
@[simp] theorem advance_link (a b : SeqState) (s : State) :
    (advance a b s).link = s.link := rfl
@[simp] theorem advance_env (a b : SeqState) (s : State) :
    (advance a b s).env = s.env := rfl
@[simp] theorem advance_img (a b : SeqState) (s : State) :
    (advance a b s).img = s.img := rfl
@[simp] theorem advance_shm (a b : SeqState) (s : State) :
    (advance a b s).shm = s.shm := rfl
@[simp] theorem advance_host (a b : SeqState) (s : State) :
    (advance a b s).host = s.host := rfl
@[simp] theorem advance_trace (a b : SeqState) (s : State) :
    (advance a b s).trace = s.trace := rfl
@[simp] theorem advance_ret (a b : SeqState) (s : State) :
    (advance a b s).ret = s.ret := rfl

/-! ### reduceRem -/

@[simp] theorem reduceRem_pos (n : Nat) (s : State) :
    (reduceRem n s).pos = s.pos := rfl
@[simp] theorem reduceRem_run (n : Nat) (s : State) :
    (reduceRem n s).run = s.run := rfl
@[simp] theorem reduceRem_wrk (n : Nat) (s : State) :
    (reduceRem n s).wrk = { s.wrk with rem := s.wrk.rem - BitVec.ofNat 32 n } := rfl
@[simp] theorem reduceRem_err (n : Nat) (s : State) :
    (reduceRem n s).err = s.err := rfl
@[simp] theorem reduceRem_cfg (n : Nat) (s : State) :
    (reduceRem n s).cfg = s.cfg := rfl
@[simp] theorem reduceRem_rx (n : Nat) (s : State) :
    (reduceRem n s).rx = s.rx := rfl
@[simp] theorem reduceRem_link (n : Nat) (s : State) :
    (reduceRem n s).link = s.link := rfl
@[simp] theorem reduceRem_env (n : Nat) (s : State) :
    (reduceRem n s).env = s.env := rfl
@[simp] theorem reduceRem_img (n : Nat) (s : State) :
    (reduceRem n s).img = s.img := rfl
@[simp] theorem reduceRem_shm (n : Nat) (s : State) :
    (reduceRem n s).shm = s.shm := rfl
@[simp] theorem reduceRem_host (n : Nat) (s : State) :
    (reduceRem n s).host = s.host := rfl
@[simp] theorem reduceRem_trace (n : Nat) (s : State) :
    (reduceRem n s).trace = s.trace := rfl
@[simp] theorem reduceRem_ret (n : Nat) (s : State) :
    (reduceRem n s).ret = s.ret := rfl

/-! ### nextIteration -/

@[simp] theorem nextIteration_pos (s : State) :
    (nextIteration s).pos = ({ s.pos with ph := 0#4, idx := s.pos.idx + 1#32 } : Position) := rfl
@[simp] theorem nextIteration_run (s : State) :
    (nextIteration s).run = s.run := rfl
@[simp] theorem nextIteration_wrk (s : State) :
    (nextIteration s).wrk = s.wrk := rfl
@[simp] theorem nextIteration_err (s : State) :
    (nextIteration s).err = s.err := rfl
@[simp] theorem nextIteration_cfg (s : State) :
    (nextIteration s).cfg = s.cfg := rfl
@[simp] theorem nextIteration_rx (s : State) :
    (nextIteration s).rx = s.rx := rfl
@[simp] theorem nextIteration_link (s : State) :
    (nextIteration s).link = s.link := rfl
@[simp] theorem nextIteration_env (s : State) :
    (nextIteration s).env = s.env := rfl
@[simp] theorem nextIteration_img (s : State) :
    (nextIteration s).img = s.img := rfl
@[simp] theorem nextIteration_shm (s : State) :
    (nextIteration s).shm = s.shm := rfl
@[simp] theorem nextIteration_host (s : State) :
    (nextIteration s).host = s.host := rfl
@[simp] theorem nextIteration_trace (s : State) :
    (nextIteration s).trace = s.trace := rfl
@[simp] theorem nextIteration_ret (s : State) :
    (nextIteration s).ret = s.ret := rfl

/-! ### startRun -/

@[simp] theorem startRun_pos (k : RunKind) (s : State) :
    (startRun k s).pos = { st := .closed, ph := 0#4, idx := 0#32 } := rfl
@[simp] theorem startRun_run (k : RunKind) (s : State) :
    (startRun k s).run = some k := rfl
@[simp] theorem startRun_wrk (k : RunKind) (s : State) :
    (startRun k s).wrk = s.wrk := rfl
@[simp] theorem startRun_err (k : RunKind) (s : State) :
    (startRun k s).err = noError := rfl
@[simp] theorem startRun_cfg (k : RunKind) (s : State) :
    (startRun k s).cfg = s.cfg := rfl
@[simp] theorem startRun_rx (k : RunKind) (s : State) :
    (startRun k s).rx = s.rx := rfl
@[simp] theorem startRun_link (k : RunKind) (s : State) :
    (startRun k s).link = s.link := rfl
@[simp] theorem startRun_env (k : RunKind) (s : State) :
    (startRun k s).env = s.env := rfl
@[simp] theorem startRun_img (k : RunKind) (s : State) :
    (startRun k s).img = s.img := rfl
@[simp] theorem startRun_shm (k : RunKind) (s : State) :
    (startRun k s).shm = s.shm := rfl
@[simp] theorem startRun_host (k : RunKind) (s : State) :
    (startRun k s).host = s.host := rfl
@[simp] theorem startRun_trace (k : RunKind) (s : State) :
    (startRun k s).trace = s.trace := rfl
@[simp] theorem startRun_ret (k : RunKind) (s : State) :
    (startRun k s).ret = s.ret := rfl

/-! ### State.returning -/

@[simp] theorem State.returning_pos (s : State) (r : Ret) :
    (s.returning r).pos = s.pos := rfl
@[simp] theorem State.returning_run (s : State) (r : Ret) :
    (s.returning r).run = s.run := rfl
@[simp] theorem State.returning_wrk (s : State) (r : Ret) :
    (s.returning r).wrk = s.wrk := rfl
@[simp] theorem State.returning_err (s : State) (r : Ret) :
    (s.returning r).err = s.err := rfl
@[simp] theorem State.returning_cfg (s : State) (r : Ret) :
    (s.returning r).cfg = s.cfg := rfl
@[simp] theorem State.returning_rx (s : State) (r : Ret) :
    (s.returning r).rx = s.rx := rfl
@[simp] theorem State.returning_link (s : State) (r : Ret) :
    (s.returning r).link = s.link := rfl
@[simp] theorem State.returning_env (s : State) (r : Ret) :
    (s.returning r).env = s.env := rfl
@[simp] theorem State.returning_img (s : State) (r : Ret) :
    (s.returning r).img = s.img := rfl
@[simp] theorem State.returning_shm (s : State) (r : Ret) :
    (s.returning r).shm = s.shm := rfl
@[simp] theorem State.returning_host (s : State) (r : Ret) :
    (s.returning r).host = s.host := rfl
@[simp] theorem State.returning_trace (s : State) (r : Ret) :
    (s.returning r).trace = s.trace := rfl
@[simp] theorem State.returning_ret (s : State) (r : Ret) :
    (s.returning r).ret = r := rfl

/-! ### State.withCsum -/

@[simp] theorem State.withCsum_pos (s : State) (v : Byte) :
    (s.withCsum v).pos = s.pos := rfl
@[simp] theorem State.withCsum_run (s : State) (v : Byte) :
    (s.withCsum v).run = s.run := rfl
@[simp] theorem State.withCsum_wrk (s : State) (v : Byte) :
    (s.withCsum v).wrk = { s.wrk with csum := v } := rfl
@[simp] theorem State.withCsum_err (s : State) (v : Byte) :
    (s.withCsum v).err = s.err := rfl
@[simp] theorem State.withCsum_cfg (s : State) (v : Byte) :
    (s.withCsum v).cfg = s.cfg := rfl
@[simp] theorem State.withCsum_rx (s : State) (v : Byte) :
    (s.withCsum v).rx = s.rx := rfl
@[simp] theorem State.withCsum_link (s : State) (v : Byte) :
    (s.withCsum v).link = s.link := rfl
@[simp] theorem State.withCsum_env (s : State) (v : Byte) :
    (s.withCsum v).env = s.env := rfl
@[simp] theorem State.withCsum_img (s : State) (v : Byte) :
    (s.withCsum v).img = s.img := rfl
@[simp] theorem State.withCsum_shm (s : State) (v : Byte) :
    (s.withCsum v).shm = s.shm := rfl
@[simp] theorem State.withCsum_host (s : State) (v : Byte) :
    (s.withCsum v).host = s.host := rfl
@[simp] theorem State.withCsum_trace (s : State) (v : Byte) :
    (s.withCsum v).trace = s.trace := rfl
@[simp] theorem State.withCsum_ret (s : State) (v : Byte) :
    (s.withCsum v).ret = s.ret := rfl

/-! ### blockReset -/

@[simp] theorem blockReset_pos (s : State) :
    (blockReset s).pos = State.reset.pos := rfl
@[simp] theorem blockReset_run (s : State) :
    (blockReset s).run = State.reset.run := rfl
@[simp] theorem blockReset_wrk (s : State) :
    (blockReset s).wrk = State.reset.wrk := rfl
@[simp] theorem blockReset_err (s : State) :
    (blockReset s).err = State.reset.err := rfl
@[simp] theorem blockReset_cfg (s : State) :
    (blockReset s).cfg = State.reset.cfg := rfl
@[simp] theorem blockReset_rx (s : State) :
    (blockReset s).rx = State.reset.rx := rfl
@[simp] theorem blockReset_link (s : State) :
    (blockReset s).link = State.reset.link := rfl
@[simp] theorem blockReset_env (s : State) :
    (blockReset s).env = s.env := rfl
@[simp] theorem blockReset_img (s : State) :
    (blockReset s).img = s.img := rfl
@[simp] theorem blockReset_shm (s : State) :
    (blockReset s).shm = s.shm := rfl
@[simp] theorem blockReset_host (s : State) :
    (blockReset s).host = s.host := rfl
@[simp] theorem blockReset_trace (s : State) :
    (blockReset s).trace = s.trace := rfl
@[simp] theorem blockReset_ret (s : State) :
    (blockReset s).ret = State.reset.ret := rfl

end Sys2Proof.Machine
end

