-- ==== Sys2Proof/Laws/Env.lean ====
section
/-! SUPPORT. What the environment's part of an operation can do, said once (`EnvMove`): time passes, bytes arrive at the tail of
`RXQ` while the transport is open, and nothing else of the state moves (40_transport.md R109). -/

namespace Sys2Proof.Machine

-- One lemma after another: many small proofs at once would take a thread each.
set_option Elab.async false

/-- `t` differs from `s` by the environment's doing only. -/
structure EnvMove (s t : State) : Prop where
  same : t = { s with env := t.env, link := { s.link with rxq := t.link.rxq } }
  opens : t.env.opens = s.env.opens
  later : s.env.now ≤ t.env.now
  delivered : ∃ used, s.env.script = used ++ t.env.script ∧
    t.link.rxq = s.link.rxq ++ if s.link.tOpen then (used.map Turn.arrive).flatten else []

theorem EnvMove.refl (s : State) : EnvMove s s :=
  ⟨rfl, rfl, Nat.le_refl _, [], rfl, by simp⟩

theorem EnvMove.arrives {s t : State} (h : EnvMove s t) : ∃ bs, t.link.rxq = s.link.rxq ++ bs := by
  obtain ⟨_, _, h⟩ := h.delivered
  exact ⟨_, h⟩
theorem EnvMove.closed {s t : State} (h : EnvMove s t) (hc : s.link.tOpen = false) : t.link.rxq = s.link.rxq := by
  obtain ⟨_, _, h⟩ := h.delivered
  simpa [hc] using h
theorem EnvMove.script {s t : State} (h : EnvMove s t) : ∃ used, s.env.script = used ++ t.env.script := by
  obtain ⟨used, h, _⟩ := h.delivered
  exact ⟨used, h⟩
theorem EnvMove.tOpen {s t : State} (h : EnvMove s t) : t.link.tOpen = s.link.tOpen := by rw [h.same]
theorem EnvMove.tBaud {s t : State} (h : EnvMove s t) : t.link.tBaud = s.link.tBaud := by rw [h.same]
theorem EnvMove.txq {s t : State} (h : EnvMove s t) : t.link.txq = s.link.txq := by rw [h.same]
theorem EnvMove.rst {s t : State} (h : EnvMove s t) : t.link.rst = s.link.rst := by rw [h.same]
theorem EnvMove.pos {s t : State} (h : EnvMove s t) : t.pos = s.pos := by rw [h.same]
theorem EnvMove.run {s t : State} (h : EnvMove s t) : t.run = s.run := by rw [h.same]
theorem EnvMove.wrk {s t : State} (h : EnvMove s t) : t.wrk = s.wrk := by rw [h.same]
theorem EnvMove.err {s t : State} (h : EnvMove s t) : t.err = s.err := by rw [h.same]
theorem EnvMove.cfg {s t : State} (h : EnvMove s t) : t.cfg = s.cfg := by rw [h.same]
theorem EnvMove.rx {s t : State} (h : EnvMove s t) : t.rx = s.rx := by rw [h.same]
theorem EnvMove.img {s t : State} (h : EnvMove s t) : t.img = s.img := by rw [h.same]
theorem EnvMove.shm {s t : State} (h : EnvMove s t) : t.shm = s.shm := by rw [h.same]
theorem EnvMove.host {s t : State} (h : EnvMove s t) : t.host = s.host := by rw [h.same]
theorem EnvMove.trace {s t : State} (h : EnvMove s t) : t.trace = s.trace := by rw [h.same]
theorem EnvMove.ret {s t : State} (h : EnvMove s t) : t.ret = s.ret := by rw [h.same]
theorem EnvMove.link {s t : State} (h : EnvMove s t) : t.link = { s.link with rxq := t.link.rxq } := by
  rw [h.same]

theorem EnvMove.trans {s t u : State} (h : EnvMove s t) (k : EnvMove t u) : EnvMove s u where
  same := by
    rw [k.same, h.link, h.pos, h.run, h.wrk, h.err, h.cfg, h.rx, h.img, h.shm, h.host, h.trace, h.ret]
  opens := k.opens.trans h.opens
  later := h.later.trans k.later
  delivered := by
    obtain ⟨a, ha, hq⟩ := h.delivered
    obtain ⟨b, hb, hr⟩ := k.delivered
    refine ⟨a ++ b, by rw [ha, hb, List.append_assoc], ?_⟩
    rw [hr, hq, h.tOpen]
    cases s.link.tOpen <;> simp

/-- One turn taken from the head of the script. -/
theorem applyTurn_move {t : Turn} {r : List Turn} {s : State} (h : s.env.script = t :: r) :
    EnvMove s (applyTurn t r s) where
  same := by
    cases ho : s.link.tOpen <;> simp [applyTurn, ho]
    exact (congrArg (fun b => ({ s.link with tOpen := b } : Link)) ho)
  opens := rfl
  later := Nat.le_add_right _ _
  delivered := ⟨[t], by simp [h], by cases ho : s.link.tOpen <;> simp [ho]⟩

theorem envTurn_move (s : State) : EnvMove s (envTurn s) := by
  unfold envTurn
  split
  · exact EnvMove.refl s
  · next h => exact applyTurn_move h

theorem absorbTurns_move (l : List Turn) (s : State) (h : s.env.script = l) : EnvMove s (absorbTurns l s) := by
  induction l generalizing s with
  | nil => exact EnvMove.refl s
  | cons t r ih =>
    unfold absorbTurns
    split
    · exact (applyTurn_move h).trans (ih _ rfl)
    · exact EnvMove.refl s

theorem absorbNow_move (s : State) : EnvMove s (absorbNow s) := absorbTurns_move _ _ rfl

theorem waitTurns_move (target : Nat) (l : List Turn) (s : State) (h : s.env.script = l) :
    EnvMove s (waitTurns target l s) := by
  induction l generalizing s with
  | nil =>
    unfold waitTurns
    split
    · next hlt => exact ⟨rfl, rfl, Nat.le_of_lt hlt, [], rfl, by simp⟩
    · exact EnvMove.refl s
  | cons t r ih =>
    unfold waitTurns
    split
    · exact EnvMove.refl s
    · exact (applyTurn_move h).trans (ih _ rfl)

theorem waitUntil_move (target : Nat) (s : State) : EnvMove s (waitUntil target s) := waitTurns_move _ _ _ rfl

/-- A wait is a lower bound (40_transport.md R106). -/
theorem waitTurns_reaches (target : Nat) (l : List Turn) (s : State) : target ≤ (waitTurns target l s).env.now := by
  induction l generalizing s with
  | nil =>
    unfold waitTurns
    split
    · exact Nat.le_refl _
    · next h => exact Nat.le_of_not_lt h
  | cons t r ih =>
    unfold waitTurns
    split
    · next h => exact h
    · exact ih _

theorem waitUntil_reaches (target : Nat) (s : State) : target ≤ (waitUntil target s).env.now :=
  waitTurns_reaches _ _ _

theorem poll_move (n t t0 : Nat) (k : Nat) (s : State) : EnvMove s (poll n t t0 k s).1 := by
  induction k generalizing s with
  | zero => exact EnvMove.refl s
  | succ k ih =>
    unfold poll
    split
    · exact EnvMove.refl s
    split
    · exact absorbNow_move s
    split
    · exact absorbNow_move s
    · exact ((absorbNow_move s).trans (waitUntil_move _ _)).trans (ih _)

/-- A read that succeeds finds its bytes; one that fails does not, and with enough polls not before its deadline
(40_transport.md R107). -/
theorem poll_true {n t t0 k : Nat} {s : State} (h : (poll n t t0 k s).2 = true) :
    n ≤ (poll n t t0 k s).1.link.rxq.length := by
  induction k generalizing s with
  | zero => simp [poll] at h
  | succ k ih =>
    unfold poll at h ⊢
    split at h
    · next h1 => simp [h1]
    · next h1 =>
      split at h
      · next h2 => simp [h1, h2]
      · next h2 =>
        split at h
        · simp at h
        · next h3 => simp only [h1, h2, h3, if_false]; exact ih h

theorem poll_false {n t t0 k : Nat} {s : State} (hk : t ≤ s.env.now - t0 + k) (h0 : t0 ≤ s.env.now)
    (h : (poll n t t0 (k + 1) s).2 = false) :
    (poll n t t0 (k + 1) s).1.link.rxq.length < n ∧ t ≤ (poll n t t0 (k + 1) s).1.env.now - t0 := by
  induction k generalizing s with
  | zero =>
    have hn := (absorbNow_move s).later
    unfold poll at h ⊢
    split at h
    · simp at h
    · next h1 =>
      split at h
      · simp at h
      · next h2 =>
        have h3 : t ≤ (absorbNow s).env.now - t0 := by omega
        simp only [h1, h2, h3, if_false, if_true]
        exact ⟨by omega, trivial⟩
  | succ k ih =>
    have hn := (absorbNow_move s).later
    unfold poll at h ⊢
    split at h
    · simp at h
    · next h1 =>
      split at h
      · simp at h
      · next h2 =>
        split at h
        · next h3 => simp only [h1, h2, h3, if_false, if_true]; exact ⟨by omega, trivial⟩
        · next h3 =>
          have hw := waitUntil_reaches ((absorbNow s).env.now + pollStep s) (absorbNow s)
          have hp : 1 ≤ pollStep s := Nat.le_max_left _ _
          simp only [h1, h2, h3, if_false]
          exact ih (by omega) (by omega) h

/-- The verdict of a `Read` (40_transport.md R107): its bytes are there, or fewer are and the deadline has passed. -/
theorem readVerdict_spec (n t : Nat) (s : State) :
    EnvMove s (readVerdict n t s).1 ∧
    ((readVerdict n t s).2 = true → n ≤ (readVerdict n t s).1.link.rxq.length) ∧
    ((readVerdict n t s).2 = false →
      (readVerdict n t s).1.link.rxq.length < n ∧
      (envTurn s).env.now + t ≤ (readVerdict n t s).1.env.now) := by
  refine ⟨(envTurn_move s).trans (poll_move _ _ _ _ _), poll_true, fun h => ?_⟩
  obtain ⟨h1, h2⟩ := poll_false (by omega) (Nat.le_refl _) h
  have h3 := (poll_move n t (envTurn s).env.now (t + 1) (envTurn s)).later
  exact ⟨h1, by unfold readVerdict; omega⟩

/-- Bytes that are already queued after the event's turn are taken at once (40_transport.md R107, corner case b). -/
theorem readVerdict_ready {n t : Nat} {s : State} (h : n ≤ (envTurn s).link.rxq.length) :
    readVerdict n t s = (envTurn s, true) := by
  simp [readVerdict, poll, h]

end Sys2Proof.Machine
end

