-- ==== Sys2Proof/Laws/Memory.lean ====
section
/-! SUPPORT. The laws of the input memories (20_memory.md R51): every operation keeps the canonical form, and a read after a
write gives what was written. -/

namespace Sys2Proof.Machine

-- One lemma after another: many small proofs at once would take a thread each.
set_option Elab.async false

@[simp] theorem memory_wf_nil : Memory.wf [] = true := rfl

/-- A canonical memory is one whose rest is canonical and lies above its first offset. -/
theorem memory_wf_cons (k : Nat) (v : Byte) (m : Memory) :
    Memory.wf ((k, v) :: m) = true ↔ (∀ x ∈ m, k < x.1) ∧ Memory.wf m = true := by
  simp only [Memory.wf, List.map_cons, List.pairwise_cons, decide_eq_true_eq, List.mem_map,
    forall_exists_index, and_imp, forall_apply_eq_imp_iff₂]

/-- The offsets of a memory after a byte has been supplied. -/
theorem memSet_offsets {m : Memory} {a : Nat} {v : Byte} {x : Host.Cell} (h : x ∈ memSet m a v) :
    x.1 = a ∨ ∃ y ∈ m, y.1 = x.1 := by
  induction m with
  | nil => simp only [memSet, List.mem_singleton] at h; subst h; exact .inl rfl
  | cons kv r ih =>
    obtain ⟨k, w⟩ := kv
    simp only [memSet] at h
    split at h
    · rcases List.mem_cons.1 h with rfl | h
      · exact .inl rfl
      · exact .inr ⟨x, h, rfl⟩
    split at h
    · rcases List.mem_cons.1 h with rfl | h
      · exact .inl rfl
      · exact .inr ⟨x, List.mem_cons_of_mem _ h, rfl⟩
    · rcases List.mem_cons.1 h with rfl | h
      · exact .inr ⟨_, List.mem_cons_self, rfl⟩
      · rcases ih h with h | ⟨y, hy, he⟩
        · exact .inl h
        · exact .inr ⟨y, List.mem_cons_of_mem _ hy, he⟩

/-- Supplying a byte keeps the canonical form. -/
theorem memSet_wf {m : Memory} (a : Nat) (v : Byte) (h : Memory.wf m = true) : Memory.wf (memSet m a v) = true := by
  induction m with
  | nil => rfl
  | cons kv r ih =>
    obtain ⟨k, w⟩ := kv
    have hc := (memory_wf_cons k w r).1 h
    simp only [memSet]
    split
    · next hlt =>
      refine (memory_wf_cons _ _ _).2 ⟨fun x hx => ?_, h⟩
      rcases List.mem_cons.1 hx with rfl | hx
      · exact hlt
      · exact Nat.lt_trans hlt (hc.1 x hx)
    split
    · next he => subst he; exact (memory_wf_cons _ _ _).2 hc
    · next h1 h2 =>
      refine (memory_wf_cons _ _ _).2 ⟨fun x hx => ?_, ih hc.2⟩
      rcases memSet_offsets hx with hx | ⟨y, hy, he⟩
      · omega
      · exact he ▸ hc.1 y hy

theorem memGet_below {m : Memory} {a : Nat} (h : ∀ x ∈ m, a < x.1) : memGet m a = none := by
  induction m with
  | nil => rfl
  | cons kv r ih =>
    obtain ⟨k, w⟩ := kv
    have h1 := h _ List.mem_cons_self
    have h2 : k ≠ a := by simp only at h1; omega
    simp only [memGet, h2, if_false]
    exact ih fun x hx => h x (List.mem_cons_of_mem _ hx)

/-- Reading after supplying a byte. -/
theorem memGet_memSet (m : Memory) (a b : Nat) (v : Byte) :
    memGet (memSet m a v) b = if b = a then some v else memGet m b := by
  induction m with
  | nil => simp only [memSet, memGet, eq_comm]
  | cons kv r ih =>
    obtain ⟨k, w⟩ := kv
    simp only [memSet]
    split
    · simp only [memGet, eq_comm]
    split
    · next he =>
      subst he
      by_cases hb : b = a
      · simp [memGet, hb]
      · have hb' : a ≠ b := fun e => hb e.symm
        simp [memGet, hb, hb']
    · next h1 h2 =>
      by_cases hk : k = b
      · subst hk
        have : k ≠ a := fun e => h2 e.symm
        simp [memGet, this]
      · simp only [memGet, hk, if_false]; exact ih

/-- `MemRead` of a piece is the piece of the `MemRead`. -/
theorem memRead_append {m : Memory} {a n k : Nat} :
    memRead m a (n + k) = (memRead m a n).bind fun l => (memRead m (a + n) k).map (l ++ ·) := by
  induction n generalizing a with
  | zero => simp [memRead]
  | succ n ih =>
    rw [Nat.succ_add, memRead, ih, memRead, show a + 1 + n = a + (n + 1) by omega]
    cases memGet m a <;> cases memRead m (a + 1) n <;> cases memRead m (a + (n + 1)) k <;> rfl

theorem memRead_length {m : Memory} {a n : Nat} {l : List Byte} (h : memRead m a n = some l) : l.length = n := by
  induction n generalizing a l with
  | zero => cases h; rfl
  | succ n ih =>
    simp only [memRead] at h
    split at h
    · next h1 h2 => cases h; simp [ih h2]
    · cases h

/-- The bytes of a piece of what `MemRead` gives. -/
theorem memRead_piece {m : Memory} {n : Nat} {l : List Byte} (h : memRead m 0 n = some l) (a k : Nat)
    (hk : a + k ≤ n) : memRead m a k = some ((l.drop a).take k) := by
  obtain ⟨r, rfl⟩ := Nat.exists_eq_add_of_le hk
  rw [memRead_append, memRead_append, Nat.zero_add, Nat.zero_add] at h
  cases h1 : memRead m 0 a with
  | none => simp [h1] at h
  | some l1 =>
    cases h2 : memRead m a k with
    | none => simp [h1, h2] at h
    | some l2 =>
      cases h3 : memRead m (a + k) r with
      | none => simp [h1, h2, h3] at h
      | some l3 =>
        simp only [h1, h2, h3, Option.bind_some, Option.map_some, Option.some.injEq] at h
        have e1 := memRead_length h1
        have e2 := memRead_length h2
        subst h
        rw [List.append_assoc, List.drop_left' e1, List.take_left' e2]

end Sys2Proof.Machine
end

