-- ==== Sys2Proof/Laws/Ops.lean ====
section
/-! SUPPORT. One lemma for each shared operation that says once everything it can do (40_transport.md R100 to R109,
60_exceptions.md R226), cited instead of unfolding it. -/

namespace Sys2Proof.Machine

-- One lemma after another: many small proofs at once would take a thread each.
set_option Elab.async false

/-! ### Outcomes -/

@[simp] theorem andThen_ok (s : State) (k : State → Res) : (Res.ok s).andThen k = k s := rfl
@[simp] theorem andThen_err (e : ErrInfo) (s : State) (k : State → Res) : (Res.err e s).andThen k = .err e s := rfl
@[simp] theorem andThen_fault (f : Fault) (k : State → Res) : (Res.fault f).andThen k = .fault f := rfl
@[simp] theorem andThen_refused (x : Refusal) (k : State → Res) : (Res.refused x).andThen k = .refused x := rfl
@[simp] theorem map_ok (s : State) (f : State → State) : (Res.ok s).map f = .ok (f s) := rfl
@[simp] theorem map_err (e : ErrInfo) (s : State) (f : State → State) : (Res.err e s).map f = .err e s := rfl
@[simp] theorem map_fault (x : Fault) (f : State → State) : (Res.fault x).map f = .fault x := rfl
@[simp] theorem map_refused (x : Refusal) (f : State → State) : (Res.refused x).map f = .refused x := rfl
@[simp] theorem settle_ok (s : State) : (Res.ok s).settle = .next s := rfl
@[simp] theorem settle_err (e : ErrInfo) (s : State) : (Res.err e s).settle = .next (enterFailed e s) := rfl
@[simp] theorem settle_fault (f : Fault) : (Res.fault f).settle = .fault f := rfl
@[simp] theorem settle_refused (x : Refusal) : (Res.refused x).settle = .refused x := rfl

theorem andThen_assoc (r : Res) (k l : State → Res) : (r.andThen k).andThen l = r.andThen fun s => (k s).andThen l := by
  cases r <;> rfl

theorem map_andThen (r : Res) (f : State → State) (k : State → Res) : (r.map f).andThen k = r.andThen fun s => k (f s) := by
  cases r <;> rfl

theorem andThen_map (r : Res) (k : State → Res) (f : State → State) : (r.andThen k).map f = r.andThen fun s => (k s).map f := by
  cases r <;> rfl

/-- An operation gives a next state when it ends normally or raises an error. -/
theorem settle_next {r : Res} {t : State} (h : r.settle = .next t) :
    r = .ok t ∨ ∃ e s, r = .err e s ∧ t = enterFailed e s := by
  cases r with
  | ok s => cases h; exact .inl rfl
  | err e s => cases h; exact .inr ⟨e, s, rfl, rfl⟩
  | fault f => cases h
  | refused x => cases h

@[simp] theorem requireOpen_open {s : State} {k : Res} (h : s.link.tOpen = true) : requireOpen s k = k := by
  simp [requireOpen, h]
@[simp] theorem requireOpen_closed {s : State} {k : Res} (h : s.link.tOpen = false) :
    requireOpen s k = .refused .transportClosed := by simp [requireOpen, h]

/-! ### Buffers -/

theorem clip_fits {l : List Byte} (h : l.length ≤ 11) : clip l = l := by
  simp only [clip, Config.bufferBytes, h, if_true]

theorem clip_length (l : List Byte) : (clip l).length ≤ 11 := by
  unfold clip Config.bufferBytes
  split
  · assumption
  · rw [List.length_take]; exact Nat.min_le_left _ _

theorem rxBuffer_fits {l : List Byte} (h : l.length ≤ 11) :
    rxBuffer l = { rxb := l, rxn := BitVec.ofNat 4 l.length } := by simp [rxBuffer, clip_fits h]

theorem rxBuffer_count (l : List Byte) :
    (rxBuffer l).rxb.length ≤ 11 ∧ (rxBuffer l).rxn.toNat = (rxBuffer l).rxb.length := by
  have h := clip_length l
  refine ⟨h, ?_⟩
  simp only [rxBuffer, BitVec.toNat_ofNat]
  omega

/-! ### The primitives on an open transport -/

theorem opSetReset_open (a : Bool) {s : State} (h : s.link.tOpen = true) :
    opSetReset a s = .ok { envTurn s with
      link := { (envTurn s).link with rst := if a then .asserted else .deasserted }
      trace := s.trace ++ [.setReset a] } := by
  simp [opSetReset, h, (envTurn_move s).trace]

theorem opDiscard_open {s : State} (h : s.link.tOpen = true) :
    opDiscard s = .ok { envTurn s with
      link := { (envTurn s).link with rxq := [], txq := [] }, trace := s.trace ++ [.discarded] } := by
  simp [opDiscard, h, (envTurn_move s).trace]

theorem opWrite_open (data : List Byte) {s : State} (h : s.link.tOpen = true) :
    opWrite data s = .ok { envTurn s with
      link := { (envTurn s).link with txq := [] }, trace := s.trace ++ data.map .tx } := by
  simp [opWrite, transmit, h, (envTurn_move s).trace]

theorem opSend_open (m : TxMsg) {s : State} (h : s.link.tOpen = true) :
    opSend m s = .ok { envTurn s with
      wrk := m.regs s.wrk, link := { (envTurn s).link with txq := [] }, trace := s.trace ++ m.bytes.map .tx } := by
  simp [opSend, transmit, h, (envTurn_move s).trace, (envTurn_move s).wrk]

/-- `Wait` moves time and the trace, and lets bytes arrive (40_transport.md R106). -/
theorem opWait_spec (ms : Nat) (s : State) :
    ∃ u, EnvMove s u ∧ (envTurn s).env.now + ms ≤ u.env.now ∧
      opWait ms s = { u with trace := s.trace ++ [.waited ms] } := by
  have h1 := envTurn_move s
  have h2 := waitUntil_move ((envTurn s).env.now + ms) (envTurn s)
  refine ⟨_, h1.trans h2, waitUntil_reaches _ _, ?_⟩
  simp only [opWait, (h1.trans h2).trace]

/-- `Close` (40_transport.md R102). -/
theorem opClose_open {s : State} (h : s.link.tOpen = true) : opClose s = closeLink (envTurn s) := by simp [opClose, h]
theorem opClose_closed {s : State} (h : s.link.tOpen = false) : opClose s = s := by simp [opClose, h]
@[simp] theorem opClose_tOpen (s : State) : (opClose s).link.tOpen = false := by
  unfold opClose; split <;> simp_all

/-- What `Read` does on an open transport (40_transport.md R107): it goes on with exactly the oldest `n` bytes, or raises the
timeout with all there are, fewer. -/
theorem opRead_open (c : Ctx) (n t : Nat) {s : State} (k : List Byte → State → Res) (h : s.link.tOpen = true) :
    ∃ u, EnvMove s u ∧
      ((n ≤ u.link.rxq.length ∧ opRead c n t s k = k (u.link.rxq.take n) (readTaken n t u)) ∨
       (u.link.rxq.length < n ∧ (envTurn s).env.now + t ≤ u.env.now ∧
        opRead c n t s k = .err { kind := .timeout, ctx := c, raw := u.link.rxq } (readPartial n t u))) := by
  obtain ⟨hm, ht, hf⟩ := readVerdict_spec n t s
  refine ⟨_, hm, ?_⟩
  simp only [opRead, requireOpen_open h]
  cases hv : (readVerdict n t s).2
  · obtain ⟨h1, h2⟩ := hf hv
    exact .inr ⟨h1, h2, by simp⟩
  · exact .inl ⟨ht hv, by simp⟩

/-- A read whose bytes are already queued (40_transport.md R107, corner case b). -/
theorem opRead_ready (c : Ctx) {n t : Nat} {s : State} (k : List Byte → State → Res) (h : s.link.tOpen = true)
    (hn : n ≤ (envTurn s).link.rxq.length) :
    opRead c n t s k = k ((envTurn s).link.rxq.take n) (readTaken n t (envTurn s)) := by
  simp only [opRead, requireOpen_open h, readVerdict_ready hn, if_true]

/-! ### What an event can do -/

/-- `t` differs from `s` by one or more events that ended normally or failed: the position, the run, the errors, the inputs and
the value returned are untouched, the transport stays as open as it was, and the trace grew. -/
structure EvMove (s t : State) : Prop where
  pos : t.pos = s.pos
  run : t.run = s.run
  err : t.err = s.err
  cfg : t.cfg = s.cfg
  img : t.img = s.img
  shm : t.shm = s.shm
  host : t.host = s.host
  ret : t.ret = s.ret
  opens : t.env.opens = s.env.opens
  later : s.env.now ≤ t.env.now
  tOpen : t.link.tOpen = s.link.tOpen
  tBaud : t.link.tBaud = s.link.tBaud
  txq : t.link.txq = s.link.txq ∨ t.link.txq = []
  closed : s.link.tOpen = false → t.link = s.link
  rx : t.rx = s.rx ∨ ∃ l, t.rx = rxBuffer l
  rem : t.wrk.rem = s.wrk.rem
  trace : ∃ es, t.trace = s.trace ++ es

theorem EvMove.trans {s t u : State} (h : EvMove s t) (k : EvMove t u) : EvMove s u where
  pos := k.pos.trans h.pos
  run := k.run.trans h.run
  err := k.err.trans h.err
  cfg := k.cfg.trans h.cfg
  img := k.img.trans h.img
  shm := k.shm.trans h.shm
  host := k.host.trans h.host
  ret := k.ret.trans h.ret
  opens := k.opens.trans h.opens
  later := h.later.trans k.later
  tOpen := k.tOpen.trans h.tOpen
  tBaud := k.tBaud.trans h.tBaud
  txq := by
    rcases k.txq with e | e
    · rcases h.txq with e' | e'
      · exact .inl (e.trans e')
      · exact .inr (e.trans e')
    · exact .inr e
  closed hc := (k.closed (h.tOpen.trans hc)).trans (h.closed hc)
  rx := by
    rcases k.rx with e | e
    · rw [e]; exact h.rx
    · exact .inr e
  rem := k.rem.trans h.rem
  trace := by
    obtain ⟨a, ha⟩ := h.trace
    obtain ⟨b, hb⟩ := k.trace
    exact ⟨a ++ b, by rw [hb, ha, List.append_assoc]⟩

theorem EnvMove.evMove {s t : State} (h : EnvMove s t) : EvMove s t where
  pos := h.pos
  run := h.run
  err := h.err
  cfg := h.cfg
  img := h.img
  shm := h.shm
  host := h.host
  ret := h.ret
  opens := h.opens
  later := h.later
  tOpen := h.tOpen
  tBaud := h.tBaud
  txq := .inl h.txq
  closed hc := by rw [h.link, h.closed hc]
  rx := .inl h.rx
  rem := by rw [h.wrk]
  trace := ⟨[], by simp [h.trace]⟩

theorem TxMsg.regs_rem (m : TxMsg) (w : WorkRegs) : (m.regs w).rem = w.rem := by cases m <;> rfl

theorem RxShape.regs_rem (sh : RxShape) (b : List Byte) (w : WorkRegs) : (sh.regs b w).rem = w.rem := by
  cases sh <;> simp only [RxShape.regs, validateCsum] <;> split <;> rfl

/-- How an event can end: normally, or, if it is a read, with a timeout or a rejected response that records the operation's
context; a refusal only on a closed transport, a fault only for want of an input byte. -/
inductive EvEnd (c : Ctx) (e : Ev) (s : State) : Res → Prop where
  | ok {t : State} (h : EvMove s t) : EvEnd c e s (.ok t)
  | err {i : ErrInfo} {t : State} (h : EvMove s t) (ho : s.link.tOpen = true) (hc : i.ctx = c)
    (hk : i.kind = .timeout ∨ i.kind = .protocol) (he : ∃ sh, e = .recv sh) : EvEnd c e s (.err i t)
  | fault (hf : (∃ n, e = .sendShim n ∧ memRead s.shm 0 n = none) ∨
      ∃ a o n, e = .sendPage a o n ∧ memRead s.img o n = none) : EvEnd c e s (.fault .unwrittenByte)
  | refused (ho : s.link.tOpen = false) : EvEnd c e s (.refused .transportClosed)

theorem opSend_end (c : Ctx) (e : Ev) (m : TxMsg) (s : State) : EvEnd c e s (opSend m s) := by
  cases ho : s.link.tOpen
  · simp only [opSend, requireOpen_closed ho]; exact .refused ho
  · rw [opSend_open m ho]
    have h := (envTurn_move s).evMove
    exact .ok { h with
      txq := .inr rfl, rem := TxMsg.regs_rem m s.wrk, closed := fun hc => by simp [ho] at hc
      trace := ⟨_, rfl⟩ }

theorem opRecv_end (c : Ctx) (sh : RxShape) (s : State) : EvEnd c (.recv sh) s (opRecv c sh s) := by
  cases ho : s.link.tOpen
  · simp only [opRecv, opRead, requireOpen_closed ho]; exact .refused ho
  · obtain ⟨u, hu, ⟨hn, hr⟩ | ⟨hn, -, hr⟩⟩ := opRead_open c sh.count s.cfg.tRead.toNat
      (fun b s1 =>
        let s2 := { s1 with wrk := sh.regs b s1.wrk }
        if sh.accepts b then .ok s2 else .err { kind := .protocol, ctx := c, raw := b } s2) ho
    · have h : EvMove s { readTaken sh.count s.cfg.tRead.toNat u with
          wrk := sh.regs (u.link.rxq.take sh.count) (readTaken sh.count s.cfg.tRead.toNat u).wrk } :=
        { hu.evMove with
          txq := .inl hu.txq, rx := .inr ⟨_, rfl⟩, closed := fun hc => by simp [ho] at hc
          rem := (RxShape.regs_rem _ _ _).trans (by rw [show (readTaken sh.count s.cfg.tRead.toNat u).wrk = u.wrk from rfl, hu.wrk])
          trace := ⟨_, congrArg (· ++ _) hu.trace⟩ }
      unfold opRecv
      rw [hr]
      simp only
      split
      · exact .ok h
      · exact .err h ho rfl (.inr rfl) ⟨sh, rfl⟩
    · unfold opRecv
      rw [hr]
      refine .err { hu.evMove with
        txq := .inl hu.txq, rx := .inr ⟨_, rfl⟩, closed := fun hc => by simp [ho] at hc
        trace := ⟨_, congrArg (· ++ _) hu.trace⟩ } ho rfl (.inl rfl) ⟨sh, rfl⟩

/-- One event (42_handshake.md to 44_flashprogrammer.md). -/
theorem runEv_end (c : Ctx) (e : Ev) (s : State) : EvEnd c e s (runEv c e s) := by
  cases e with
  | setReset a =>
    cases ho : s.link.tOpen
    · simp only [runEv, opSetReset, requireOpen_closed ho]; exact .refused ho
    · simp only [runEv, opSetReset_open a ho]
      exact .ok { (envTurn_move s).evMove with
        closed := fun hc => by simp [ho] at hc
        trace := ⟨_, rfl⟩ }
  | wait ms =>
    obtain ⟨u, hu, -, he⟩ := opWait_spec ms s
    simp only [runEv, he]
    exact .ok { hu.evMove with trace := ⟨_, rfl⟩ }
  | discard =>
    cases ho : s.link.tOpen
    · simp only [runEv, opDiscard, requireOpen_closed ho]; exact .refused ho
    · simp only [runEv, opDiscard_open ho]
      exact .ok { (envTurn_move s).evMove with
        txq := .inr rfl, closed := fun hc => by simp [ho] at hc
        trace := ⟨_, rfl⟩ }
  | send m => exact opSend_end c _ m s
  | sendShim n =>
    simp only [runEv]
    split
    · exact opSend_end c _ _ s
    · next h => exact .fault (.inl ⟨n, rfl, h⟩)
  | sendPage a o n =>
    simp only [runEv]
    split
    · exact opSend_end c _ _ s
    · next h => exact .fault (.inr ⟨a, o, n, rfl, h⟩)
  | recv sh => exact opRecv_end c sh s

/-! ### Taking an error (60_exceptions.md R226, 45_orchestrator.md R195, R196) -/

/-- `ERR_ADDR` is 0 when the operation records no address, and does not depend on `ADDR` then (10_state.md R25, R26). -/
theorem errAddress_unaddressed {e : ErrInfo} (h : e.ctx.addressed = false) (s : State) : errAddress e s = 0#32 := by
  simp [errAddress, h]

@[simp] theorem posCtx_addressed (p : Position) : (posCtx p).addressed = false := by
  unfold posCtx; cases p.st <;> rfl

/-- What taking an error leaves: the state `Failed` at the failing position, the record, a released transport if a run was in
progress, and the inputs as they were. -/
theorem enterFailed_spec (e : ErrInfo) (s : State) :
    (enterFailed e s).pos = { s.pos with st := .failed } ∧ (enterFailed e s).run = none ∧
    (enterFailed e s).err = (recordError e s).err ∧ (enterFailed e s).cfg = s.cfg ∧ (enterFailed e s).img = s.img ∧
    (enterFailed e s).shm = s.shm ∧ (enterFailed e s).host = s.host ∧ (enterFailed e s).ret = s.ret ∧
    (enterFailed e s).wrk = s.wrk ∧ (enterFailed e s).rx = s.rx ∧ (enterFailed e s).env.opens = s.env.opens ∧
    (s.busy = false → (enterFailed e s).link = s.link ∧ (enterFailed e s).trace = s.trace ∧ (enterFailed e s).env = s.env) ∧
    (s.busy = true → (enterFailed e s).link.tOpen = false ∧
      (s.link.tOpen = false → (enterFailed e s).link = s.link ∧ (enterFailed e s).trace = s.trace ∧
        (enterFailed e s).env = s.env) ∧
      (s.link.tOpen = true → (enterFailed e s).trace = s.trace ++ [.closed] ∧
        (enterFailed e s).link = { s.link with tOpen := false, rxq := [], txq := [], rst := .undriven } ∧
        (enterFailed e s).env = (envTurn s).env)) := by
  have hm := envTurn_move (recordError e s)
  have hb : (recordError e s).busy = s.busy := rfl
  unfold enterFailed release
  rw [hb]
  cases hs : s.busy
  · have hr : s.run = none := by simpa [State.busy] using hs
    simp [hr]
  · cases ho : s.link.tOpen
    · have : (recordError e s).link.tOpen = false := ho
      simp [opClose_closed this, ho]
    · have h1 : (recordError e s).link.tOpen = true := ho
      have h2 : (envTurn (recordError e s)).env = (envTurn s).env := by
        simp only [envTurn, recordError_env]; split <;> rfl
      simp [opClose_open h1, hm.pos, hm.cfg, hm.img, hm.shm, hm.host, hm.ret, hm.wrk, hm.rx, (envTurn_move s).opens, hm.trace, hm.tBaud,
        hm.err, h2]

/-- Taking an error on a closed transport releases nothing. -/
theorem enterFailed_closed (e : ErrInfo) {s : State} (h : s.link.tOpen = false) :
    (enterFailed e s).link = s.link ∧ (enterFailed e s).trace = s.trace ∧ (enterFailed e s).env = s.env := by
  have hs := enterFailed_spec e s
  cases hb : s.busy
  · exact hs.2.2.2.2.2.2.2.2.2.2.2.1 hb
  · exact (hs.2.2.2.2.2.2.2.2.2.2.2.2 hb).2.1 h

/-! ### `Open` (40_transport.md R101) -/

/-- What `Open` leaves apart from the link: the block's own registers and the inputs, and one answer of the environment
less. -/
structure OpenMove (s t : State) : Prop where
  pos : t.pos = s.pos
  run : t.run = s.run
  wrk : t.wrk = s.wrk
  err : t.err = s.err
  cfg : t.cfg = s.cfg
  rx : t.rx = s.rx
  img : t.img = s.img
  shm : t.shm = s.shm
  host : t.host = s.host
  ret : t.ret = s.ret
  env : t.env = { (envTurn s).env with opens := s.env.opens.tail }

/-- `Open` closes an open transport first; then the environment answers, and one whose answers have run out refuses
(log 10). -/
theorem opOpen_spec (port : List Byte) (baud : Word) (s : State) :
    ∃ t, OpenMove s t ∧
      t.trace = s.trace ++ (if s.link.tOpen then [.closed] else []) ++ [.opened port baud (s.env.opens.headD false)] ∧
      (s.env.opens.headD false = true → opOpen port baud s = .ok t ∧
        t.link = { tOpen := true, tBaud := baud, rxq := [], txq := [], rst := .undriven }) ∧
      (s.env.opens.headD false = false → opOpen port baud s = .err { kind := .io, ctx := ctxOpen, raw := [] } t ∧
        t.link.tOpen = false ∧
        t.link = if s.link.tOpen then { s.link with tOpen := false, rxq := [], txq := [], rst := .undriven } else s.link) := by
  have hm := envTurn_move s
  have hl := hm.evMove.closed
  have h2 : (if (envTurn s).link.tOpen = true then closeLink (envTurn s) else envTurn s).env.opens = s.env.opens := by
    split <;> simp [hm.opens]
  cases ha : s.env.opens.headD false
  · refine ⟨_, ?_, ?_, by simp, fun _ => ⟨by simp only [opOpen, h2, ha]; rfl, ?_, ?_⟩⟩
    · cases ho : s.link.tOpen <;>
        exact ⟨by simp [hm.tOpen, ho, hm.pos], by simp [hm.tOpen, ho, hm.run], by simp [hm.tOpen, ho, hm.wrk],
          by simp [hm.tOpen, ho, hm.err], by simp [hm.tOpen, ho, hm.cfg], by simp [hm.tOpen, ho, hm.rx],
          by simp [hm.tOpen, ho, hm.img], by simp [hm.tOpen, ho, hm.shm], by simp [hm.tOpen, ho, hm.host],
          by simp [hm.tOpen, ho, hm.ret], by simp [hm.tOpen, ho]⟩
    · cases ho : s.link.tOpen <;> simp [hm.tOpen, ho, hm.trace]
    · cases ho : s.link.tOpen <;> simp [hm.tOpen, ho]
    · cases ho : s.link.tOpen
      · simp [ho, hl ho]
      · simp [hm.tOpen, ho, hm.tBaud]
  · refine ⟨_, ?_, ?_, fun _ => ⟨by simp only [opOpen, h2, ha]; rfl, rfl⟩, by simp⟩
    · cases ho : s.link.tOpen <;>
        exact ⟨by simp [hm.tOpen, ho, hm.pos], by simp [hm.tOpen, ho, hm.run], by simp [hm.tOpen, ho, hm.wrk],
          by simp [hm.tOpen, ho, hm.err], by simp [hm.tOpen, ho, hm.cfg], by simp [hm.tOpen, ho, hm.rx],
          by simp [hm.tOpen, ho, hm.img], by simp [hm.tOpen, ho, hm.shm], by simp [hm.tOpen, ho, hm.host],
          by simp [hm.tOpen, ho, hm.ret], by simp [hm.tOpen, ho]⟩
    · cases ho : s.link.tOpen <;> simp [hm.tOpen, ho, hm.trace]

end Sys2Proof.Machine
end

