-- ==== Sys2Proof/Laws/Events.lean ====
section
/-! SUPPORT. Event lists (42_handshake.md to 44_flashprogrammer.md): how a list can end, and what it does exactly when the
environment answers every request at once. -/

namespace Sys2Proof.Machine

-- One lemma after another: many small proofs at once would take a thread each.
set_option Elab.async false

@[simp] theorem runEvents_nil (c : Ctx) (k : Nat) (s : State) : runEvents c k [] s = .ok s := rfl
@[simp] theorem runEvents_cons (c : Ctx) (k : Nat) (e : Ev) (es : List Ev) (s : State) :
    runEvents c k (e :: es) s = (runEv c e (setPh k s)).andThen (runEvents c (k + 1) es) := rfl

theorem runEvents_append (c : Ctx) (k : Nat) (es fs : List Ev) (s : State) :
    runEvents c k (es ++ fs) s = (runEvents c k es s).andThen (runEvents c (k + es.length) fs) := by
  induction es generalizing k s with
  | nil => rfl
  | cons e es ih =>
    simp only [List.cons_append, runEvents_cons, andThen_assoc]
    congr 1
    funext t
    rw [ih, List.length_cons, Nat.add_assoc, Nat.add_comm 1]

/-! ### How a list can end -/

/-- The state at another position. -/
def atPos (p : Position) (s : State) : State := { s with pos := p }

theorem EvMove.atPos {s t : State} (h : EvMove s t) (p : Position) : EvMove (atPos p s) (atPos p t) :=
  { h with pos := rfl }

/-- How an event list can end: as its events do, at the event's index. -/
inductive ListEnd (c : Ctx) (k : Nat) (es : List Ev) (s : State) : Res → Prop where
  | ok {t : State} (p : BitVec 4) (h : EvMove (atPos { s.pos with ph := p } s) t) : ListEnd c k es s (.ok t)
  | err {i : ErrInfo} {t : State} (j : Nat) (sh : RxShape) (hj : es[j]? = some (.recv sh)) (ho : s.link.tOpen = true)
    (h : EvMove (atPos { s.pos with ph := BitVec.ofNat 4 (k + j) } s) t) (hc : i.ctx = c)
    (hk : i.kind = .timeout ∨ i.kind = .protocol) : ListEnd c k es s (.err i t)
  | fault (hf : (∃ n, .sendShim n ∈ es ∧ memRead s.shm 0 n = none) ∨
      ∃ a o n, .sendPage a o n ∈ es ∧ memRead s.img o n = none) : ListEnd c k es s (.fault .unwrittenByte)
  | refused (ho : s.link.tOpen = false) : ListEnd c k es s (.refused .transportClosed)

theorem runEvents_end (c : Ctx) (k : Nat) (es : List Ev) (s : State) : ListEnd c k es s (runEvents c k es s) := by
  induction es generalizing k s with
  | nil => exact .ok s.pos.ph ((EnvMove.refl s).evMove)
  | cons e es ih =>
    rw [runEvents_cons]
    have hp : setPh k s = atPos { s.pos with ph := BitVec.ofNat 4 k } s := rfl
    cases hr : runEv c e (setPh k s) with
    | ok u =>
      have he := runEv_end c e (setPh k s)
      rw [hr] at he
      cases he with
      | ok hm =>
        rw [andThen_ok]
        have hi := ih (k + 1) u
        cases hi' : runEvents c (k + 1) es u with
        | ok t =>
          rw [hi'] at hi
          cases hi with
          | ok p h =>
            refine .ok p ?_
            have := (hm.atPos { s.pos with ph := p }).trans (hm.pos ▸ h)
            exact this
        | err i t =>
          rw [hi'] at hi
          cases hi with
          | err j sh hj ho h hc hk =>
            refine .err (j + 1) sh (by simpa using hj) (hm.tOpen ▸ ho) ?_ hc hk
            rw [show k + (j + 1) = k + 1 + j by omega]
            rw [hm.pos] at h
            exact (hm.atPos { s.pos with ph := BitVec.ofNat 4 (k + 1 + j) }).trans h
        | fault f =>
          rw [hi'] at hi
          cases hi with
          | fault hf =>
            refine .fault ?_
            rcases hf with ⟨n, h1, h2⟩ | ⟨a, o, n, h1, h2⟩
            · exact .inl ⟨n, List.mem_cons_of_mem _ h1, by rw [← h2, hm.shm]; rfl⟩
            · exact .inr ⟨a, o, n, List.mem_cons_of_mem _ h1, by rw [← h2, hm.img]; rfl⟩
        | refused x =>
          rw [hi'] at hi
          cases hi with
          | refused ho => exact .refused (by rw [← ho, hm.tOpen]; rfl)
    | err i t =>
      have he := runEv_end c e (setPh k s)
      rw [hr] at he
      cases he with
      | err h ho hc hk he =>
        obtain ⟨sh, rfl⟩ := he
        exact .err 0 sh rfl ho (hp ▸ h) hc hk
    | fault f =>
      have he := runEv_end c e (setPh k s)
      rw [hr] at he
      cases he with
      | fault hf =>
        refine .fault ?_
        rcases hf with ⟨n, rfl, h2⟩ | ⟨a, o, n, rfl, h2⟩
        · exact .inl ⟨n, List.mem_cons_self, h2⟩
        · exact .inr ⟨a, o, n, List.mem_cons_self, h2⟩
    | refused x =>
      have he := runEv_end c e (setPh k s)
      rw [hr] at he
      cases he with
      | refused ho => exact .refused ho

/-! ### The determined part of an event -/

/-- The time an event takes in `evTurns`. -/
def evTime : Ev → Nat
  | .wait ms => ms
  | _ => 0

/-- The link after an event whose request is answered at once. -/
def evLink : Ev → Link → Link
  | .setReset a, l => { l with rst := if a then .asserted else .deasserted }
  | .discard, l => { l with rxq := [], txq := [] }
  | .send _, l | .sendShim _, l | .sendPage _ _ _, l => { l with txq := [] }
  | .wait _, l | .recv _, l => l

/-- The working registers after it. -/
def evWrk (ans : RxShape → List Byte) : Ev → WorkRegs → WorkRegs
  | .send m, w => m.regs w
  | .recv sh, w => sh.regs (ans sh) w
  | _, w => w

/-- The receive buffer after it. -/
def evRx (ans : RxShape → List Byte) : Ev → RxBuffer → RxBuffer
  | .recv sh, _ => { rxb := ans sh, rxn := BitVec.ofNat 4 sh.count }
  | _, r => r

/-- The state after an event whose request is answered at once. -/
def answered (ans : RxShape → List Byte) (e : Ev) (s : State) : State :=
  { s with
    env := { s.env with now := s.env.now + evTime e, script := s.env.script.drop (evTurns ans e).length }
    link := evLink e s.link
    wrk := evWrk ans e s.wrk
    rx := evRx ans e s.rx
    trace := s.trace ++ evTrace ans s.cfg.tRead.toNat e }

/-- An event with its data given. -/
def Ev.direct : Ev → Bool
  | .sendShim _ | .sendPage _ _ _ => false
  | _ => true

/-- A read. -/
def Ev.isRecv : Ev → Bool
  | .recv _ => true
  | _ => false

/-! ### Events that wait for no answer, in any environment -/

/-- What an event or a list of events that reads nothing leaves: everything but time and arrivals is determined. -/
structure SilentMove (es : List Ev) (s t : State) : Prop where
  move : EvMove s t
  trace : t.trace = s.trace ++ traceOf (fun _ => []) 0 es
  time : s.env.now + (es.map evTime).sum ≤ t.env.now
  link : t.link = { es.foldl (fun l e => evLink e l) s.link with rxq := t.link.rxq }
  wrk : t.wrk = es.foldl (fun w e => evWrk (fun _ => []) e w) s.wrk
  rx : t.rx = s.rx

/-- One event that reads nothing, on an open transport. -/
theorem runEv_silent (c : Ctx) {e : Ev} {s : State} (hd : e.direct = true) (hr : e.isRecv = false)
    (ho : s.link.tOpen = true) : ∃ t, runEv c e s = .ok t ∧ SilentMove [e] s t := by
  have hm := envTurn_move s
  have he := runEv_end c e s
  cases e with
  | setReset a =>
    rw [runEv, opSetReset_open a ho] at he
    cases he with
    | ok h =>
      refine ⟨_, opSetReset_open a ho, h, by simp [traceOf, evTrace], by simpa [evTime] using hm.later, ?_, hm.wrk, hm.rx⟩
      simp [evLink, hm.tOpen, hm.tBaud, hm.txq]
  | wait ms =>
    obtain ⟨u, hu, hn, hw⟩ := opWait_spec ms s
    rw [runEv, hw] at he
    cases he with
    | ok h =>
      refine ⟨_, congrArg Res.ok hw, h, by simp [traceOf, evTrace], ?_, hu.link, hu.wrk, hu.rx⟩
      have := hm.later
      simp [evTime]
      omega
  | discard =>
    rw [runEv, opDiscard_open ho] at he
    cases he with
    | ok h =>
      refine ⟨_, opDiscard_open ho, h, by simp [traceOf, evTrace], by simpa [evTime] using hm.later, ?_, hm.wrk, hm.rx⟩
      simp [evLink, hm.tOpen, hm.tBaud, hm.rst]
  | send m =>
    rw [runEv, opSend_open m ho] at he
    cases he with
    | ok h =>
      refine ⟨_, opSend_open m ho, h, by simp [traceOf, evTrace], by simpa [evTime] using hm.later, ?_, rfl, hm.rx⟩
      simp [evLink, hm.tOpen, hm.tBaud, hm.rst]
  | sendShim n => cases hd
  | sendPage a o n => cases hd
  | recv sh => cases hr

theorem SilentMove.cons {e : Ev} {es : List Ev} {s t u : State} (h : SilentMove [e] s t) (k : SilentMove es t u) :
    SilentMove (e :: es) s u where
  move := h.move.trans k.move
  trace := by rw [k.trace, h.trace]; simp [traceOf]
  time := by have h1 := h.time; have h2 := k.time; simp at h1 ⊢; omega
  link := by
    have hq : ∀ (fs : List Ev) (l : Link) (q : List Byte),
        { fs.foldl (fun l e => evLink e l) l with rxq := ([] : List Byte) }
          = { fs.foldl (fun l e => evLink e l) { l with rxq := q } with rxq := [] } := by
      intro fs
      induction fs with
      | nil => intros; rfl
      | cons f fs ih =>
        intro l q
        simp only [List.foldl_cons]
        cases f <;> simp only [evLink] <;> exact ih _ _
    have h1 := hq es (evLink e s.link) t.link.rxq
    rw [k.link]
    conv_lhs => rw [h.link]
    simp only [List.foldl_cons, List.foldl_nil] at h1 ⊢
    have h2 := congrArg (fun l : Link => { l with rxq := u.link.rxq }) h1
    exact h2.symm
  wrk := by rw [k.wrk, h.wrk]; rfl
  rx := k.rx.trans h.rx

/-- A list of events that reads nothing, on an open transport: it cannot fail. -/
theorem runEvents_silent (c : Ctx) (k : Nat) {es : List Ev} {s : State}
    (hd : ∀ e ∈ es, e.direct = true ∧ e.isRecv = false) (ho : s.link.tOpen = true) :
    ∃ t p, runEvents c k es s = .ok t ∧ SilentMove es (atPos { s.pos with ph := p } s) t := by
  induction es generalizing k s with
  | nil =>
    refine ⟨s, s.pos.ph, rfl, (EnvMove.refl s).evMove, ?_, ?_, rfl, rfl, rfl⟩
    · simp [traceOf, atPos]
    · simp [atPos]
  | cons e es ih =>
    obtain ⟨h1, h2⟩ := hd e List.mem_cons_self
    obtain ⟨u, hu, hm⟩ := runEv_silent c (s := setPh k s) h1 h2 ho
    obtain ⟨t, p, ht, hk⟩ := ih (k + 1) (s := u) (fun x hx => hd x (List.mem_cons_of_mem _ hx)) (hm.move.tOpen.trans ho)
    refine ⟨t, p, by rw [runEvents_cons, hu, andThen_ok, ht], ?_⟩
    rw [hm.move.pos] at hk
    exact SilentMove.cons (t := atPos { s.pos with ph := p } u)
      ⟨hm.move.atPos { s.pos with ph := p }, hm.trace, hm.time, hm.link, hm.wrk, hm.rx⟩ hk

/-! ### Events whose request is answered at once -/

theorem envTurn_quiet {s : State} {r : List Turn} (h : s.env.script = quiet :: r) :
    envTurn s = { s with env := { s.env with script := r } } := by
  cases ho : s.link.tOpen <;> simp [envTurn, h, applyTurn, quiet, ho]
  rw [← ho]

theorem RxShape.count_le (sh : RxShape) : sh.count ≤ 11 := by cases sh <;> decide

/-- One event, answered. -/
theorem runEv_answered (c : Ctx) {ans : RxShape → List Byte} (ha : goodAnswers ans) {e : Ev} {s : State} {r : List Turn}
    (hd : e.direct = true) (ho : s.link.tOpen = true) (hq : e.isRecv = true → s.link.rxq = [])
    (hs : s.env.script = evTurns ans e ++ r) : runEv c e s = .ok (answered ans e s) := by
  cases e with
  | setReset a =>
    have h := envTurn_quiet (show s.env.script = quiet :: r from hs)
    simp [runEv, opSetReset_open a ho, h, answered, evTime, evLink, evWrk, evRx, evTrace, evTurns, hs]
  | wait ms =>
    by_cases h0 : ms = 0
    · subst h0
      have h := envTurn_quiet (show s.env.script = quiet :: r from hs)
      have h2 : waitUntil s.env.now { s with env := { s.env with script := r } } =
          { s with env := { s.env with script := r } } := by
        cases r <;> simp [waitUntil, waitTurns]
      simp [runEv, opWait, h, h2, answered, evTime, evLink, evWrk, evRx, evTrace, evTurns, hs]
    · have hs' : s.env.script = quiet :: { elapse := ms, arrive := [] } :: r := by simp [hs, evTurns, h0]
      have h := envTurn_quiet hs'
      have h2 : waitUntil (s.env.now + ms) { s with env := { s.env with script := { elapse := ms, arrive := [] } :: r } } =
          { s with env := { s.env with now := s.env.now + ms, script := r } } := by
        cases r <;> simp [waitUntil, waitTurns, h0, applyTurn, ho] <;> rw [← ho]
      simp [runEv, opWait, h, h2, answered, evTime, evLink, evWrk, evRx, evTrace, evTurns, hs', h0]
  | discard =>
    have h := envTurn_quiet (show s.env.script = quiet :: r from hs)
    simp [runEv, opDiscard_open ho, h, answered, evTime, evLink, evWrk, evRx, evTrace, evTurns, hs]
  | send m =>
    have h := envTurn_quiet (show s.env.script = quiet :: r from hs)
    simp [runEv, opSend_open m ho, h, answered, evTime, evLink, evWrk, evRx, evTrace, evTurns, hs]
  | sendShim n => simp [Ev.direct] at hd
  | sendPage a o n => simp [Ev.direct] at hd
  | recv sh =>
    have h1 : envTurn s = { s with env := { s.env with script := r }, link := { s.link with rxq := ans sh } } := by
      have hs' : s.env.script = { elapse := 0, arrive := ans sh } :: r := hs
      have hq' := hq rfl
      simp [envTurn, hs', applyTurn, ho, hq']
    obtain ⟨hl, hacc⟩ := ha sh
    have h2 : sh.count ≤ (envTurn s).link.rxq.length := by simp [h1, hl]
    have h3 : (ans sh).take sh.count = ans sh := by rw [← hl]; exact List.take_length
    have h4 : (ans sh).drop sh.count = [] := by rw [← hl]; exact List.drop_length
    simp only [runEv, opRecv]
    rw [opRead_ready c _ ho h2]
    have hq' := hq rfl
    have hf : (ans sh).length ≤ 11 := hl ▸ sh.count_le
    have hl2 : ({ s.link with rxq := [] } : Link) = s.link := by rw [← hq']
    simp [h1, h3, h4, hacc, answered, evTime, evLink, evWrk, evRx, evTrace, evTurns, hs, readTaken, rxBuffer_fits hf, hl,
      hl2]

/-- A list of events, each answered: `PH` at its last event. -/
def answeredAll (ans : RxShape → List Byte) : Nat → List Ev → State → State
  | _, [], s => s
  | k, e :: es, s => answeredAll ans (k + 1) es (answered ans e (setPh k s))

/-- What a list of answered events leaves, field by field. -/
theorem answeredAll_fields (ans : RxShape → List Byte) (k : Nat) (es : List Ev) (s : State) :
    (answeredAll ans k es s).trace = s.trace ++ traceOf ans s.cfg.tRead.toNat es ∧
    (answeredAll ans k es s).env =
      { s.env with
        now := s.env.now + (es.map evTime).sum, script := s.env.script.drop (scriptOf ans es).length } ∧
    (answeredAll ans k es s).link = es.foldl (fun l e => evLink e l) s.link ∧
    (answeredAll ans k es s).wrk = es.foldl (fun w e => evWrk ans e w) s.wrk ∧
    (answeredAll ans k es s).rx = es.foldl (fun b e => evRx ans e b) s.rx ∧
    (answeredAll ans k es s).cfg = s.cfg ∧ (answeredAll ans k es s).run = s.run ∧
    (answeredAll ans k es s).err = s.err ∧ (answeredAll ans k es s).img = s.img ∧
    (answeredAll ans k es s).shm = s.shm ∧ (answeredAll ans k es s).host = s.host ∧
    (answeredAll ans k es s).ret = s.ret ∧
    ∃ p, (answeredAll ans k es s).pos = { s.pos with ph := p } := by
  induction es generalizing k s with
  | nil => simp [answeredAll, traceOf, scriptOf]; exact ⟨s.pos.ph, rfl⟩
  | cons e es ih =>
    obtain ⟨h1, h2, h3, h4, h5, h6, h7, h8, h9, h10, h11, h12, p, h13⟩ := ih (k + 1) (answered ans e (setPh k s))
    refine ⟨?_, ?_, h3, h4, h5, h6, h7, h8, h9, h10, h11, h12, p, h13⟩
    · rw [answeredAll, h1]; simp [answered, traceOf]
    · rw [answeredAll, h2]; simp [answered, scriptOf, Nat.add_assoc]

/-- The link stays open through a list of events. -/
theorem foldl_evLink_tOpen (es : List Ev) (l : Link) : (es.foldl (fun l e => evLink e l) l).tOpen = l.tOpen := by
  induction es generalizing l with
  | nil => rfl
  | cons e es ih => rw [List.foldl_cons, ih]; cases e <;> rfl

theorem scriptOf_append (ans : RxShape → List Byte) (es fs : List Ev) :
    scriptOf ans (es ++ fs) = scriptOf ans es ++ scriptOf ans fs := by simp [scriptOf]

theorem traceOf_append (ans : RxShape → List Byte) (n : Nat) (es fs : List Ev) :
    traceOf ans n (es ++ fs) = traceOf ans n es ++ traceOf ans n fs := by simp [traceOf]

theorem answered_script {ans : RxShape → List Byte} {e : Ev} {s : State} {r : List Turn}
    (hs : s.env.script = evTurns ans e ++ r) : (answered ans e s).env.script = r := by
  simp [answered, hs]

/-- A list without reads, answered. -/
theorem runEvents_answered_silent (c : Ctx) {ans : RxShape → List Byte} (ha : goodAnswers ans) (k : Nat) {es : List Ev}
    {s : State} {r : List Turn} (hd : ∀ e ∈ es, e.direct = true ∧ e.isRecv = false) (ho : s.link.tOpen = true)
    (hs : s.env.script = scriptOf ans es ++ r) : runEvents c k es s = .ok (answeredAll ans k es s) := by
  induction es generalizing k s with
  | nil => rfl
  | cons e es ih =>
    obtain ⟨h1, h2⟩ := hd e List.mem_cons_self
    have hs' : (setPh k s).env.script = evTurns ans e ++ (scriptOf ans es ++ r) := by
      rw [setPh_env, hs, scriptOf, List.flatMap_cons, List.append_assoc]; rfl
    rw [runEvents_cons, runEv_answered c ha h1 (s := setPh k s) ho (by simp [h2]) hs', andThen_ok]
    refine ih _ (fun x hx => hd x (List.mem_cons_of_mem _ hx)) ?_ (answered_script hs')
    cases e <;> exact ho

/-- A list of events, each answered, with nothing queued when it begins. -/
theorem runEvents_answered (c : Ctx) {ans : RxShape → List Byte} (ha : goodAnswers ans) (k : Nat) {es : List Ev}
    {s : State} {r : List Turn} (hd : ∀ e ∈ es, e.direct = true) (ho : s.link.tOpen = true) (hq : s.link.rxq = [])
    (hs : s.env.script = scriptOf ans es ++ r) : runEvents c k es s = .ok (answeredAll ans k es s) := by
  induction es generalizing k s with
  | nil => rfl
  | cons e es ih =>
    have h1 := hd e List.mem_cons_self
    have hs' : (setPh k s).env.script = evTurns ans e ++ (scriptOf ans es ++ r) := by
      rw [setPh_env, hs, scriptOf, List.flatMap_cons, List.append_assoc]; rfl
    rw [runEvents_cons, runEv_answered c ha h1 (s := setPh k s) ho (fun _ => hq) hs', andThen_ok]
    refine ih _ (fun x hx => hd x (List.mem_cons_of_mem _ hx)) ?_ ?_ (answered_script hs')
    · cases e <;> exact ho
    · cases e <;> first | exact hq | rfl

/-- A list that begins with events that read nothing and empty `RXQ`, answered. -/
theorem runEvents_answered_after (c : Ctx) {ans : RxShape → List Byte} (ha : goodAnswers ans) (k : Nat)
    {pre es : List Ev} {s : State} {r : List Turn} (hp : ∀ e ∈ pre, e.direct = true ∧ e.isRecv = false)
    (hd : ∀ e ∈ es, e.direct = true) (ho : s.link.tOpen = true)
    (hq : (pre.foldl (fun l e => evLink e l) s.link).rxq = []) (hs : s.env.script = scriptOf ans (pre ++ es) ++ r) :
    runEvents c k (pre ++ es) s = .ok (answeredAll ans (k + pre.length) es (answeredAll ans k pre s)) := by
  rw [scriptOf_append, List.append_assoc] at hs
  rw [runEvents_append, runEvents_answered_silent c ha k hp ho hs, andThen_ok]
  obtain ⟨-, h2, h3, -⟩ := answeredAll_fields ans k pre s
  refine runEvents_answered c ha _ hd ?_ (by rw [h3]; exact hq) (r := r) (by rw [h2]; simp [hs])
  rw [h3, foldl_evLink_tOpen]
  exact ho

end Sys2Proof.Machine
end

