-- ==== Sys2Proof/Laws/PerInstr.lean ====
section
/-! SUPPORT. One family of statements over the constructors of `Instr`: the bytes that spec/opcode_table.json fixes for the row
(match under mask, leftmost byte first) stand at their offsets in the encoding. -/

namespace Sys2Proof.Laws

-- One lemma after another: many small proofs at once would take a thread each.
set_option Elab.async false

open Sys2Proof

/-- The bytes at consecutive offsets from `k` on. -/
def bytesFrom (k : Nat) : List Byte → List (Nat × Byte)
  | [] => []
  | b :: r => (k, b) :: bytesFrom (k + 1) r

/-- The fixed bytes of an instruction's table row: offset and value. -/
def fixedBytes : Instr → List (Nat × Byte)
  | .handshakeMsg => bytesFrom 0 [0x18#8, 0xFF#8, 0x18#8, 0xFF#8, 0x18#8, 0xFF#8, 0x18#8, 0xFF#8, 0x18#8, 0xFF#8,
      0x18#8, 0xFF#8, 0x18#8, 0xFF#8, 0x18#8, 0xFF#8, 0x18#8, 0xFF#8, 0x18#8, 0xFF#8]
  | .ramInitMsg _ _ _ => bytesFrom 0 [0x49#8, 0x00#8]
  | .shimDataMsg _ _ => []
  | .jumpMsg => bytesFrom 0 [0xC0#8, 0x00#8, 0x00#8, 0x00#8, 0x00#8, 0x00#8, 0x00#8, 0x00#8, 0x00#8, 0xC0#8]
  | .chipEraseMsg => bytesFrom 0 [0x49#8, 0x02#8, 0x00#8, 0x00#8, 0x00#8, 0x00#8, 0x00#8, 0x00#8, 0x4B#8]
  | .pageWriteMsg _ _ _ => bytesFrom 0 [0x49#8, 0x04#8]
  | .blankCheckMsg _ _ _ => bytesFrom 0 [0x49#8, 0x07#8] ++ bytesFrom 6 [0x04#8, 0x00#8]
  | .hsAckMsg => bytesFrom 0 [0x11#8]
  | .ackMsg => bytesFrom 0 [0x01#8]
  | .jumpBannerMsg _ _ _ _ _ _ _ _ _ _ _ => []
  | .resp9Msg _ _ _ _ _ _ _ _ => bytesFrom 0 [0x49#8]
  | .resp10Msg _ _ _ _ _ _ _ => bytesFrom 0 [0x49#8] ++ bytesFrom 6 [0x01#8, 0x00#8]
  | .openPort _ _ => bytesFrom 0 [0x01#8]
  | .closePort => bytesFrom 0 [0x02#8]
  | .setResetLine _ => bytesFrom 0 [0x03#8]
  | .discardBuffers => bytesFrom 0 [0x04#8]
  | .writeBytes _ => bytesFrom 0 [0x05#8]
  | .wait _ => bytesFrom 0 [0x06#8]
  | .readExact _ _ => bytesFrom 0 [0x07#8]
  | .checksum8 _ => bytesFrom 0 [0x10#8]
  | .appendChecksum8 _ => bytesFrom 0 [0x11#8]
  | .buildCommandFrame _ _ _ _ => bytesFrom 0 [0x12#8]
  | .handshakePattern => bytesFrom 0 [0x13#8]
  | .validateResponseFrame _ _ => bytesFrom 0 [0x14#8]
  | .isSync _ => bytesFrom 0 [0x15#8]
  | .isHandshakeAck _ => bytesFrom 0 [0x16#8]
  | .isAck _ => bytesFrom 0 [0x17#8]
  | .handshake => bytesFrom 0 [0x20#8]
  | .resetPulse => bytesFrom 0 [0x21#8]
  | .loadAndRun _ _ => bytesFrom 0 [0x30#8]
  | .ramInit _ _ => bytesFrom 0 [0x31#8]
  | .shimData _ => bytesFrom 0 [0x32#8]
  | .jump => bytesFrom 0 [0x33#8]
  | .chipErase => bytesFrom 0 [0x40#8]
  | .writePage _ _ => bytesFrom 0 [0x41#8]
  | .writeImage _ _ _ => bytesFrom 0 [0x42#8]
  | .blankCheckSegment _ _ => bytesFrom 0 [0x43#8]
  | .blankCheck _ _ _ => bytesFrom 0 [0x44#8]
  | .download => bytesFrom 0 [0x50#8]
  | .listen => bytesFrom 0 [0x51#8]
  | .loadImage => bytesFrom 0 [0x52#8]

/-- The fixed bytes stand in the encoding. -/
def FixedBytes.Statement (i : Instr) : Prop := ∀ p ∈ fixedBytes i, (encode i)[p.1]? = some p.2

theorem FixedBytes.handshakeMsg : FixedBytes.Statement .handshakeMsg := by
  simp [FixedBytes.Statement, fixedBytes, bytesFrom, encode, Config.hsPattern]

theorem FixedBytes.ramInitMsg (address : Word) (length : Half) (ck : Byte) :
    FixedBytes.Statement (.ramInitMsg address length ck) := by
  simp [FixedBytes.Statement, fixedBytes, bytesFrom, encode, Config.sync, Config.opRamInit]

theorem FixedBytes.shimDataMsg (data : List Byte) (ck : Byte) : FixedBytes.Statement (.shimDataMsg data ck) := by
  simp [FixedBytes.Statement, fixedBytes, encode]

theorem FixedBytes.jumpMsg : FixedBytes.Statement .jumpMsg := by
  simp [FixedBytes.Statement, fixedBytes, bytesFrom, encode, Config.jumpCmd]

theorem FixedBytes.chipEraseMsg : FixedBytes.Statement .chipEraseMsg := by
  simp [FixedBytes.Statement, fixedBytes, bytesFrom, encode, chipEraseBytes]

theorem FixedBytes.pageWriteMsg (address : Word) (data : List Byte) (ck : Byte) :
    FixedBytes.Statement (.pageWriteMsg address data ck) := by
  simp [FixedBytes.Statement, fixedBytes, bytesFrom, encode, Config.sync, Config.opWrite]

theorem FixedBytes.blankCheckMsg (address : Word) (length : Half) (ck : Byte) :
    FixedBytes.Statement (.blankCheckMsg address length ck) := by
  simp [FixedBytes.Statement, fixedBytes, bytesFrom, encode, Config.sync, Config.opBlank, Config.blankField, le32, le16]

theorem FixedBytes.hsAckMsg : FixedBytes.Statement .hsAckMsg := by
  simp [FixedBytes.Statement, fixedBytes, bytesFrom, encode, Config.hsAck]

theorem FixedBytes.ackMsg : FixedBytes.Statement .ackMsg := by
  simp [FixedBytes.Statement, fixedBytes, bytesFrom, encode, Config.ack]

theorem FixedBytes.jumpBannerMsg (b0 b1 b2 b3 b4 b5 b6 b7 b8 b9 b10 : Byte) :
    FixedBytes.Statement (.jumpBannerMsg b0 b1 b2 b3 b4 b5 b6 b7 b8 b9 b10) := by
  simp [FixedBytes.Statement, fixedBytes, encode]

theorem FixedBytes.resp9Msg (e1 e2 e3 e4 e5 e6 e7 ck : Byte) :
    FixedBytes.Statement (.resp9Msg e1 e2 e3 e4 e5 e6 e7 ck) := by
  simp [FixedBytes.Statement, fixedBytes, bytesFrom, encode, Config.sync]

theorem FixedBytes.resp10Msg (e1 e2 e3 e4 e5 u8 ck : Byte) :
    FixedBytes.Statement (.resp10Msg e1 e2 e3 e4 e5 u8 ck) := by
  simp [FixedBytes.Statement, fixedBytes, bytesFrom, encode, Config.sync]

theorem FixedBytes.openPort (port : List Byte) (baud : Word) : FixedBytes.Statement (.openPort port baud) := by
  simp [FixedBytes.Statement, fixedBytes, bytesFrom, encode]

theorem FixedBytes.closePort : FixedBytes.Statement .closePort := by
  simp [FixedBytes.Statement, fixedBytes, bytesFrom, encode]

theorem FixedBytes.setResetLine (asserted : Bool) : FixedBytes.Statement (.setResetLine asserted) := by
  simp [FixedBytes.Statement, fixedBytes, bytesFrom, encode]

theorem FixedBytes.discardBuffers : FixedBytes.Statement .discardBuffers := by
  simp [FixedBytes.Statement, fixedBytes, bytesFrom, encode]

theorem FixedBytes.writeBytes (data : List Byte) : FixedBytes.Statement (.writeBytes data) := by
  simp [FixedBytes.Statement, fixedBytes, bytesFrom, encode]

theorem FixedBytes.wait (ms : Word) : FixedBytes.Statement (.wait ms) := by
  simp [FixedBytes.Statement, fixedBytes, bytesFrom, encode, le32]

theorem FixedBytes.readExact (count : Word) (timeout : Word) : FixedBytes.Statement (.readExact count timeout) := by
  simp [FixedBytes.Statement, fixedBytes, bytesFrom, encode]

theorem FixedBytes.checksum8 (bytes : List Byte) : FixedBytes.Statement (.checksum8 bytes) := by
  simp [FixedBytes.Statement, fixedBytes, bytesFrom, encode]

theorem FixedBytes.appendChecksum8 (bytes : List Byte) : FixedBytes.Statement (.appendChecksum8 bytes) := by
  simp [FixedBytes.Statement, fixedBytes, bytesFrom, encode]

theorem FixedBytes.buildCommandFrame (opcode : Byte) (address : Word) (extraFields payload : List Byte) :
    FixedBytes.Statement (.buildCommandFrame opcode address extraFields payload) := by
  simp [FixedBytes.Statement, fixedBytes, bytesFrom, encode]

theorem FixedBytes.handshakePattern : FixedBytes.Statement .handshakePattern := by
  simp [FixedBytes.Statement, fixedBytes, bytesFrom, encode]

theorem FixedBytes.validateResponseFrame (bytes : List Byte) (expectedLength : Word) :
    FixedBytes.Statement (.validateResponseFrame bytes expectedLength) := by
  simp [FixedBytes.Statement, fixedBytes, bytesFrom, encode]

theorem FixedBytes.isSync (b : Byte) : FixedBytes.Statement (.isSync b) := by
  simp [FixedBytes.Statement, fixedBytes, bytesFrom, encode]

theorem FixedBytes.isHandshakeAck (b : Byte) : FixedBytes.Statement (.isHandshakeAck b) := by
  simp [FixedBytes.Statement, fixedBytes, bytesFrom, encode]

theorem FixedBytes.isAck (b : Byte) : FixedBytes.Statement (.isAck b) := by
  simp [FixedBytes.Statement, fixedBytes, bytesFrom, encode]

theorem FixedBytes.handshake : FixedBytes.Statement .handshake := by
  simp [FixedBytes.Statement, fixedBytes, bytesFrom, encode]

theorem FixedBytes.resetPulse : FixedBytes.Statement .resetPulse := by
  simp [FixedBytes.Statement, fixedBytes, bytesFrom, encode]

theorem FixedBytes.loadAndRun (shimBytes : List Byte) (ramBaseAddress : Word) :
    FixedBytes.Statement (.loadAndRun shimBytes ramBaseAddress) := by
  simp [FixedBytes.Statement, fixedBytes, bytesFrom, encode]

theorem FixedBytes.ramInit (base : Word) (len : Half) : FixedBytes.Statement (.ramInit base len) := by
  simp [FixedBytes.Statement, fixedBytes, bytesFrom, encode]

theorem FixedBytes.shimData (shimBytes : List Byte) : FixedBytes.Statement (.shimData shimBytes) := by
  simp [FixedBytes.Statement, fixedBytes, bytesFrom, encode]

theorem FixedBytes.jump : FixedBytes.Statement .jump := by
  simp [FixedBytes.Statement, fixedBytes, bytesFrom, encode]

theorem FixedBytes.chipErase : FixedBytes.Statement .chipErase := by
  simp [FixedBytes.Statement, fixedBytes, bytesFrom, encode]

theorem FixedBytes.writePage (address : Word) (data : List Byte) : FixedBytes.Statement (.writePage address data) := by
  simp [FixedBytes.Statement, fixedBytes, bytesFrom, encode]

theorem FixedBytes.writeImage (loadAddress : Word) (bytes : List Byte) (pageSize : Half) :
    FixedBytes.Statement (.writeImage loadAddress bytes pageSize) := by
  simp [FixedBytes.Statement, fixedBytes, bytesFrom, encode]

theorem FixedBytes.blankCheckSegment (address : Word) (length : Half) :
    FixedBytes.Statement (.blankCheckSegment address length) := by
  simp [FixedBytes.Statement, fixedBytes, bytesFrom, encode]

theorem FixedBytes.blankCheck (startAddress : Word) (pageSize : Half) (pageCount : Word) :
    FixedBytes.Statement (.blankCheck startAddress pageSize pageCount) := by
  simp [FixedBytes.Statement, fixedBytes, bytesFrom, encode]

theorem FixedBytes.download : FixedBytes.Statement .download := by
  simp [FixedBytes.Statement, fixedBytes, bytesFrom, encode]

theorem FixedBytes.listen : FixedBytes.Statement .listen := by
  simp [FixedBytes.Statement, fixedBytes, bytesFrom, encode]

theorem FixedBytes.loadImage : FixedBytes.Statement .loadImage := by
  simp [FixedBytes.Statement, fixedBytes, bytesFrom, encode]

end Sys2Proof.Laws
end

