-- ==== Sys2Proof/Laws/Sequencer.lean ====
section
/-! SUPPORT. The sequencer's bookkeeping (10_state.md R22, R23): what beginning and finishing a step or an iteration changes, and
what one event of a run can do. -/

namespace Sys2Proof.Machine

-- One lemma after another: many small proofs at once would take a thread each.
set_option Elab.async false

/-! ### Bookkeeping -/

@[simp] theorem beginStep_pos (s : State) : (beginStep s).pos = s.pos := by unfold beginStep; split <;> rfl
@[simp] theorem beginStep_run (s : State) : (beginStep s).run = s.run := by unfold beginStep; split <;> rfl
@[simp] theorem beginStep_err (s : State) : (beginStep s).err = s.err := by unfold beginStep; split <;> rfl
@[simp] theorem beginStep_cfg (s : State) : (beginStep s).cfg = s.cfg := by unfold beginStep; split <;> rfl
@[simp] theorem beginStep_rx (s : State) : (beginStep s).rx = s.rx := by unfold beginStep; split <;> rfl
@[simp] theorem beginStep_link (s : State) : (beginStep s).link = s.link := by unfold beginStep; split <;> rfl
@[simp] theorem beginStep_env (s : State) : (beginStep s).env = s.env := by unfold beginStep; split <;> rfl
@[simp] theorem beginStep_img (s : State) : (beginStep s).img = s.img := by unfold beginStep; split <;> rfl
@[simp] theorem beginStep_shm (s : State) : (beginStep s).shm = s.shm := by unfold beginStep; split <;> rfl
@[simp] theorem beginStep_host (s : State) : (beginStep s).host = s.host := by unfold beginStep; split <;> rfl
@[simp] theorem beginStep_trace (s : State) : (beginStep s).trace = s.trace := by unfold beginStep; split <;> rfl
@[simp] theorem beginStep_ret (s : State) : (beginStep s).ret = s.ret := by unfold beginStep; split <;> rfl

@[simp] theorem advancePulse_run (s : State) : (advancePulse s).run = s.run := by unfold advancePulse; split <;> rfl
@[simp] theorem advancePulse_err (s : State) : (advancePulse s).err = s.err := by unfold advancePulse; split <;> rfl
@[simp] theorem advancePulse_cfg (s : State) : (advancePulse s).cfg = s.cfg := by unfold advancePulse; split <;> rfl
@[simp] theorem advancePulse_rx (s : State) : (advancePulse s).rx = s.rx := by unfold advancePulse; split <;> rfl
@[simp] theorem advancePulse_link (s : State) : (advancePulse s).link = s.link := by unfold advancePulse; split <;> rfl
@[simp] theorem advancePulse_env (s : State) : (advancePulse s).env = s.env := by unfold advancePulse; split <;> rfl
@[simp] theorem advancePulse_img (s : State) : (advancePulse s).img = s.img := by unfold advancePulse; split <;> rfl
@[simp] theorem advancePulse_shm (s : State) : (advancePulse s).shm = s.shm := by unfold advancePulse; split <;> rfl
@[simp] theorem advancePulse_host (s : State) : (advancePulse s).host = s.host := by unfold advancePulse; split <;> rfl
@[simp] theorem advancePulse_trace (s : State) : (advancePulse s).trace = s.trace := by unfold advancePulse; split <;> rfl
@[simp] theorem advancePulse_ret (s : State) : (advancePulse s).ret = s.ret := by unfold advancePulse; split <;> rfl

@[simp] theorem finishStep_run (s : State) : (finishStep s).run = s.run := by
  unfold finishStep; split <;> (try split) <;> rfl
@[simp] theorem finishStep_err (s : State) : (finishStep s).err = s.err := by
  unfold finishStep; split <;> (try split) <;> rfl
@[simp] theorem finishStep_cfg (s : State) : (finishStep s).cfg = s.cfg := by
  unfold finishStep; split <;> (try split) <;> rfl
@[simp] theorem finishStep_rx (s : State) : (finishStep s).rx = s.rx := by
  unfold finishStep; split <;> (try split) <;> rfl
@[simp] theorem finishStep_link (s : State) : (finishStep s).link = s.link := by
  unfold finishStep; split <;> (try split) <;> rfl
@[simp] theorem finishStep_env (s : State) : (finishStep s).env = s.env := by
  unfold finishStep; split <;> (try split) <;> rfl
@[simp] theorem finishStep_img (s : State) : (finishStep s).img = s.img := by
  unfold finishStep; split <;> (try split) <;> rfl
@[simp] theorem finishStep_shm (s : State) : (finishStep s).shm = s.shm := by
  unfold finishStep; split <;> (try split) <;> rfl
@[simp] theorem finishStep_host (s : State) : (finishStep s).host = s.host := by
  unfold finishStep; split <;> (try split) <;> rfl
@[simp] theorem finishStep_trace (s : State) : (finishStep s).trace = s.trace := by
  unfold finishStep; split <;> (try split) <;> rfl
@[simp] theorem finishStep_ret (s : State) : (finishStep s).ret = s.ret := by
  unfold finishStep; split <;> (try split) <;> rfl
@[simp] theorem finishStep_wrk (s : State) : (finishStep s).wrk = s.wrk := by
  unfold finishStep; split <;> (try split) <;> rfl

@[simp] theorem finishEvents_run (s : State) : (finishEvents s).run = s.run := by
  simp only [finishEvents]; repeat' split
  all_goals simp
@[simp] theorem finishEvents_err (s : State) : (finishEvents s).err = s.err := by
  simp only [finishEvents]; repeat' split
  all_goals simp
@[simp] theorem finishEvents_cfg (s : State) : (finishEvents s).cfg = s.cfg := by
  simp only [finishEvents]; repeat' split
  all_goals simp
@[simp] theorem finishEvents_rx (s : State) : (finishEvents s).rx = s.rx := by
  simp only [finishEvents]; repeat' split
  all_goals simp
@[simp] theorem finishEvents_link (s : State) : (finishEvents s).link = s.link := by
  simp only [finishEvents]; repeat' split
  all_goals simp
@[simp] theorem finishEvents_env (s : State) : (finishEvents s).env = s.env := by
  simp only [finishEvents]; repeat' split
  all_goals simp
@[simp] theorem finishEvents_img (s : State) : (finishEvents s).img = s.img := by
  simp only [finishEvents]; repeat' split
  all_goals simp
@[simp] theorem finishEvents_shm (s : State) : (finishEvents s).shm = s.shm := by
  simp only [finishEvents]; repeat' split
  all_goals simp
@[simp] theorem finishEvents_host (s : State) : (finishEvents s).host = s.host := by
  simp only [finishEvents]; repeat' split
  all_goals simp
@[simp] theorem finishEvents_trace (s : State) : (finishEvents s).trace = s.trace := by
  simp only [finishEvents]; repeat' split
  all_goals simp
@[simp] theorem finishEvents_ret (s : State) : (finishEvents s).ret = s.ret := by
  simp only [finishEvents]; repeat' split
  all_goals simp

@[simp] theorem finishRun_err (s : State) : (finishRun s).err = s.err := by
  unfold finishRun; simp only []; split <;> rfl
@[simp] theorem finishRun_cfg (s : State) : (finishRun s).cfg = s.cfg := by
  unfold finishRun; simp only []; split <;> rfl
@[simp] theorem finishRun_rx (s : State) : (finishRun s).rx = s.rx := by
  unfold finishRun; simp only []; split <;> rfl
@[simp] theorem finishRun_link (s : State) : (finishRun s).link = s.link := by
  unfold finishRun; simp only []; split <;> rfl
@[simp] theorem finishRun_env (s : State) : (finishRun s).env = s.env := by
  unfold finishRun; simp only []; split <;> rfl
@[simp] theorem finishRun_img (s : State) : (finishRun s).img = s.img := by
  unfold finishRun; simp only []; split <;> rfl
@[simp] theorem finishRun_shm (s : State) : (finishRun s).shm = s.shm := by
  unfold finishRun; simp only []; split <;> rfl
@[simp] theorem finishRun_host (s : State) : (finishRun s).host = s.host := by
  unfold finishRun; simp only []; split <;> rfl
@[simp] theorem finishRun_trace (s : State) : (finishRun s).trace = s.trace := by
  unfold finishRun; simp only []; split <;> rfl
@[simp] theorem finishRun_ret (s : State) : (finishRun s).ret = s.ret := by
  unfold finishRun; simp only []; split <;> rfl
@[simp] theorem finishRun_wrk (s : State) : (finishRun s).wrk = s.wrk := by
  unfold finishRun; simp only []; split <;> rfl

/-- The states in which the sequencer performs an event list (45_orchestrator.md R191). -/
def SeqState.hasEvents : SeqState → Bool
  | .initialized | .synced | .shimActive | .erased | .verified | .programmed => true
  | .closed | .reset | .done | .failed => false

theorem seqStep_events {s : State} {k : RunKind} (hr : s.run = some k) (hs : s.pos.st.hasEvents = true) :
    seqStep s = (seqEvent s).settle := by
  unfold seqStep
  rw [hr]
  simp only
  cases h : s.pos.st <;> simp_all [SeqState.hasEvents]

/-- What the sequencer does with an event. -/
theorem seqEvent_some {s : State} {c : Ctx} {e : Ev} (h : (stepEvents (beginStep s))[s.pos.ph.toNat]? = some (c, e)) :
    seqEvent s = (runEv c e (beginStep s)).map fun t =>
      if s.pos.ph.toNat + 1 < (stepEvents (beginStep s)).length then setPh (s.pos.ph.toNat + 1) t else finishEvents t := by
  simp only [seqEvent, beginStep_pos, h]

/-- Without an event the step is complete. -/
theorem seqEvent_none {s : State} (h : (stepEvents (beginStep s))[s.pos.ph.toNat]? = none) :
    seqEvent s = .ok (finishStep (beginStep s)) := by
  simp only [seqEvent, beginStep_pos, h]

/-- The event list is determined by the position but `PH`, the run, the configuration and `REM`. -/
theorem stepEvents_congr {s t : State} (h1 : t.pos.st = s.pos.st) (h2 : t.pos.idx = s.pos.idx) (h3 : t.run = s.run)
    (h4 : t.cfg = s.cfg) (h5 : t.wrk.rem = s.wrk.rem) : stepEvents t = stepEvents s := by
  simp only [stepEvents, pageLen, h1, h2, h3, h4, h5]

/-- Completing a step moves `ST` on and restarts `PH` and `IDX` (10_state.md R23, 45_orchestrator.md R194, R202). -/
theorem finishStep_moves {s : State} (h : s.pos.st.hasEvents = true) :
    (finishStep s).pos.ph = 0#4 ∧ (finishStep s).pos.idx = 0#32 ∧
    (finishStep s).pos.st =
      if s.pos.st = .initialized ∧ s.run = some .listen then .reset else (s.pos.st.next).getD s.pos.st := by
  unfold finishStep
  cases hs : s.pos.st <;> simp_all [SeqState.hasEvents, SeqState.next]
  split <;> simp_all

end Sys2Proof.Machine
end

