-- ==== Sys2Proof/Laws/Steps.lean ====
section
/-! SUPPORT. What a call that has a step can be, and several steps in a row. -/

namespace Sys2Proof.Machine

-- One lemma after another: many small proofs at once would take a thread each.
set_option Elab.async false

/-- A call that has a step: no run is in progress, its bytes decode, on an open transport it keeps to its protocol phase
(60_exceptions.md R230), and the step is the instruction's meaning. -/
theorem hostCall_next {f : Format} {bytes : List Byte} {s t : State} (h : hostCall f bytes s = .next t) :
    s.busy = false ∧ ∃ i r, decode f bytes = .ok (i, r) ∧ (s.link.tOpen = true → callInPhase i s.pos.st = true) ∧
      exec i s = .next t := by
  unfold hostCall at h
  split at h
  · cases h
  · next hb =>
    split at h
    · cases h
    · next i r hd =>
      split at h
      · cases h
      · next hp => exact ⟨by simpa using hb, i, r, hd, by simpa using hp, h⟩

@[simp] theorem steps_zero (s : State) : steps 0 s = .next s := rfl

theorem steps_succ (n : Nat) (s : State) :
    steps (n + 1) s =
      match step s with
      | .next t => steps n t
      | .fault f => .fault f
      | .refused r => .refused r := rfl

/-- Steps one after the other. -/
theorem steps_add (a b : Nat) (s : State) :
    steps (a + b) s =
      match steps a s with
      | .next t => steps b t
      | .fault f => .fault f
      | .refused r => .refused r := by
  induction a generalizing s with
  | zero => simp
  | succ a ih =>
    rw [Nat.succ_add]
    simp only [steps_succ]
    cases step s <;> simp [ih]

/-- Without a request of the host the step is the block's own move. -/
theorem step_quiet {s : State} (h : s.host = []) : step s = seqStep s := by simp [step, machineStep, h]

end Sys2Proof.Machine
end

