-- ==== Sys2Proof/Tests/Slice0.lean ====
section
/-! SUPPORT. Small checks of the model: ill-formed terms are refused, words written out from 30_encoding.md decode to their
instructions, single steps give what 95_test_vectors.md says, and for each obligation with hypotheses a concrete state and
operands that meet them. `S<n>`, `T<n>`, `F<n>`, `H<n>`, `L<n>`, `P-E<n>`, `P-W<n>`, `P-B<n>`, `O<n>` name the vector. -/

namespace Sys2Proof.Tests

open Sys2Proof Sys2Proof.Machine
-- One declaration after another: the many small kernel evaluations below would otherwise start a thread each.
set_option Elab.async false

/-! ### Helpers -/

/-- A byte. -/
abbrev by8 (n : Nat) : Byte := BitVec.ofNat 8 n

/-- Bytes of a list of numbers. -/
def bs (l : List Nat) : List Byte := l.map by8

/-- What bytes decode to. -/
def dec (f : Format) (l : List Nat) : Option (Instr × List Byte) :=
  match decode f (bs l) with
  | .ok x => some x
  | .error _ => none

/-- Why bytes are rejected. -/
def decErr (f : Format) (l : List Nat) : Option DecodeError :=
  match decode f (bs l) with
  | .ok _ => none
  | .error e => some e

/-- The next state, if there is one. -/
def nextOf (o : Host.Outcome State Fault Refusal) : Option State :=
  match o with
  | .next t => some t
  | _ => none

/-- The refusal, if there is one. -/
def refusalOf (o : Host.Outcome State Fault Refusal) : Option Refusal :=
  match o with
  | .refused r => some r
  | _ => none

/-- Some field of the next state. -/
def after {α : Type} (i : Instr) (s : State) (f : State → α) : Option α := (nextOf (exec i s)).map f

/-- The reset state with the transport open. -/
def opened : State := { State.reset with link := { State.reset.link with tOpen := true, tBaud := 9600#32 } }

/-- `opened` with bytes in the receive queue. -/
def holding (l : List Nat) : State := { opened with link := { opened.link with rxq := bs l } }

/-- `opened` with what the environment will do. -/
def scripted (l : List Turn) : State := { opened with env := { opened.env with script := l } }

/-- A run in progress, at the beginning of an event. -/
def running (k : RunKind) (st : SeqState) (ph : BitVec 4) : State :=
  { opened with run := some k, pos := { st := st, ph := ph, idx := 0#32 } }

/-- A call on an open transport, no run in progress. -/
def calling (st : SeqState) (l : List Nat) : State :=
  { opened with pos := { st := st, ph := 0#4, idx := 0#32 }, host := [.call .opid (bs l)] }

/-- A download run that has just been accepted. -/
def accepted : State := { State.reset with run := some .download }

/-- The answers of the ideal responder of 95_test_vectors.md section 3, with one fixed echo. -/
def ideal : RxShape → List Byte
  | .hsAck => bs [0x11]
  | .ack => bs [0x01]
  | .banner => bs [0x53, 0x48, 0x49, 0x4D, 0x20, 0x52, 0x45, 0x41, 0x44, 0x59, 0x0A]
  | .resp9 => bs [0x49, 0x02, 0, 0, 0, 0, 0, 0, 0x4B]
  | .resp10 => bs [0x49, 0x07, 0, 0, 0, 0, 0x01, 0x00, 0x00, 0x51]

theorem ideal_good : goodAnswers ideal := by intro sh; cases sh <;> decide

/-- The shim and image of program P2. -/
def shim4 : List Byte := bs [0xDE, 0xAD, 0xBE, 0xEF]
def image5 : List Byte := bs [0x11, 0x22, 0x33, 0x44, 0x55]

/-- The configuration and inputs of program P2, a run just accepted. -/
def program2 : State :=
  { accepted with
    cfg := { accepted.cfg with
      blankPage := 4#16, blankCount := 2#32, writePage := 4#16, imgLen := 5#32, shimLen := 4#16, port := bs [0x70] }
    img := [(0, by8 0x11), (1, by8 0x22), (2, by8 0x33), (3, by8 0x44), (4, by8 0x55)]
    shm := [(0, by8 0xDE), (1, by8 0xAD), (2, by8 0xBE), (3, by8 0xEF)] }

/-- A state that has failed with one byte recorded. -/
def failed1 : State :=
  { State.reset with
    pos := { st := .failed, ph := 6#4, idx := 0#32 }
    err := { kind := .protocol, step := 0x20#8, op := 0x20#8, addr := 0#32, idx := 0#32, rawn := 1#4, raw := bs [0x01] } }

/-- Program P2 at the beginning of a later step, the transport open. -/
def program2At (st : SeqState) : State :=
  { program2 with link := opened.link, pos := { st := st, ph := 0#4, idx := 0#32 } }

/-! ### Well-formedness: each check refuses an ill-formed term -/

theorem test_wf_page_message_length : ∀ l : List Byte, 65536 ≤ l.length →
    (Instr.pageWriteMsg 0#32 l 0#8).encodable = false := by
  intro l h
  have : ¬ l.length ≤ 65535 := by omega
  simp [Instr.encodable, this]
theorem test_wf_sequence_length : ∀ l : List Byte, 2 ^ 32 ≤ l.length →
    (Instr.writeBytes l).encodable = false ∧ (Instr.openPort l 9600#32).encodable = false ∧
    (Instr.checksum8 l).encodable = false ∧ (Instr.appendChecksum8 l).encodable = false ∧
    (Instr.buildCommandFrame 0#8 0#32 l []).encodable = false ∧ (Instr.buildCommandFrame 0#8 0#32 [] l).encodable = false ∧
    (Instr.validateResponseFrame l 9#32).encodable = false ∧ (Instr.loadAndRun l 0#32).encodable = false ∧
    (Instr.shimData l).encodable = false ∧ (Instr.writePage 0#32 l).encodable = false ∧
    (Instr.writeImage 0#32 l 64#16).encodable = false := by
  intro l h
  have : ¬ l.length < 2 ^ 32 := by omega
  have : seqFits l = false := by simp only [seqFits, this, decide_false]
  simp [Instr.encodable, this]
theorem test_wf_message_checksums :
    (Instr.ramInitMsg 0x20000000#32 4#16 0x6C#8).wellFormed = false ∧
    (Instr.shimDataMsg shim4 0x39#8).wellFormed = false ∧
    (Instr.pageWriteMsg 0x100#32 (bs [1, 2, 3]) 0x58#8).wellFormed = false ∧
    (Instr.blankCheckMsg 0#32 512#16 0x57#8).wellFormed = false ∧
    (Instr.resp9Msg 0x02#8 0#8 0#8 0#8 0#8 0#8 0#8 0x4A#8).wellFormed = false ∧
    (Instr.resp10Msg 0x07#8 0#8 0#8 0#8 0#8 0#8 0x52#8).wellFormed = false := by decide
theorem test_wf_lengths : ∀ l : List Byte, 65536 ≤ l.length →
    (Instr.shimDataMsg l 0#8).wellFormed = false ∧ (Instr.loadAndRun l 0#32).wellFormed = false ∧
    (Instr.shimData l).wellFormed = false ∧ (Instr.writePage 0#32 l).wellFormed = false := by
  intro l h
  have : ¬ l.length ≤ 65535 := by omega
  simp [Instr.wellFormed, Instr.meetsFields, this]
theorem test_wf_empty_page : (Instr.writePage 0#32 []).wellFormed = false := by decide
theorem test_wf_ranges :
    (Instr.readExact 0#32 5000#32).wellFormed = false ∧ (Instr.openPort [] 0#32).wellFormed = false ∧
    (Instr.writeImage 0#32 [] 0#16).wellFormed = false ∧
    (Instr.writeImage 0xFFFFFFFF#32 (bs [1, 2]) 64#16).wellFormed = false ∧
    (Instr.blankCheck 0#32 0#16 1#32).wellFormed = false ∧
    (Instr.blankCheck 0xFFFFFE00#32 512#16 2#32).wellFormed = false := by decide
theorem test_wf_good :
    (Instr.ramInitMsg 0x20000000#32 4#16 0x6D#8).wellFormed = true ∧ (Instr.shimDataMsg shim4 0x38#8).wellFormed = true ∧
    (Instr.pageWriteMsg 0x100#32 (bs [1, 2, 3]) 0x57#8).wellFormed = true ∧
    (Instr.blankCheckMsg 0#32 512#16 0x56#8).wellFormed = true ∧
    (Instr.writeImage 0xFFFFFFFE#32 (bs [1, 2]) 64#16).wellFormed = true ∧
    (Instr.blankCheck 0xFFFFFE00#32 512#16 1#32).wellFormed = true := by decide

/-! ### Decoding: words written out from 30_encoding.md -/

theorem test_decode_tx_messages :
    dec .tx [0x18, 0xFF, 0x18, 0xFF, 0x18, 0xFF, 0x18, 0xFF, 0x18, 0xFF, 0x18, 0xFF, 0x18, 0xFF, 0x18, 0xFF, 0x18, 0xFF,
      0x18, 0xFF] = some (.handshakeMsg, []) ∧
    dec .tx [0x49, 0x00, 0x00, 0x00, 0x00, 0x20, 0x34, 0x12, 0xAF] = some (.ramInitMsg 0x20000000#32 0x1234#16 0xAF#8, []) ∧
    dec .rawvar [0xDE, 0xAD, 0xBE, 0xEF, 0x38] = some (.shimDataMsg shim4 0x38#8, []) ∧
    dec .tx [0xC0, 0, 0, 0, 0, 0, 0, 0, 0, 0xC0] = some (.jumpMsg, []) ∧
    dec .tx [0x49, 0x02, 0, 0, 0, 0, 0, 0, 0x4B] = some (.chipEraseMsg, []) ∧
    dec .tx [0x49, 0x04, 0x78, 0x56, 0x34, 0x12, 0x01, 0x00, 0xAA, 0x0C, 0x77]
      = some (.pageWriteMsg 0x12345678#32 [0xAA#8] 0x0C#8, [0x77#8]) ∧
    dec .tx [0x49, 0x07, 0x00, 0x7E, 0x00, 0x00, 0x04, 0x00, 0x00, 0x02, 0xD4]
      = some (.blankCheckMsg 0x7E00#32 512#16 0xD4#8, []) := by decide
theorem test_decode_rx_messages :
    dec .rx1 [0x11] = some (.hsAckMsg, []) ∧ dec .rx1 [0x01] = some (.ackMsg, []) ∧
    dec .rx11 [0x53, 0x48, 0x49, 0x4D, 0x20, 0x52, 0x45, 0x41, 0x44, 0x59, 0x0A]
      = some (.jumpBannerMsg 0x53#8 0x48#8 0x49#8 0x4D#8 0x20#8 0x52#8 0x45#8 0x41#8 0x44#8 0x59#8 0x0A#8, []) ∧
    dec .rx9 [0x49, 0x04, 0x11, 0x22, 0x33, 0x44, 0x55, 0x66, 0xB2]
      = some (.resp9Msg 0x04#8 0x11#8 0x22#8 0x33#8 0x44#8 0x55#8 0x66#8 0xB2#8, []) ∧
    dec .rx10 [0x49, 0xFF, 0xFE, 0xFD, 0xFC, 0xFB, 0x01, 0x00, 0x77, 0xB2]
      = some (.resp10Msg 0xFF#8 0xFE#8 0xFD#8 0xFC#8 0xFB#8 0x77#8 0xB2#8, []) := by decide
theorem test_decode_transport :
    dec .opid [0x01, 0x80, 0x25, 0, 0, 1, 0, 0, 0, 0x70] = some (.openPort [0x70#8] 9600#32, []) ∧
    dec .opid [0x02] = some (.closePort, []) ∧ dec .opid [0x03, 0x01] = some (.setResetLine true, []) ∧
    dec .opid [0x03, 0x00] = some (.setResetLine false, []) ∧ dec .opid [0x04] = some (.discardBuffers, []) ∧
    dec .opid [0x05, 2, 0, 0, 0, 0xAA, 0xBB] = some (.writeBytes [0xAA#8, 0xBB#8], []) ∧
    dec .opid [0x06, 10, 1, 0, 0] = some (.wait 266#32, []) ∧
    dec .opid [0x07, 9, 0, 0, 0, 0x88, 0x13, 0, 0] = some (.readExact 9#32 5000#32, []) := by decide
theorem test_decode_codec :
    dec .opid [0x10, 1, 0, 0, 0, 0xFF] = some (.checksum8 [0xFF#8], []) ∧
    dec .opid [0x11, 1, 0, 0, 0, 0xFF] = some (.appendChecksum8 [0xFF#8], []) ∧
    dec .opid [0x12, 0x04, 0x78, 0x56, 0x34, 0x12, 2, 0, 0, 0, 1, 0, 1, 0, 0, 0, 0xAA]
      = some (.buildCommandFrame 0x04#8 0x12345678#32 [1#8, 0#8] [0xAA#8], []) ∧
    dec .opid [0x13] = some (.handshakePattern, []) ∧
    dec .opid [0x14, 9, 0, 0, 0, 1, 0, 0, 0, 0x49] = some (.validateResponseFrame [0x49#8] 9#32, []) ∧
    dec .opid [0x15, 0x48] = some (.isSync 0x48#8, []) ∧ dec .opid [0x16, 0x11] = some (.isHandshakeAck 0x11#8, []) ∧
    dec .opid [0x17, 0x01] = some (.isAck 0x01#8, []) := by decide
theorem test_decode_loader :
    dec .opid [0x20] = some (.handshake, []) ∧ dec .opid [0x21] = some (.resetPulse, []) ∧
    dec .opid [0x30, 0, 0, 0, 0x20, 1, 0, 0, 0, 0xDE] = some (.loadAndRun [0xDE#8] 0x20000000#32, []) ∧
    dec .opid [0x31, 0, 0, 0, 0x20, 0x34, 0x12] = some (.ramInit 0x20000000#32 0x1234#16, []) ∧
    dec .opid [0x32, 1, 0, 0, 0, 0xDE] = some (.shimData [0xDE#8], []) ∧ dec .opid [0x33] = some (.jump, []) := by decide
theorem test_decode_flash :
    dec .opid [0x40] = some (.chipErase, []) ∧
    dec .opid [0x41, 0, 1, 0, 0, 1, 0, 0, 0, 0xAA] = some (.writePage 0x100#32 [0xAA#8], []) ∧
    dec .opid [0x42, 0, 1, 0, 0, 0x40, 0, 1, 0, 0, 0, 0xAA] = some (.writeImage 0x100#32 [0xAA#8] 64#16, []) ∧
    dec .opid [0x43, 0, 2, 0, 0, 0, 2] = some (.blankCheckSegment 0x200#32 512#16, []) ∧
    dec .opid [0x44, 0, 2, 0, 0, 0, 2, 0x40, 0, 0, 0] = some (.blankCheck 0x200#32 512#16 64#32, []) ∧
    dec .opid [0x50] = some (.download, []) ∧ dec .opid [0x51] = some (.listen, []) ∧
    dec .opid [0x52] = some (.loadImage, []) := by decide
theorem test_decode_rejects :
    decErr .tx [] = some .empty ∧ decErr .tx [0x49, 0x02, 0] = some .truncated ∧ decErr .tx [0x77] = some .unknownMessage ∧
    decErr .tx [0x49, 0x01, 0] = some .reservedOpcode ∧ decErr .tx [0x49, 0x02, 0, 0, 0, 0, 0, 0, 0x4A] = some .badLiteral ∧
    decErr .tx [0x49, 0x07, 0, 0, 0, 0, 0x05, 0x00, 0, 2, 0] = some .badLiteral ∧ decErr .rx1 [0x12] = some .badResponse ∧
    decErr .rx9 [0x48, 0, 0, 0, 0, 0, 0, 0, 0x48] = some .badResponse ∧
    decErr .rx10 [0x49, 0, 0, 0, 0, 0, 0x02, 0, 0, 0x4B] = some .badResponse ∧ decErr .opid [0x08] = some .unknownOpid ∧
    decErr .opid [0x03, 0x02] = some .badBool := by decide
theorem test_table_words :
    decodeTableWord 16 0x4904 = some (.pageWriteMsg 0#32 [] 0#8) ∧ decodeTableWord 8 0x00 = some (.shimDataMsg [] 0x00#8) ∧
    decodeTableWord 80 0x49000000000001000000 = some (.resp10Msg 0#8 0#8 0#8 0#8 0#8 0#8 0#8) ∧
    decodeTableWord 72 0x494A00000000000000 = some (.resp9Msg 0x4A#8 0#8 0#8 0#8 0#8 0#8 0#8 0#8) := by decide

/-! ### Single steps, from 95_test_vectors.md -/

theorem test_handshakeMsg : after .handshakeMsg opened (fun t => txBytes t.trace)
    = some (bs [0x18, 0xFF, 0x18, 0xFF, 0x18, 0xFF, 0x18, 0xFF, 0x18, 0xFF, 0x18, 0xFF, 0x18, 0xFF, 0x18, 0xFF, 0x18, 0xFF,
      0x18, 0xFF]) := by decide +kernel
theorem test_ramInitMsg : after (.ramInitMsg 0x20000000#32 4#16 0x6D#8) opened (fun t => (txBytes t.trace, t.wrk.addr))
    = some (bs [0x49, 0, 0, 0, 0, 0x20, 4, 0, 0x6D], 0x20000000#32) := by decide +kernel
theorem test_shimDataMsg : after (.shimDataMsg shim4 0x38#8) opened (fun t => txBytes t.trace)
    = some (bs [0xDE, 0xAD, 0xBE, 0xEF, 0x38]) := by decide +kernel
theorem test_jumpMsg : after .jumpMsg opened (fun t => txBytes t.trace)
    = some (bs [0xC0, 0, 0, 0, 0, 0, 0, 0, 0, 0xC0]) := by decide +kernel
theorem test_chipEraseMsg : after .chipEraseMsg opened (fun t => (txBytes t.trace, t.wrk.csum))
    = some (bs [0x49, 2, 0, 0, 0, 0, 0, 0, 0x4B], 0x4B#8) := by decide +kernel
theorem test_pageWriteMsg : after (.pageWriteMsg 0x100#32 (bs [1, 2, 3]) 0x57#8) opened (fun t => (txBytes t.trace, t.wrk.len))
    = some (bs [0x49, 4, 0, 1, 0, 0, 3, 0, 1, 2, 3, 0x57], 3#16) := by decide +kernel
theorem test_blankCheckMsg : after (.blankCheckMsg 0#32 512#16 0x56#8) opened (fun t => txBytes t.trace)
    = some (bs [0x49, 7, 0, 0, 0, 0, 4, 0, 0, 2, 0x56]) := by decide +kernel
theorem test_hsAckMsg : after .hsAckMsg opened (fun t => (t.rx.rxb, t.pos.st)) = some (bs [0x11], .closed) := by decide +kernel
theorem test_hsAckMsg_stale : after .hsAckMsg (holding [0x01]) (fun t => (t.err.kind, t.err.raw, t.link.rxq))
    = some (.protocol, bs [0x01], bs [0x11]) := by decide +kernel
theorem test_ackMsg : after .ackMsg opened (fun t => (t.rx.rxb, t.err.kind)) = some (bs [0x01], .none) := by decide +kernel
/-- L6. -/
theorem test_jumpBannerMsg : after (.jumpBannerMsg 0xFF#8 0xFF#8 0xFF#8 0xFF#8 0xFF#8 0xFF#8 0xFF#8 0xFF#8 0xFF#8 0xFF#8 0xFF#8)
    opened (fun t => (t.rx.rxn, t.err.kind)) = some (11#4, .none) := by decide +kernel
/-- F24, F21. -/
theorem test_resp9Msg : after (.resp9Msg 0x04#8 0x11#8 0x22#8 0x33#8 0x44#8 0x55#8 0x66#8 0xB2#8) opened
    (fun t => (t.rx.rxn, t.err.kind)) = some (9#4, .none) := by decide +kernel
theorem test_resp9Msg_bad : after (.resp9Msg 0x02#8 0#8 0#8 0#8 0#8 0#8 0#8 0x4A#8) opened
    (fun t => (t.err.kind, t.err.rawn, t.pos.st)) = some (.protocol, 9#4, .failed) := by decide +kernel
/-- P-B8, P-B5. -/
theorem test_resp10Msg : after (.resp10Msg 0xFF#8 0xFF#8 0xFF#8 0xFF#8 0xFF#8 0x77#8 0xBC#8) opened
    (fun t => (t.rx.rxn, t.err.kind)) = some (10#4, .none) := by decide +kernel
theorem test_resp10Msg_bad : after (.resp10Msg 0x07#8 0#8 0#8 0#8 0#8 0#8 0x52#8) opened
    (fun t => (t.err.kind, t.err.step, t.err.op)) = some (.protocol, 0x44#8, 0x43#8) := by decide +kernel
/-- T3, T2. -/
theorem test_open_again : after (.openPort (bs [0x70]) 115200#32) { holding [0xAA] with env := { now := 0, script := [], opens := [true] } }
    (fun t => (t.trace, t.link.rxq, t.link.tBaud)) = some ([.closed, .opened (bs [0x70]) 115200#32 true], [], 115200#32) := by
  decide +kernel
theorem test_open_refused : after (.openPort (bs [0x70]) 9600#32) { State.reset with env := { now := 0, script := [], opens := [false] } }
    (fun t => (t.link.tOpen, t.err.kind, t.err.step, t.pos.st)) = some (false, .io, 0x01#8, .failed) := by decide +kernel
/-- T4. -/
theorem test_close : after .closePort (holding [1]) (fun t => (t.link.tOpen, t.link.rxq, t.trace)) = some (false, [], [.closed]) := by
  decide +kernel
/-- R102, already closed: no effect, after a failed handshake's position and at `Reset` alike. -/
theorem test_close_closed :
    after .closePort failed1 (fun t => t) = some failed1 ∧
    after .closePort { State.reset with pos := { st := .reset, ph := 0#4, idx := 0#32 } } (fun t => t.pos.st) = some .reset := by
  decide +kernel
/-- T13. -/
theorem test_setResetLine : after (.setResetLine true) opened (fun t => t.link.rst) = some .asserted ∧
    after (.setResetLine false) opened (fun t => t.link.rst) = some .deasserted := by decide +kernel
/-- T12. -/
theorem test_discardBuffers : after .discardBuffers (holding [0x55, 0x66]) (fun t => (t.link.rxq, t.link.txq)) = some ([], []) := by
  decide +kernel
theorem test_writeBytes : after (.writeBytes (bs [1, 2])) opened (fun t => (t.trace, t.link.txq)) = some ([.tx 1#8, .tx 2#8], []) := by
  decide +kernel
/-- T15. -/
theorem test_writeBytes_closed : refusalOf (exec (.writeBytes (bs [0])) State.reset) = some .transportClosed := by decide +kernel
/-- T14. -/
theorem test_wait : after (.wait 10#32) (scripted [quiet, { elapse := 7, arrive := bs [0xAA] }, { elapse := 5, arrive := [] }])
    (fun t => (t.env.now, t.link.rxq)) = some (12, bs [0xAA]) := by decide +kernel
/-- T8, T9. -/
theorem test_readExact_timeout : after (.readExact 9#32 5000#32) (holding [0x49, 2, 0, 0, 0, 0, 0, 0])
    (fun t => (t.err.kind, t.err.raw, t.link.rxq, decide (5000 ≤ t.env.now)))
    = some (.timeout, bs [0x49, 2, 0, 0, 0, 0, 0, 0], [], true) := by decide +kernel
theorem test_readExact_surplus : after (.readExact 1#32 5000#32) (holding [1, 2, 3]) (fun t => (t.ret, t.link.rxq, t.env.now))
    = some (.bytes (bs [1]), bs [2, 3], 0) := by decide +kernel
/-- F3, F4. -/
theorem test_checksum8 : after (.checksum8 (bs [0xFF, 0xFF])) State.reset (fun t => (t.ret, t.wrk.csum)) = some (.byte 0xFE#8, 0xFE#8) ∧
    after (.checksum8 (bs [0x80, 0x80])) State.reset (fun t => t.ret) = some (.byte 0#8) := by decide +kernel
/-- F8, F9. -/
theorem test_appendChecksum8 : after (.appendChecksum8 shim4) State.reset (fun t => t.ret)
    = some (.bytes (bs [0xDE, 0xAD, 0xBE, 0xEF, 0x38])) ∧
    after (.appendChecksum8 []) State.reset (fun t => t.ret) = some (.bytes [0#8]) := by decide +kernel
/-- F15, F13. -/
theorem test_buildCommandFrame : after (.buildCommandFrame 0x04#8 0x12345678#32 (bs [1, 0]) (bs [0xAA])) State.reset (fun t => t.ret)
    = some (.bytes (bs [0x49, 4, 0x78, 0x56, 0x34, 0x12, 1, 0, 0xAA, 0x0C])) := by decide +kernel
theorem test_buildCommandFrame_wraps : after (.buildCommandFrame 0x00#8 0x20000000#32 (bs [0xFF, 0xFF]) []) State.reset
    (fun t => (t.wrk.csum, t.wrk.op, t.wrk.addr)) = some (0x67#8, 0x00#8, 0x20000000#32) := by decide +kernel
/-- F19. -/
theorem test_handshakePattern : after .handshakePattern State.reset (fun t => t.ret) =
    some (.bytes (bs [0x18, 0xFF, 0x18, 0xFF, 0x18, 0xFF, 0x18, 0xFF, 0x18, 0xFF, 0x18, 0xFF, 0x18, 0xFF, 0x18, 0xFF, 0x18,
      0xFF, 0x18, 0xFF])) := by decide +kernel
/-- F22, F26. -/
theorem test_validateResponseFrame : after (.validateResponseFrame (bs [0x48, 2, 0, 0, 0, 0, 0, 0, 0x4A]) 9#32) State.reset
    (fun t => (t.err.kind, t.err.rawn)) = some (.protocol, 9#4) := by decide +kernel
theorem test_validateResponseFrame_short : after (.validateResponseFrame (bs [0x49]) 1#32) State.reset (fun t => t.err.kind)
    = some .protocol := by decide +kernel
/-- F28, F29, F30. -/
theorem test_isSync : after (.isSync 0x49#8) State.reset (fun t => t.ret) = some (.bool true) ∧
    after (.isSync 0x48#8) State.reset (fun t => t.ret) = some (.bool false) := by decide +kernel
theorem test_isHandshakeAck : after (.isHandshakeAck 0x11#8) State.reset (fun t => t.ret) = some (.bool true) ∧
    after (.isHandshakeAck 0x01#8) State.reset (fun t => t.ret) = some (.bool false) := by decide +kernel
theorem test_isAck : after (.isAck 0x01#8) State.reset (fun t => t.ret) = some (.bool true) ∧
    after (.isAck 0x11#8) State.reset (fun t => t.ret) = some (.bool false) := by decide +kernel
/-- H4, H3: a stale 11 is discarded, and the silence after it times out. -/
theorem test_handshake_stale : after .handshake (holding [0x11]) (fun t => (t.err.kind, t.err.step, t.err.rawn, t.pos.ph))
    = some (.timeout, 0x20#8, 0#4, 6#4) := by decide +kernel
/-- H5. -/
theorem test_handshake_banner : after .handshake
    (scripted (scriptOf ideal (resetPulseEvents opened.cfg) ++ [{ elapse := 0, arrive := bs [0x11, 0x42, 0x4F, 0x4F, 0x54] }]))
    (fun t => (t.err.kind, t.link.rxq, t.rx.rxb)) = some (.none, [], bs [0x11]) := by decide +kernel
/-- H6. -/
theorem test_resetPulse : after .resetPulse opened (fun t => (t.trace.length, t.link.rst, t.env.now)) = some (25, .deasserted, 110) := by
  decide +kernel
/-- L3, L4: what has been transmitted when the load stops. -/
theorem test_loadAndRun_refused : after (.loadAndRun shim4 0x20000000#32) (scripted [quiet, { elapse := 0, arrive := bs [0] }])
    (fun t => (t.err.kind, t.err.op, (txBytes t.trace).length)) = some (.protocol, 0x31#8, 9) := by decide +kernel
theorem test_loadAndRun_silent : after (.loadAndRun shim4 0x20000000#32) (scripted [quiet, { elapse := 0, arrive := bs [1] }])
    (fun t => (t.err.kind, t.err.op, (txBytes t.trace).length)) = some (.timeout, 0x32#8, 14) := by decide +kernel
/-- F12, L2. -/
theorem test_ramInit : after (.ramInit 0x20000000#32 0x1234#16) (holding [1]) (fun t => (txBytes t.trace, t.err.kind))
    = some (bs [0x49, 0, 0, 0, 0, 0x20, 0x34, 0x12, 0xAF], .none) := by decide +kernel
theorem test_shimData : after (.shimData []) (holding [1]) (fun t => (txBytes t.trace, t.err.kind)) = some (bs [0], .none) := by
  decide +kernel
/-- L5, L7. -/
theorem test_jump_short : after .jump (holding [0, 1, 2, 3, 4, 5, 6, 7, 8, 9]) (fun t => (t.err.kind, t.err.op, t.err.rawn))
    = some (.timeout, 0x33#8, 10#4) := by decide +kernel
theorem test_jump_long : after .jump (holding [0, 1, 2, 3, 4, 5, 6, 7, 8, 9, 10, 11, 12, 13, 14]) (fun t => (t.err.kind, t.link.rxq))
    = some (.none, bs [11, 12, 13, 14]) := by decide +kernel
/-- P-E3, P-E4. -/
theorem test_chipErase : after .chipErase
    (scripted [quiet, quiet, { elapse := 0, arrive := bs [0x49, 4, 0x11, 0x22, 0x33, 0x44, 0x55, 0x66, 0xB2] }])
    (fun t => (txBytes t.trace, t.err.kind)) = some (bs [0x49, 2, 0, 0, 0, 0, 0, 0, 0x4B], .none) := by decide +kernel
theorem test_chipErase_short : after .chipErase (scripted [quiet, quiet, { elapse := 0, arrive := bs [0x49, 2, 0, 0, 0, 0, 0, 0] }])
    (fun t => (t.err.kind, t.err.op, t.err.rawn)) = some (.timeout, 0x40#8, 8#4) := by decide +kernel
/-- P-W2, P-W3. -/
theorem test_writePage : after (.writePage 0x12345678#32 (bs [0xAA]))
    (scripted [quiet, quiet, { elapse := 0, arrive := bs [0x49, 4, 0x78, 0x56, 0x34, 0x12, 1, 0, 0x62] }])
    (fun t => (txBytes t.trace, t.err.kind)) = some (bs [0x49, 4, 0x78, 0x56, 0x34, 0x12, 1, 0, 0xAA, 0x0C], .none) := by
  decide +kernel
theorem test_writePage_header : after (.writePage 0x100#32 (bs [1, 2, 3]))
    (scripted [quiet, quiet, { elapse := 0, arrive := bs [0, 4, 0, 1, 0, 0, 3, 0, 8] }])
    (fun t => (t.err.kind, t.err.addr)) = some (.protocol, 0x100#32) := by decide +kernel
/-- The partition of five bytes into pages of four (program P2), and the empty image (D17). -/
theorem test_writeImage : after (.writeImage 0#32 image5 4#16) (scripted (scriptOf ideal (imageEvents 0#32 image5 4)))
    (fun t => (txBytes t.trace, t.wrk.rem)) = some (bs [0x49, 4, 0, 0, 0, 0, 4, 0, 0x11, 0x22, 0x33, 0x44, 0xFB, 0x49, 4, 4, 0, 0,
      0, 1, 0, 0x55, 0xA7], 0#32) := by decide +kernel
theorem test_writeImage_empty : after (.writeImage 0#32 [] 4#16) opened (fun t => t.trace) = some [] := by decide +kernel
/-- P-B4, P-B1. -/
theorem test_blankCheckSegment_flag : after (.blankCheckSegment 0x200#32 512#16)
    (scripted [quiet, quiet, { elapse := 0, arrive := bs [0x49, 7, 0, 0, 0, 0, 2, 0, 0, 0x52] }])
    (fun t => (t.err.kind, t.err.addr)) = some (.protocol, 0x200#32) := by decide +kernel
theorem test_blankCheckSegment : after (.blankCheckSegment 0#32 512#16)
    (scripted [quiet, quiet, { elapse := 0, arrive := bs [0x49, 7, 0, 0, 0, 0, 1, 0, 0, 0x51] }])
    (fun t => (txBytes t.trace, t.err.kind)) = some (bs [0x49, 7, 0, 0, 0, 0, 4, 0, 0, 2, 0x56], .none) := by decide +kernel
/-- The two queries of `blankCheck(0x1000, 4, 2)`; a failure at the second (O8). -/
theorem test_blankCheck : after (.blankCheck 0x1000#32 4#16 2#32) (scripted (scriptOf ideal (blankEvents 0x1000#32 4#16 2)))
    (fun t => txBytes t.trace) = some (bs [0x49, 7, 0, 0x10, 0, 0, 4, 0, 4, 0, 0x68, 0x49, 7, 4, 0x10, 0, 0, 4, 0, 4, 0, 0x6C]) := by
  decide +kernel
theorem test_blankCheck_second : after (.blankCheck 0#32 512#16 64#32) (scripted (scriptOf ideal (segmentEvents 0#32 512#16)))
    (fun t => (t.err.kind, t.err.addr, t.err.idx, t.err.rawn)) = some (.timeout, 0x200#32, 1#32, 0#4) := by decide +kernel
/-- O4, O5. -/
theorem test_download_range :
    refusalOf (exec .download { State.reset with cfg := { State.reset.cfg with imgAddr := 0xFFFFFFF0#32, imgLen := 0x20#32 } })
      = some .illFormedConfig := by decide +kernel
theorem test_download_busy : refusalOf (exec .download accepted) = some .busy := by decide +kernel
theorem test_listen : after .listen State.reset (fun t => (t.busy, t.pos.st)) = some (true, .closed) := by decide +kernel
/-- O1. -/
theorem test_loadImage : after .loadImage { accepted with cfg := { accepted.cfg with imgErr := true } }
    (fun t => (t.err.kind, t.err.step, t.busy, t.trace)) = some (.image, 0x52#8, false, []) := by decide +kernel

/-- The fetch: a table word presented at reset is the next call the step runs. -/
theorem test_fetch : (nextOf (step (State.reset.withFetchWord 8 0x50))).map State.busy = some true ∧
    refusalOf (step (State.reset.withFetchWord 80 0xC00000000000000000C0)) = some .transportClosed := by decide +kernel

/-! ### Witnesses: for each obligation with hypotheses, states and operands that meet them -/

/-- The invariant of a concrete state with a download run in progress, from its parts. -/
theorem inv_of_run {s : State} (h : s.run = some .download) (h1 : Memory.wf s.img = true ∧ Memory.wf s.shm = true ∧
    (s.link.tOpen = false → s.link.rxq = [] ∧ s.link.rst = .undriven) ∧ s.link.txq = [] ∧
    (s.rx.rxb.length ≤ 11 ∧ s.rx.rxn.toNat = s.rx.rxb.length) ∧ s.err.raw.length ≤ 11 ∧ s.err.rawn.toNat = s.err.raw.length)
    (h2 : RunInv s .download) : StateInv s :=
  ⟨h1.1, h1.2.1, h1.2.2.1, h1.2.2.2.1, h1.2.2.2.2.1, h1.2.2.2.2.2, fun k hk => by
    obtain rfl : k = .download := by rw [h] at hk; exact (Option.some.inj hk).symm
    exact h2⟩

theorem witness_StatusRegistersReadTheState : StateInv failed1 :=
  ⟨by decide, by decide, by decide, by decide, by decide, by decide, fun k h => by simp [failed1, State.reset] at h⟩
theorem inv_program2_erase : StateInv (program2At .shimActive) :=
  inv_of_run rfl (by decide)
    ⟨by decide, by decide, by decide, by decide, by decide, by decide, by decide, by decide, by decide, by decide⟩
theorem inv_program2_blank : StateInv (program2At .erased) :=
  inv_of_run rfl (by decide)
    ⟨by decide, by decide, by decide, by decide, by decide, by decide, by decide, by decide, by decide, by decide⟩
theorem inv_program2 : StateInv program2 :=
  inv_of_run rfl (by decide)
    ⟨by decide, by decide, by decide, by decide, by decide, by decide, by decide, by decide, by decide, by decide⟩
/-- `program2At .shimActive` at its later events. -/
def eraseAt (ph : BitVec 4) (script : List Turn) : State :=
  { program2At .shimActive with
    pos := { st := .shimActive, ph := ph, idx := 0#32 }, env := { now := 0, script := script, opens := [] } }
theorem inv_eraseAt_1 : StateInv (eraseAt 1#4 []) :=
  inv_of_run rfl (by decide)
    ⟨by decide, by decide, by decide, by decide, by decide, by decide, by decide, by decide, by decide, by decide⟩
theorem inv_eraseAt_2 (l : List Turn) : StateInv (eraseAt 2#4 l) :=
  inv_of_run rfl (by simp only [eraseAt]; decide)
    ⟨by simp only [eraseAt]; decide, by simp only [eraseAt]; decide, by simp only [eraseAt]; decide,
     by simp only [eraseAt]; decide, by simp only [eraseAt]; decide, by simp only [eraseAt]; decide,
     by simp only [eraseAt]; decide, by simp only [eraseAt]; decide, by simp only [eraseAt]; decide,
     by simp only [eraseAt]; decide⟩

theorem witness_BlockResetStopsAnyRun : ∃ rest, ({ running .download .synced 3#4 with host := [.blockReset, .pass] } : State).host
    = .blockReset :: rest := ⟨_, rfl⟩
theorem witness_IdleBlockDoesNothing : opened.busy = false ∧ opened.host = [] := by decide
theorem witness_StepRunsTheDecodedCall :
    ({ opened with host := [.call .opid (bs [0x15, 0x49, 0x77])] } : State).host = .call .opid (bs [0x15, 0x49, 0x77]) :: [] ∧
    opened.busy = false ∧ dec .opid [0x15, 0x49, 0x77] = some (.isSync 0x49#8, bs [0x77]) ∧
    (Instr.isSync 0x49#8).wellFormed = true := by decide
/-- R230: after `open` at `Initialized` no flash opcode is sent, at `Failed` no message; at `ShimActive` CHIP_ERASE is. -/
theorem test_phase :
    refusalOf (step (calling .initialized [0x40])) = some .outOfPhase ∧ refusalOf (step (calling .failed [0x20])) = some .outOfPhase ∧
    refusalOf (step { calling .initialized [0x40] with link := State.reset.link }) = some .transportClosed ∧
    (nextOf (step (calling .shimActive [0x40]))).map (fun t => txBytes t.trace) = some (bs [0x49, 2, 0, 0, 0, 0, 0, 0, 0x4B]) := by
  decide +kernel
theorem witness_CallsAreRefusedWhileBusy : accepted.busy = true ∧
    ({ accepted with host := [.call .opid (bs [0x50])] } : State).host = .call .opid (bs [0x50]) :: [] := by decide
theorem witness_ConfigWritesOnlyWhileIdle :
    (nextOf (step { opened with host := [.writeReg (.tPoll 7#16)] })).map (fun t => t.cfg.tPoll) = some 7#16 ∧
    (nextOf (step { accepted with host := [.writeReg (.tPoll 7#16)] })).map (fun t => t.cfg.tPoll) = some 10#16 := by decide +kernel
theorem witness_InputMemoriesHoldWhatIsSupplied :
    Memory.wf program2.img = true ∧ memRead program2.img 1 4 = some (bs [0x22, 0x33, 0x44, 0x55]) ∧
    memRead program2.img 1 5 = none ∧
    (nextOf (step { opened with host := [.pokeImg 0#32 0xAA#8] })).map (fun t => t.img) = some [(0, 0xAA#8)] ∧
    refusalOf (step { accepted with host := [.pokeImg 0#32 0xAA#8] }) = some .inputsChanged ∧
    (nextOf (step { opened with host := [.pokeShm 0xFFFF#16 0xAA#8] })).map (fun t => (t.img, t.shm)) = some ([], [(65535, 0xAA#8)]) ∧
    refusalOf (step { accepted with host := [.pokeShm 0#16 0xAA#8] }) = some .inputsChanged := by decide +kernel
theorem witness_DecodeAfterEncode :
    (Instr.pageWriteMsg 0#32 [] 0#8).encodable = true ∧ (Instr.pageWriteMsg 0#32 [] 0#8).format ≠ .rawvar ∧
    (Instr.shimDataMsg [] 0#8).encodable = true ∧ (Instr.shimDataMsg [] 0#8).format = .rawvar := by decide
theorem witness_EncodeAfterDecode : dec .tx [0x49, 4, 0, 0, 0, 0, 0, 0, 1, 2] = some (.pageWriteMsg 0#32 [] 1#8, [2#8]) := by decide
theorem witness_TableWordsDecode : (0x01#8 : Byte) ≠ 0x00#8 ∧ (0x01#8 : Byte) ≠ 0x02#8 ∧ (0x01#8 : Byte) ≠ 0x04#8 ∧
    (0x01#8 : Byte) ≠ 0x07#8 := by decide
/-- F27, F20 are accepted; F25, F23 are not, outside a run. -/
theorem witness_ValidateAcceptsExactlyTheFrames :
    validFrame (bs [0x49, 0x49]) (2#32 : Word).toNat = true ∧ validFrame (bs [0x49, 2, 0, 0, 0, 0, 0, 0, 0x4B]) 9 = true ∧
    validFrame [] (0#32 : Word).toNat = false ∧ validFrame (bs [0x49, 2, 0, 0, 0, 0, 0, 0, 0x4B]) 10 = false ∧
    State.reset.busy = false ∧ (bs [0, 1, 2, 3, 4, 5, 6, 7, 8, 9, 10]).length ≤ 11 := by decide
theorem witness_FramesRoundTrip : (0 < (commandFrame 2#8 0#32 [] []).length ∧ (commandFrame 2#8 0#32 [] [])[0]? ≠ some 0x48#8) ∧
    (bs [0x49] ≠ [] ∧ (bs [0x49])[0]? = some 0x49#8 ∧ 1 ≤ (bs [0x49]).length ∧ (appendSum8 (bs [0x49]))[1]? ≠ some 0x48#8) ∧
    (bs [0x48] ≠ [] ∧ (bs [0x48])[0]? ≠ some 0x49#8) := by decide
theorem witness_ChecksumLaws : List.Perm (bs [1, 2]) (bs [2, 1]) := List.Perm.swap _ _ []
theorem witness_ConstantMessages : opened.link.tOpen = true := by decide
theorem witness_FieldMessages : opened.link.tOpen = true ∧ ([] : List Byte).length ≤ 65535 ∧ shim4.length ≤ 65535 := by decide
theorem witness_Responses : opened.link.tOpen = true ∧ opened.link.rxq = [] ∧ opened.env.script = [] ∧ opened.busy = false := by decide
theorem witness_ResponsesBadChecksum : (0x4A#8 : Byte) ≠ sum8 [0x49#8, 2#8, 0#8, 0#8, 0#8, 0#8, 0#8, 0#8] ∧
    (0x52#8 : Byte) ≠ sum8 [0x49#8, 7#8, 0#8, 0#8, 0#8, 0#8, 1#8, 0#8, 0#8] := by decide
theorem witness_BlankVerdict : RxShape.resp10.accepts (bs [0x49, 7, 0, 0, 0, 0, 1, 0, 0, 0x51]) = true ∧
    RxShape.resp10.accepts (bs [0x49, 7, 0, 0, 0, 0, 1, 5, 0, 0x56]) = false := by decide
theorem witness_OpenFollows : ({ State.reset with env := { now := 0, script := [], opens := [true, false] } } : State).env.opens
      = true :: [false] ∧
    ({ opened with env := { now := 0, script := [], opens := [false] } } : State).env.opens = false :: [] := by decide
theorem witness_CloseIsIdempotent : opened.link.tOpen = true ∧ State.reset.link.tOpen = false := by decide
theorem witness_LineDiscardAndWrite : (holding [1]).link.tOpen = true := by decide
theorem witness_EnvironmentTouches : opened.env.script = [] ∧ (scripted [quiet]).env.script = quiet :: [] := by decide
theorem witness_WaitLasts : State.reset.link.tOpen = false := by decide
theorem witness_ReadTakes : (holding [1, 2]).link.tOpen = true ∧ (2#32 : Word).toNat ≤ (envTurn (holding [1, 2])).link.rxq.length ∧
    (2#32 : Word).toNat ≤ 11 := by decide
theorem witness_ReadReturns : (holding [1]).link.tOpen = true ∧ (holding [1]).busy = false := by decide
/-- T6: an arrival exactly at the deadline is in time; T7: nothing ever arrives. -/
theorem witness_ReadVerdict :
    1 ≤ ((envTurn (scripted [quiet, { elapse := 5000, arrive := bs [0x11] }])).link.rxq
      ++ arrivedBy 5000 (envTurn (scripted [quiet, { elapse := 5000, arrive := bs [0x11] }])).env.script).length ∧
    ((envTurn opened).link.rxq ++ ((envTurn opened).env.script.map Turn.arrive).flatten).length < 1 := by decide
theorem witness_RefusedOperations : State.reset.link.tOpen = false ∧
    2 ^ 32 < (0xFFFFFFFF#32 : Word).toNat + (bs [1, 2]).length ∧
    2 ^ 32 < (0xFFFFFE00#32 : Word).toNat + (2#32 : Word).toNat * (512#16 : Half).toNat ∧
    (bs [1] ≠ [] ∧ (bs [1]).length < 2 ^ 32 ∧ (64#16 : Half) ≠ 0#16 ∧ (0xFFFFFFFF#32 : Word).toNat + (bs [1]).length ≤ 2 ^ 32) ∧
    (1#32 : Word) ≠ 0#32 ∧ (512#16 : Half) ≠ 0#16 ∧
    (0xFFFFFE00#32 : Word).toNat + (1#32 : Word).toNat * (512#16 : Half).toNat ≤ 2 ^ 32 := by decide
theorem witness_RefusedLengths : ∃ l : List Byte, 65535 < l.length := ⟨List.replicate 65536 0#8, by rw [List.length_replicate]; decide⟩
theorem witness_ResetPulse : opened.link.tOpen = true := by decide
theorem witness_HandshakeCompletes : goodAnswers ideal ∧
    (scripted (scriptOf ideal (handshakeEvents opened.cfg) ++ [quiet])).env.script
      = scriptOf ideal (handshakeEvents (scripted []).cfg) ++ [quiet] := ⟨ideal_good, by decide⟩
theorem witness_HandshakeFails : opened.busy = false ∧ (0x01#8 : Byte) ≠ 0x11#8 ∧
    (scripted (scriptOf (fun _ => [0x01#8]) (resetPulseEvents opened.cfg ++ [.recv .hsAck]))).env.script
      = scriptOf (fun _ => [0x01#8]) (resetPulseEvents (scripted []).cfg ++ [.recv .hsAck]) ∧
    (scripted (scriptOf (fun _ => []) (resetPulseEvents opened.cfg))).env.script
      = scriptOf (fun _ => []) (resetPulseEvents (scripted []).cfg) := by decide
theorem witness_ShimExchanges : goodAnswers ideal ∧ opened.link.tOpen = true ∧ opened.link.rxq = [] ∧ shim4.length ≤ 65535 ∧
    (scripted (scriptOf ideal (ramInitEvents 0x20000000#32 4#16) ++ [])).env.script
      = scriptOf ideal (ramInitEvents 0x20000000#32 4#16) ++ [] ∧
    (scripted (scriptOf ideal (shimDataEvents []) ++ [])).env.script = scriptOf ideal (shimDataEvents []) ++ [] ∧
    (scripted (scriptOf ideal jumpEvents ++ [])).env.script = scriptOf ideal jumpEvents ++ [] := by
  refine ⟨ideal_good, ?_⟩; decide
theorem witness_LoadAndRun : goodAnswers ideal ∧ ([] : List Byte).length ≤ 65535 ∧
    (scripted (scriptOf ideal (loadEvents shim4 0x20000000#32) ++ [quiet])).env.script
      = scriptOf ideal (loadEvents shim4 0x20000000#32) ++ [quiet] := by
  refine ⟨ideal_good, ?_⟩; decide
theorem witness_FlashExchangesComplete : goodAnswers ideal ∧ (holding [9]).link.tOpen = true ∧ (bs [1]).length ≤ 65535 ∧
    (scripted (scriptOf ideal chipEraseEvents ++ [])).env.script = scriptOf ideal chipEraseEvents ++ [] ∧
    (scripted (scriptOf ideal (pageEvents 0#32 (bs [1])) ++ [])).env.script = scriptOf ideal (pageEvents 0#32 (bs [1])) ++ [] ∧
    (scripted (scriptOf ideal (segmentEvents 0#32 512#16) ++ [])).env.script = scriptOf ideal (segmentEvents 0#32 512#16) ++ [] := by
  refine ⟨ideal_good, ?_⟩; decide
/-- P-E2, P-E4, P-B4, L3, L4, L5: a response of full length that is rejected, and one that is too short, for each exchange. -/
theorem witness_ExchangesFail :
    ((bs [0x49, 2, 0, 0, 0, 0, 0, 0, 0x4A]).length ≤ 9 ∧ validFrame (bs [0x49, 2, 0, 0, 0, 0, 0, 0, 0x4A]) 9 = false) ∧
    (([] : List Byte).length ≤ 9 ∧ validFrame [] 9 = false) ∧
    ((bs [0x49, 7, 0, 0, 0, 0, 2, 0, 0, 0x52]).length ≤ 10 ∧
      RxShape.resp10.accepts (bs [0x49, 7, 0, 0, 0, 0, 2, 0, 0, 0x52]) = false) ∧
    (([] : List Byte).length ≤ 10 ∧ RxShape.resp10.accepts [] = false) ∧ (0x00#8 : Byte) ≠ 0x01#8 ∧
    (bs [0, 0, 0, 0, 0, 0, 0, 0, 0, 0]).length < 11 ∧ opened.busy = false ∧ opened.link.rxq = [] ∧
    (scripted (scriptOf (fun _ => []) chipEraseEvents)).env.script = scriptOf (fun _ => []) chipEraseEvents ∧
    (scripted (scriptOf (fun _ => []) (pageEvents 1#32 []))).env.script = scriptOf (fun _ => []) (pageEvents 1#32 []) ∧
    (scripted (scriptOf (fun _ => []) (segmentEvents 1#32 1#16))).env.script = scriptOf (fun _ => []) (segmentEvents 1#32 1#16) ∧
    (scripted (scriptOf (fun _ => []) (ramInitEvents 1#32 1#16))).env.script = scriptOf (fun _ => []) (ramInitEvents 1#32 1#16) ∧
    (scripted (scriptOf (fun _ => []) (shimDataEvents []))).env.script = scriptOf (fun _ => []) (shimDataEvents []) ∧
    (scripted (scriptOf (fun _ => []) jumpEvents)).env.script = scriptOf (fun _ => []) jumpEvents := by decide
theorem witness_BlankCheckQueries : goodAnswers ideal ∧ opened.link.txq = [] ∧ 1 ≤ (4#16 : Half).toNat ∧
    (0x1000#32 : Word).toNat + (2#32 : Word).toNat * (4#16 : Half).toNat ≤ 2 ^ 32 ∧
    (scripted (scriptOf ideal (blankEvents 0x1000#32 4#16 2) ++ [])).env.script
      = scriptOf ideal (blankEvents 0x1000#32 4#16 (2#32 : Word).toNat) ++ [] := by
  refine ⟨ideal_good, ?_⟩; decide
theorem witness_WriteImage : goodAnswers ideal ∧ 1 ≤ (4#16 : Half).toNat ∧ (0#32 : Word).toNat + image5.length ≤ 2 ^ 32 ∧
    image5.length < 2 ^ 32 ∧ (scripted (scriptOf ideal (imageEvents 0#32 image5 4) ++ [])).env.script
      = scriptOf ideal (imageEvents 0#32 image5 (4#16 : Half).toNat) ++ [] := by
  refine ⟨ideal_good, ?_⟩; decide
theorem witness_Partition : 1 ≤ 4 ∧ (0#32 : Word).toNat + image5.length ≤ 2 ^ 32 ∧ 1 < pageCount image5.length 4 ∧
    pageCount image5.length 4 ≠ 0 ∧ pageCount 0 4 = 0 := by decide
theorem witness_StartCommands : State.reset.busy = false ∧ State.reset.cfg.downloadOk = true ∧
    ({ State.reset.cfg with writePage := 0#16 } : ConfigRegs).downloadOk = false := by decide
theorem witness_LoadImage : State.reset.cfg.imgErr = false ∧
    ({ accepted with cfg := { accepted.cfg with imgErr := true } } : State).cfg.imgErr = true ∧
    accepted.link.tOpen = false ∧ accepted.host = [] ∧ accepted.run = some .download ∧ accepted.pos.st = .closed := by decide
theorem witness_RunsFollowTheChain : StateInv (program2At .shimActive) ∧ (program2At .shimActive).run = some .download ∧
    (program2At .shimActive).host = [] ∧ (nextOf (step (program2At .shimActive))).isSome = true :=
  ⟨inv_program2_erase, by decide, by decide, by decide +kernel⟩
theorem witness_InputsAreFixed : accepted.busy = true ∧ accepted.host.head? ≠ some .blockReset ∧
    (nextOf (step accepted)).isSome = true := by decide +kernel
theorem witness_ErrorRegistersChange : (nextOf (step accepted)).map (fun t => t.pos.st) = some .failed ∧
    (nextOf (step { accepted with env := { now := 0, script := [], opens := [true] } })).map (fun t => t.pos.st)
      = some .initialized ∧
    (nextOf (step { failed1 with host := [.call .opid (bs [0x51])] })).map (fun t => (t.err.kind, t.busy)) = some (.none, true) ∧
    (nextOf (step { failed1 with host := [.blockReset] })).map (fun t => t.err.kind) = some .none ∧
    (nextOf (step (calling .shimActive [0x40]))).map (fun t => (t.err.kind, t.pos.st)) = some (.timeout, .failed) := by decide +kernel
theorem witness_FailureEndsTheRun : StateInv program2 ∧ program2.busy = true ∧ program2.host = [] ∧
    (nextOf (step program2)).map (fun t => t.pos.st) = some .failed := ⟨inv_program2, by decide, by decide, by decide +kernel⟩
theorem witness_ListenEnds :
    ({ State.reset with run := some .listen, env := { now := 0, script := [], opens := [true] } } : State).env.opens = true :: [] ∧
    State.reset.host = [] ∧ State.reset.link.tOpen = false := by decide
/-- A run in progress, to fail in each state whose step can fail; in the two loops at the second segment or page, at address 4. -/
def failing (st : SeqState) (ph : BitVec 4) (idx : Word) : State :=
  { program2At st with
    pos := { st := st, ph := ph, idx := idx }
    wrk := { csum := 0#8, op := 0#8, addr := 4#32, len := 0#16, rem := 1#32 } }
theorem witness_MessagesKeepToTheirPhase :
    [failing .initialized 3#4 0#32, failing .synced 0#4 0#32, failing .synced 2#4 0#32, failing .synced 4#4 0#32,
      failing .shimActive 1#4 0#32, failing .erased 1#4 1#32, failing .verified 1#4 1#32, failing .programmed 3#4 0#32].map
        (fun s => (s.busy, s.host, (nextOf (step s)).map fun t => txBytes t.trace))
    = [TxMsg.handshake, .ramInit 0x20000000#32 4#16, .shimData shim4, .jump, .chipErase, .blankCheck 4#32 4#16,
      .pageWrite 4#32 (bs [0x55]), .handshake].map (fun m => (true, [], some m.bytes)) ∧
    (nextOf (step (calling .closed [0x05, 1, 0, 0, 0, 0x49]))).map (fun t => txBytes t.trace) = some (bs [0x49]) ∧
    (nextOf (step (calling .initialized [0x21]))).map (fun t => txBytes t.trace) = some Config.hsPattern := by decide +kernel
/-- `PH` = 0 (the event, and the empty loop), `PH` = 1, and `PH` = 2 with its three ends. -/
theorem witness_FlashRequestsFollow : StateInv (program2At .erased) ∧ StateInv (eraseAt 1#4 []) ∧
    (∀ l, StateInv (eraseAt 2#4 l)) ∧
    (nextOf (step (program2At .erased))).map (fun t => t.pos.ph) = some 1#4 ∧
    (nextOf (step (eraseAt 1#4 []))).map (fun t => t.pos.ph) = some 2#4 ∧
    (nextOf (step (eraseAt 2#4 [{ elapse := 0, arrive := ideal .resp9 }]))).map (fun t => t.pos.st) = some .erased ∧
    (nextOf (step (eraseAt 2#4 [{ elapse := 0, arrive := bs [0, 0, 0, 0, 0, 0, 0, 0, 0] }]))).map (fun t => t.err.kind)
      = some .protocol ∧
    (nextOf (step (eraseAt 2#4 []))).map (fun t => t.err.kind) = some .timeout :=
  ⟨inv_program2_blank, inv_eraseAt_1, inv_eraseAt_2, by decide +kernel, by decide +kernel, by decide +kernel,
    by decide +kernel, by decide +kernel⟩
theorem witness_EveryStepKeeps : StateInv program2 ∧ (nextOf (step program2)).isSome = true := ⟨inv_program2, by decide +kernel⟩
theorem witness_HandshakeSteps : (program2At .initialized).run = some .download ∧ (program2At .initialized).host = [] ∧
    (program2At .initialized).pos = { st := .initialized, ph := 0#4, idx := 0#32 } := by decide
theorem witness_LoadAndEraseSteps : (program2At .synced).run = some .download ∧ (program2At .synced).host = [] ∧
    (program2At .synced).pos = { st := .synced, ph := 0#4, idx := 0#32 } ∧
    memRead (program2At .synced).shm 0 (program2At .synced).cfg.shimLen.toNat = some shim4 ∧
    (program2At .shimActive).pos = { st := .shimActive, ph := 0#4, idx := 0#32 } := by decide
theorem witness_BlankCheckSteps : (program2At .erased).run = some .download ∧
    (program2At .erased).pos = { st := .erased, ph := 0#4, idx := 0#32 } ∧ (program2At .erased).cfg.downloadOk = true ∧
    (program2At .erased).cfg.blankCount ≠ 0#32 ∧
    ({ (program2At .erased).cfg with blankCount := 0#32 } : ConfigRegs).downloadOk = true := by decide
theorem witness_WriteImageSteps : (program2At .verified).pos = { st := .verified, ph := 0#4, idx := 0#32 } ∧
    (program2At .verified).cfg.downloadOk = true ∧ (program2At .verified).cfg.imgLen ≠ 0#32 ∧
    memRead (program2At .verified).img 0 (program2At .verified).cfg.imgLen.toNat = some image5 ∧
    memRead (program2At .verified).img 0 0 = some [] := by decide
theorem witness_EveryDownloadRunEnds : StateInv program2 ∧ program2.run = some .download ∧ program2.host = [] ∧
    program2.pos = State.reset.pos ∧ memRead program2.img 0 program2.cfg.imgLen.toNat = some image5 ∧
    memRead program2.shm 0 program2.cfg.shimLen.toNat = some shim4 := by
  refine ⟨inv_program2, ?_⟩; decide
/-- Program P2 of 95_test_vectors.md. -/
theorem witness_PipelineReachesDone : goodAnswers ideal ∧ program2.link.tOpen = false ∧ program2.cfg.downloadOk = true ∧
    program2.cfg.imgErr = false ∧
    ({ program2 with env :=
        { now := 0, opens := [true]
          script := quiet :: scriptOf ideal (downloadEvents program2.cfg image5 shim4) ++ quiet :: [] } } : State).env.script
      = quiet :: scriptOf ideal (downloadEvents program2.cfg image5 shim4) ++ quiet :: [] := by
  refine ⟨ideal_good, ?_⟩; decide
/-- Program P4 of 95_test_vectors.md: the second clause of the same statement. -/
theorem witness_PipelineStopsAtTheErase :
    (bs [0x49, 2, 0, 0, 0, 0, 0, 0, 0x4A]).length = 9 ∧ validFrame (bs [0x49, 2, 0, 0, 0, 0, 0, 0, 0x4A]) 9 = false ∧
    ({ program2 with env :=
        { now := 0, opens := [true]
          script := quiet :: scriptOf ideal
              (handshakeEvents program2.cfg ++ loadEvents shim4 program2.cfg.ramBase ++ [.discard, .send .chipErase])
            ++ { elapse := 0, arrive := bs [0x49, 2, 0, 0, 0, 0, 0, 0, 0x4A] } :: [] } } : State).env.script
      = quiet :: scriptOf ideal
          (handshakeEvents program2.cfg ++ loadEvents shim4 program2.cfg.ramBase ++ [.discard, .send .chipErase])
        ++ { elapse := 0, arrive := bs [0x49, 2, 0, 0, 0, 0, 0, 0, 0x4A] } :: [] := by decide
theorem witness_FailuresRecord : StateInv program2 ∧ StateInv (failing .initialized 6#4 0#32) ∧
    StateInv (failing .synced 1#4 0#32) ∧ StateInv (failing .synced 3#4 0#32) ∧ StateInv (failing .synced 5#4 0#32) ∧
    StateInv (failing .shimActive 2#4 0#32) ∧ StateInv (failing .erased 2#4 1#32) ∧ StateInv (failing .verified 2#4 1#32) := by
  refine ⟨inv_program2, ?_, ?_, ?_, ?_, ?_, ?_, ?_⟩ <;> exact inv_of_run rfl (by decide)
    ⟨by decide, by decide, by decide, by decide, by decide, by decide, by decide, by decide, by decide, by decide⟩
/-- R25, R26 S5: with 4 left over in `ADDR`, a read, a validation, a RESP9 or a RESP10 alone records no address. -/
theorem test_leftover_address :
    let idle := fun st => { failing st 0#4 1#32 with run := none }
    [after (.readExact 9#32 0#32) (idle .verified) (fun t => t.err.addr),
      after (.validateResponseFrame (bs [0x49]) 1#32) (idle .erased) (fun t => t.err.addr),
      after (.resp9Msg 2#8 0#8 0#8 0#8 0#8 0#8 0#8 0x4A#8) (idle .verified) (fun t => t.err.addr),
      after (.resp10Msg 7#8 0#8 0#8 0#8 0#8 0#8 0x52#8) (idle .erased) (fun t => t.err.addr)]
    = [some 0#32, some 0#32, some 0#32, some 0#32] := by decide +kernel
theorem test_failures_record :
    [failing .initialized 6#4 0#32, failing .synced 1#4 0#32, failing .synced 3#4 0#32, failing .synced 5#4 0#32,
      failing .shimActive 2#4 0#32, failing .erased 2#4 1#32, failing .verified 2#4 1#32].map
        (fun s => (nextOf (step s)).map fun t => (t.pos.st, t.err.step, t.err.op, t.err.addr))
    = [some (.failed, 0x20#8, 0x20#8, 0#32), some (.failed, 0x30#8, 0x31#8, 0#32), some (.failed, 0x30#8, 0x32#8, 0#32),
      some (.failed, 0x30#8, 0x33#8, 0#32), some (.failed, 0x40#8, 0x40#8, 0#32), some (.failed, 0x44#8, 0x43#8, 4#32),
      some (.failed, 0x42#8, 0x41#8, 4#32)] := by decide +kernel

end Sys2Proof.Tests
end

