-- ==== Sys2Proof/Proofs/LittleEndian.lean ====
section
/-! PROOFS. The byte order of 00_scope.md R8: the value of the bytes in wire order, that `u16le` and `u32le` invert `le16` and
`le32`, and where a command frame carries its address and what its caller put after it. -/

namespace Sys2Proof

theorem u16le_toNat (b0 b1 : Byte) : (u16le b0 b1).toNat = b0.toNat + 256 * b1.toNat := by
  have h0 := b0.isLt
  rw [u16le, BitVec.toNat_append, ← Nat.shiftLeft_add_eq_or_of_lt h0, Nat.shiftLeft_eq]
  omega

/-- A word in wire order is its two half words, the low one first. -/
theorem u32le_eq_halves (b0 b1 b2 b3 : Byte) : u32le b0 b1 b2 b3 = u16le b2 b3 ++ u16le b0 b1 := by
  unfold u32le u16le; ext i hi; simp; grind

theorem u32le_toNat (b0 b1 b2 b3 : Byte) :
    (u32le b0 b1 b2 b3).toNat = b0.toNat + 256 * b1.toNat + 65536 * b2.toNat + 16777216 * b3.toNat := by
  have hlow := (u16le b0 b1).isLt
  rw [u32le_eq_halves, BitVec.toNat_append, ← Nat.shiftLeft_add_eq_or_of_lt hlow, Nat.shiftLeft_eq, u16le_toNat, u16le_toNat]
  omega

/-- The eight bits from bit `k` up are the byte whose value is the digit of `v` there. -/
theorem slice_eq_of_digit {n : Nat} {v : BitVec n} {b : Byte} {k : Nat} (h : v.toNat / 2 ^ k % 256 = b.toNat) :
    v.extractLsb' k 8 = b :=
  BitVec.eq_of_toNat_eq (by rw [BitVec.extractLsb'_toNat, Nat.shiftRight_eq_div_pow, h])

@[simp] theorem le16_u16le (b0 b1 : Byte) : le16 (u16le b0 b1) = [b0, b1] := by
  simp only [le16, List.cons.injEq, and_true]
  refine ⟨slice_eq_of_digit ?_, slice_eq_of_digit ?_⟩ <;> (rw [u16le_toNat]; omega)

@[simp] theorem le32_u32le (b0 b1 b2 b3 : Byte) : le32 (u32le b0 b1 b2 b3) = [b0, b1, b2, b3] := by
  simp only [le32, List.cons.injEq, and_true]
  refine ⟨slice_eq_of_digit ?_, slice_eq_of_digit ?_, slice_eq_of_digit ?_, slice_eq_of_digit ?_⟩ <;>
    (rw [u32le_toNat]; omega)

/-- The value of a half word is that of its bytes on the wire, for it is `u16le` of them. -/
theorem le16_value (v : Half) : ∃ b0 b1 : Byte, le16 v = [b0, b1] ∧ v.toNat = b0.toNat + 256 * b1.toNat :=
  ⟨_, _, rfl, by rw [← u16le_toNat, u16le_of_bytes]⟩

/-- The value of a word is that of its bytes on the wire, for it is `u32le` of them. -/
theorem le32_value (v : Word) : ∃ b0 b1 b2 b3 : Byte, le32 v = [b0, b1, b2, b3] ∧
    v.toNat = b0.toNat + 256 * b1.toNat + 65536 * b2.toNat + 16777216 * b3.toNat :=
  ⟨_, _, _, _, rfl, by rw [← u32le_toNat, u32le_of_bytes]⟩

/-- Bytes 2 to 5 of a command frame are its address (41_framecodec.md R122). -/
theorem commandFrame_addressField (opcode : Byte) (address : Word) (extra payload : List Byte) :
    ((commandFrame opcode address extra payload).drop 2).take 4 = le32 address := rfl

/-- A length at the end of `extra` stands behind the six bytes before `extra` and whatever `extra` begins with
(41_framecodec.md R122). -/
theorem commandFrame_lengthField (opcode : Byte) (address : Word) (front : List Byte) (length : Half) (payload : List Byte) :
    ((commandFrame opcode address (front ++ le16 length) payload).drop (6 + front.length)).take 2 = le16 length := by
  have hframe : commandFrame opcode address (front ++ le16 length) payload
      = ([Config.sync, opcode] ++ le32 address ++ front) ++ (le16 length ++ (payload
        ++ [sum8 (frameBody opcode address (front ++ le16 length) payload)])) := by
    simp [commandFrame, appendSum8, frameBody]
  rw [hframe, List.drop_left' (by simp; omega), List.take_left' (le16_length length)]

end Sys2Proof

namespace Sys2Proof.Machine

theorem TxMsg.ramInit_fields (a : Word) (l : Half) :
    ((TxMsg.ramInit a l).bytes.drop 2).take 4 = le32 a ∧ ((TxMsg.ramInit a l).bytes.drop 6).take 2 = le16 l :=
  ⟨commandFrame_addressField .., commandFrame_lengthField Config.opRamInit a [] l []⟩

theorem TxMsg.pageWrite_fields (a : Word) (data : List Byte) :
    ((TxMsg.pageWrite a data).bytes.drop 2).take 4 = le32 a ∧
    ((TxMsg.pageWrite a data).bytes.drop 6).take 2 = le16 (BitVec.ofNat 16 data.length) :=
  ⟨commandFrame_addressField .., commandFrame_lengthField Config.opWrite a [] _ data⟩

/-- CHIP_ERASE carries the address 0 and, in the place of a length, the integer 0 (30_encoding.md R75). -/
theorem TxMsg.chipErase_fields :
    (TxMsg.chipErase.bytes.drop 2).take 4 = le32 0#32 ∧ (TxMsg.chipErase.bytes.drop 6).take 2 = le16 0#16 :=
  ⟨commandFrame_addressField .., commandFrame_lengthField Config.opErase 0#32 [] 0#16 []⟩

/-- In BLANK_CHECK the two bytes of `Config.blankField` stand between the address and the length. -/
theorem TxMsg.blankCheck_fields (a : Word) (l : Half) :
    ((TxMsg.blankCheck a l).bytes.drop 2).take 4 = le32 a ∧ ((TxMsg.blankCheck a l).bytes.drop 8).take 2 = le16 l :=
  ⟨commandFrame_addressField .., commandFrame_lengthField Config.opBlank a Config.blankField l []⟩

/-- Settles O12: the values of the bytes, the inverse readings, and the fields of the four command frames. -/
theorem integersAreLittleEndian : Obligations.IntegersAreLittleEndian := by
  refine ⟨?half, ?word, ?halfBack, ?wordBack, fun _ => rfl, fun _ => rfl, by decide, by decide, ?ramInitAndBlankCheck,
    TxMsg.pageWrite_fields, TxMsg.chipErase_fields⟩
  case half => exact fun v => ⟨le16_length v, le16_value v⟩
  case word => exact fun v => ⟨le32_length v, le32_value v⟩
  case halfBack => exact fun b0 b1 => ⟨u16le_toNat b0 b1, le16_u16le b0 b1⟩
  case wordBack => exact fun b0 b1 b2 b3 => ⟨u32le_toNat b0 b1 b2 b3, le32_u32le b0 b1 b2 b3⟩
  case ramInitAndBlankCheck =>
    intro a l
    obtain ⟨hbase, hlen⟩ := TxMsg.ramInit_fields a l
    exact ⟨hbase, hlen, TxMsg.blankCheck_fields a l⟩

end Sys2Proof.Machine
end

