-- ==== Sys2Proof/Proofs/StateInvariant.lean ====
section
/-! PROOFS. What an operation, the block's own move and a step can do to the state, each said once (`OpMove`, `OpEnd`,
`StepEnd`), and the statements of 10_state.md derived from it: the invariant (R36), the fixed inputs of a run (R27, R35) and
the error registers (R26). -/

namespace Sys2Proof.Machine

/-! ### What an operation moves -/

/-- A closed transport holds nothing and drives nothing (10_state.md R30, R31). -/
def Link.Quiet (l : Link) : Prop := l.tOpen = false → l.rxq = [] ∧ l.rst = .undriven

/-- `t` differs from `s` by operations that raised no error: the error registers and the inputs are untouched, the run goes
on or ends, nothing new stays unsent, a closed transport stays quiet, and the receive buffer holds what a `Read` put there. -/
structure OpMove (s t : State) : Prop where
  run : t.run = s.run ∨ t.run = none
  err : t.err = s.err
  inputs : sameInputs s t
  quiet : s.link.Quiet → t.link.Quiet
  txq : t.link.txq = s.link.txq ∨ t.link.txq = []
  rx : t.rx = s.rx ∨ ∃ l, t.rx = rxBuffer l

/-- The position, the working registers and the value returned may change. -/
theorem OpMove.of_bookkeeping {s t : State} (h : t = { s with pos := t.pos, wrk := t.wrk, ret := t.ret }) : OpMove s t := by
  rw [h]
  exact ⟨.inl rfl, rfl, ⟨rfl, rfl, rfl, rfl⟩, id, .inl rfl, .inl rfl⟩

theorem sameInputs.trans {s t u : State} (h : sameInputs s t) (k : sameInputs t u) : sameInputs s u := by
  obtain ⟨hcfg, himg, hshm, hhost⟩ := h
  obtain ⟨kcfg, kimg, kshm, khost⟩ := k
  exact ⟨kcfg.trans hcfg, kimg.trans himg, kshm.trans hshm, khost.trans hhost⟩

theorem OpMove.refl (s : State) : OpMove s s := .of_bookkeeping rfl

theorem OpMove.trans {s t u : State} (h : OpMove s t) (k : OpMove t u) : OpMove s u where
  run := k.run.elim (fun e => h.run.imp e.trans e.trans) .inr
  err := k.err.trans h.err
  inputs := h.inputs.trans k.inputs
  quiet := k.quiet ∘ h.quiet
  txq := k.txq.elim (fun e => h.txq.imp e.trans e.trans) .inr
  rx := k.rx.elim (fun e => e ▸ h.rx) .inr

theorem EvMove.quiet {s t : State} (h : EvMove s t) (hq : s.link.Quiet) : t.link.Quiet := by
  intro hc
  have hs : s.link.tOpen = false := h.tOpen ▸ hc
  rw [h.closed hs]
  exact hq hs

theorem EvMove.opMove {s t : State} (h : EvMove s t) : OpMove s t :=
  ⟨.inl h.run, h.err, ⟨h.cfg, h.img, h.shm, h.host⟩, h.quiet, h.txq, h.rx⟩

theorem closeLink_opMove (s : State) : OpMove s (closeLink s) :=
  ⟨.inl rfl, rfl, ⟨rfl, rfl, rfl, rfl⟩, fun _ _ => ⟨rfl, rfl⟩, .inr rfl, .inl rfl⟩

theorem opClose_opMove (s : State) : OpMove s (opClose s) := by
  cases ho : s.link.tOpen
  · rw [opClose_closed ho]; exact .refl s
  · rw [opClose_open ho]; exact (envTurn_move s).evMove.opMove.trans (closeLink_opMove _)

theorem transmit_opMove (data : List Byte) (s : State) : OpMove s (transmit data s) :=
  ⟨.inl rfl, rfl, ⟨rfl, rfl, rfl, rfl⟩, id, .inr rfl, .inl rfl⟩

/-- On an open transport `RXQ` may be anything. -/
theorem OpMove.of_rxq {s : State} (ho : s.link.tOpen = true) (q : List Byte) :
    OpMove s { s with link := { s.link with rxq := q } } :=
  ⟨.inl rfl, rfl, ⟨rfl, rfl, rfl, rfl⟩, fun _ hc => by simp [ho] at hc, .inl rfl, .inl rfl⟩

theorem readTaken_opMove (n t : Nat) {s : State} (ho : s.link.tOpen = true) : OpMove s (readTaken n t s) :=
  { OpMove.of_rxq ho (s.link.rxq.drop n) with rx := .inr ⟨_, rfl⟩ }

theorem readPartial_opMove (n t : Nat) {s : State} (ho : s.link.tOpen = true) : OpMove s (readPartial n t s) :=
  { OpMove.of_rxq ho [] with rx := .inr ⟨_, rfl⟩ }

theorem stopRun_opMove (s : State) : OpMove s { s with run := none } :=
  ⟨.inr rfl, rfl, ⟨rfl, rfl, rfl, rfl⟩, id, .inl rfl, .inl rfl⟩

theorem finishRun_opMove (s : State) : OpMove s (finishRun s) := by
  have hrun : (finishRun s).run = s.run ∨ (finishRun s).run = none := by
    unfold finishRun; dsimp only; split
    · exact .inr rfl
    · exact .inl rfl
  exact ⟨hrun, by simp, by simp [sameInputs], by simp, by simp, by simp⟩

theorem advance_opMove (a b : SeqState) (s : State) : OpMove s (advance a b s) := .of_bookkeeping rfl

theorem restart_opMove (s : State) : OpMove s (restart s) := .of_bookkeeping rfl

theorem setPh_opMove (k : Nat) (s : State) : OpMove s (setPh k s) := .of_bookkeeping rfl

theorem advancePulse_opMove (s : State) : OpMove s (advancePulse s) := by
  unfold advancePulse; split <;> exact advance_opMove _ _ _

theorem beginStep_opMove (s : State) : OpMove s (beginStep s) :=
  ⟨by simp, by simp, by simp [sameInputs], by simp, by simp, by simp⟩

theorem finishStep_opMove (s : State) : OpMove s (finishStep s) :=
  ⟨by simp, by simp, by simp [sameInputs], by simp, by simp, by simp⟩

theorem finishEvents_opMove (s : State) : OpMove s (finishEvents s) :=
  ⟨by simp, by simp, by simp [sameInputs], by simp, by simp, by simp⟩

/-! ### How an operation ends -/

/-- Whether it ends normally or with an error, an operation begun in `s` made no other moves than `OpMove`, and the error it
raises is one of 60_exceptions.md R215. -/
def Res.MovesFrom (s : State) : Res → Prop
  | .ok t => OpMove s t
  | .err e t => OpMove s t ∧ e.kind ≠ .none
  | .fault _ | .refused _ => True

theorem Res.MovesFrom.after {s t : State} {r : Res} (h : OpMove s t) (hr : r.MovesFrom t) : r.MovesFrom s := by
  cases r with
  | ok u => exact h.trans hr
  | err e u => exact ⟨h.trans hr.1, hr.2⟩
  | fault | refused => trivial

theorem Res.MovesFrom.andThen {s : State} {r : Res} {k : State → Res} (hr : r.MovesFrom s)
    (hk : ∀ t, (k t).MovesFrom t) : (r.andThen k).MovesFrom s := by
  cases r with
  | ok t => exact .after hr (hk t)
  | err e t => exact hr
  | fault | refused => trivial

theorem Res.MovesFrom.map {s : State} {r : Res} {f : State → State} (hr : r.MovesFrom s) (hf : ∀ t, OpMove t (f t)) :
    (r.map f).MovesFrom s := hr.andThen (k := fun t => .ok (f t)) hf

theorem EvEnd.movesFrom {c : Ctx} {e : Ev} {s : State} {r : Res} (h : EvEnd c e s r) : r.MovesFrom s := by
  cases h with
  | ok h => exact h.opMove
  | err h _ _ hk _ => exact ⟨h.opMove, by rcases hk with hk | hk <;> simp [hk]⟩
  | fault | refused => trivial

theorem runEv_moves (c : Ctx) (e : Ev) (s : State) : (runEv c e s).MovesFrom s := (runEv_end c e s).movesFrom

theorem runEvents_moves (c : Ctx) (k : Nat) (es : List Ev) (s : State) : (runEvents c k es s).MovesFrom s := by
  induction es generalizing k s with
  | nil => exact .refl s
  | cons e es ih => exact .andThen (.after (setPh_opMove k s) (runEv_moves c e _)) (ih (k + 1))

/-- An event list run as an operation of its own: at `PH` = 0, `IDX` = 0. -/
theorem runEvents_restart_moves (c : Ctx) (k : Nat) (es : List Ev) (s : State) : (runEvents c k es (restart s)).MovesFrom s :=
  .after (restart_opMove s) (runEvents_moves c k es _)

theorem segmentLoop_moves (start : Word) (pageSize : Half) (is : List Nat) (s : State) :
    (segmentLoop start pageSize is s).MovesFrom s := by
  induction is generalizing s with
  | nil => exact .refl s
  | cons i is ih => exact .andThen (.after (t := setIdx i s) (.of_bookkeeping rfl) (runEvents_moves _ _ _ _)) ih

theorem pageLoop_moves (loadAddress : Word) (bytes : List Byte) (pageSize : Nat) (is : List Nat) (s : State) :
    (pageLoop loadAddress bytes pageSize is s).MovesFrom s := by
  induction is generalizing s with
  | nil => exact .refl s
  | cons i is ih =>
    exact .andThen (.after (t := setIdx i s) (.of_bookkeeping rfl) (runEvents_moves _ _ _ _))
      fun _ => .after (.of_bookkeeping rfl) (ih _)

theorem opSend_moves (m : TxMsg) (s : State) : (opSend m s).MovesFrom s := runEv_moves ctxOpen (.send m) s

theorem sendChecked_moves (m : TxMsg) (ck : Byte) (s : State) : (sendChecked m ck s).MovesFrom s := by
  unfold sendChecked; split
  · exact opSend_moves m s
  · trivial

theorem opRecvMsg_moves (c : Ctx) (sh : RxShape) (bytes : List Byte) (s : State) :
    (opRecvMsg c sh bytes s).MovesFrom s := by
  cases ho : s.link.tOpen
  · rw [opRecvMsg, requireOpen_closed ho]; trivial
  · rw [opRecvMsg, requireOpen_open ho]
    exact .after (.of_rxq ho _) (opRecv_end c sh _).movesFrom

theorem opWrite_moves (data : List Byte) (s : State) : (opWrite data s).MovesFrom s := by
  cases ho : s.link.tOpen
  · rw [opWrite, requireOpen_closed ho]; trivial
  · rw [opWrite, requireOpen_open ho]
    exact (envTurn_move s).evMove.opMove.trans (transmit_opMove data _)

/-- A `Read` moves what its verdict and the taking of the bytes move; what goes on with the bytes may move more. -/
theorem opRead_moves (c : Ctx) (n t : Nat) (s : State) {k : List Byte → State → Res}
    (hk : ∀ b u, (k b u).MovesFrom u) : (opRead c n t s k).MovesFrom s := by
  cases ho : s.link.tOpen
  · rw [opRead, requireOpen_closed ho]; trivial
  · obtain ⟨u, hu, ⟨-, hr⟩ | ⟨-, -, hr⟩⟩ := opRead_open c n t k ho
    all_goals
      have hopen : u.link.tOpen = true := hu.tOpen.trans ho
      rw [hr]
      refine .after hu.evMove.opMove ?_
    · exact .after (readTaken_opMove n t hopen) (hk _ _)
    · exact ⟨readPartial_opMove n t hopen, by simp⟩

theorem opOpen_moves (port : List Byte) (baud : Word) (s : State) : (opOpen port baud s).MovesFrom s := by
  obtain ⟨t, ht, -, hok, herr⟩ := opOpen_spec port baud s
  have inputs : sameInputs s t := ⟨ht.cfg, ht.img, ht.shm, ht.host⟩
  cases ha : s.env.opens.headD false
  · obtain ⟨hr, -, hlink⟩ := herr ha
    rw [hr]
    refine ⟨⟨.inl ht.run, ht.err, inputs, ?_, ?_, .inl ht.rx⟩, by simp⟩ <;> rw [hlink] <;> split
    · exact fun _ _ => ⟨rfl, rfl⟩
    · exact id
    · exact .inr rfl
    · exact .inl rfl
  · obtain ⟨hr, hlink⟩ := hok ha
    rw [hr]
    exact ⟨.inl ht.run, ht.err, inputs, fun _ hc => by simp [hlink] at hc, .inr (by rw [hlink]), .inl ht.rx⟩

/-! ### What an instruction can do -/

/-- How an instruction or a move of the block ends: it moves as operations do, or it raises an error after such moves, or it
has no step. -/
inductive OpEnd (s : State) : Host.Outcome State Fault Refusal → Prop where
  | moved {t : State} (h : OpMove s t) : OpEnd s (.next t)
  | failed {e : ErrInfo} {u : State} (h : OpMove s u) (hk : e.kind ≠ .none) : OpEnd s (.next (enterFailed e u))
  | fault (f : Fault) : OpEnd s (.fault f)
  | refused (x : Refusal) : OpEnd s (.refused x)

theorem Res.MovesFrom.settle_end {s : State} {r : Res} (h : r.MovesFrom s) : OpEnd s r.settle := by
  cases r with
  | ok t => exact .moved h
  | err e t => exact .failed h.1 h.2
  | fault f => exact .fault f
  | refused x => exact .refused x

theorem execWriteImage_end (loadAddress : Word) (bytes : List Byte) (pageSize : Half) (s : State) :
    OpEnd s (execWriteImage loadAddress bytes pageSize s) := by
  unfold execWriteImage; split
  · refine Res.MovesFrom.settle_end (.map ?_ (advance_opMove _ _))
    exact .after (.of_bookkeeping rfl) (pageLoop_moves _ _ _ _ _)
  · exact .refused _

theorem execLoadAndRun_end (shim : List Byte) (base : Word) (s : State) : OpEnd s (execLoadAndRun shim base s) := by
  unfold execLoadAndRun; split
  · refine Res.MovesFrom.settle_end (.map (.andThen (.andThen ?_ ?_) ?_) (advance_opMove _ _))
    · exact runEvents_restart_moves _ _ _ s
    · exact runEvents_moves _ _ _
    · exact runEvents_moves _ _ _
  · exact .refused _

theorem execReadExact_end (count timeout : Word) (s : State) : OpEnd s (execReadExact count timeout s) := by
  refine Res.MovesFrom.settle_end (opRead_moves _ _ _ s fun b u => ?_)
  exact OpMove.of_bookkeeping rfl

theorem execValidateResponseFrame_end (bytes : List Byte) (n : Word) (s : State) :
    OpEnd s (execValidateResponseFrame bytes n s) := by
  unfold execValidateResponseFrame; dsimp only; split
  · exact .moved (.of_bookkeeping rfl)
  · exact .failed (.of_bookkeeping rfl) (by simp)

theorem execClose_end (s : State) : OpEnd s (execClose s) := by
  unfold execClose
  cases s.link.tOpen
  · exact .moved (.refl s)
  · exact .moved ((opClose_opMove s).trans (finishRun_opMove _))

theorem execLoadImage_end (s : State) : OpEnd s (execLoadImage s) := by
  unfold execLoadImage; split
  · exact .failed (.refl s) (by simp)
  · exact .moved (.refl s)

/-- The acceptance of a start command (45_orchestrator.md R190). -/
def Starts (s : State) (o : Host.Outcome State Fault Refusal) : Prop :=
  ∃ k, o = .next (startRun k s) ∧ s.busy = false ∧ (k = .download → s.cfg.downloadOk = true)

theorem execDownload_end (s : State) : OpEnd s (execDownload s) ∨ Starts s (execDownload s) := by
  unfold execDownload
  cases hb : s.busy
  · cases hc : s.cfg.downloadOk
    · exact .inl (.refused _)
    · exact .inr ⟨.download, rfl, hb, fun _ => hc⟩
  · exact .inl (.refused _)

theorem execListen_end (s : State) : OpEnd s (execListen s) ∨ Starts s (execListen s) := by
  unfold execListen
  cases hb : s.busy
  · exact .inr ⟨.listen, rfl, hb, nofun⟩
  · exact .inl (.refused _)

theorem OpEnd.guarded {s : State} {p : Prop} [Decidable p] {o : Host.Outcome State Fault Refusal} {x : Refusal}
    (h : OpEnd s o) : OpEnd s (if p then o else .refused x) := by
  split
  · exact h
  · exact .refused x

/-- Every instruction but the two start commands ends as an operation. -/
theorem exec_end_of_not_start {i : Instr} (hd : i ≠ .download) (hl : i ≠ .listen) (s : State) : OpEnd s (exec i s) := by
  cases i with
  | handshakeMsg | jumpMsg | chipEraseMsg => exact (opSend_moves _ s).settle_end
  | ramInitMsg | blankCheckMsg => exact (sendChecked_moves _ _ s).settle_end
  | shimDataMsg | pageWriteMsg => exact (sendChecked_moves _ _ s).settle_end.guarded
  | hsAckMsg | ackMsg | jumpBannerMsg | resp9Msg | resp10Msg => exact (opRecvMsg_moves _ _ _ s).settle_end
  | openPort => exact (Res.MovesFrom.map (.after (restart_opMove s) (opOpen_moves _ _ _)) (advance_opMove _ _)).settle_end
  | closePort => exact execClose_end s
  | setResetLine a => exact (runEv_moves ctxOpen (.setReset a) s).settle_end
  | discardBuffers => exact (runEv_moves ctxOpen .discard s).settle_end
  | writeBytes => exact (opWrite_moves _ s).settle_end
  | wait ms => exact (runEv_moves ctxOpen (.wait ms.toNat) s).settle_end
  | readExact => exact execReadExact_end _ _ s
  | checksum8 | appendChecksum8 | buildCommandFrame | handshakePattern | isSync | isHandshakeAck | isAck =>
    exact .moved (.of_bookkeeping rfl)
  | validateResponseFrame => exact execValidateResponseFrame_end _ _ s
  | handshake | chipErase => exact ((runEvents_restart_moves _ _ _ s).map (advance_opMove _ _)).settle_end
  | resetPulse => exact ((runEvents_restart_moves _ _ _ s).map advancePulse_opMove).settle_end
  | loadAndRun => exact execLoadAndRun_end _ _ s
  | ramInit | jump => exact ((runEvents_restart_moves _ _ _ s).map restart_opMove).settle_end
  | shimData => exact ((runEvents_restart_moves _ _ _ s).map restart_opMove).settle_end.guarded
  | writePage => exact ((runEvents_moves _ _ _ s).map (setPh_opMove 0)).settle_end.guarded
  | writeImage => exact execWriteImage_end _ _ _ s
  | blankCheckSegment => exact ((runEvents_moves _ _ _ s).map (setPh_opMove 0)).settle_end
  | blankCheck =>
    exact (Res.MovesFrom.map (.after (restart_opMove s) (segmentLoop_moves _ _ _ _)) (advance_opMove _ _)).settle_end.guarded
  | download => exact absurd rfl hd
  | listen => exact absurd rfl hl
  | loadImage => exact execLoadImage_end s

/-- What an instruction can do: end as an operation, or be the acceptance of a start command. -/
theorem exec_end (i : Instr) (s : State) : OpEnd s (exec i s) ∨ Starts s (exec i s) := by
  by_cases hd : i = .download
  · subst hd; exact execDownload_end s
  by_cases hl : i = .listen
  · subst hl; exact execListen_end s
  · exact .inl (exec_end_of_not_start hd hl s)

/-! ### What the block's own move can do -/

theorem seqEvent_moves (s : State) : (seqEvent s).MovesFrom s := by
  cases he : (stepEvents (beginStep s))[s.pos.ph.toNat]? with
  | none => rw [seqEvent_none he]; exact (beginStep_opMove s).trans (finishStep_opMove _)
  | some ce =>
    rw [seqEvent_some he]
    refine .map (.after (beginStep_opMove s) (runEv_moves _ _ _)) fun t => ?_
    split
    · exact setPh_opMove _ t
    · exact finishEvents_opMove t

theorem seqOpen_moves (s : State) : (seqOpen s).MovesFrom s := by
  unfold seqOpen; split
  · exact ⟨.refl s, by simp⟩
  · exact .map (opOpen_moves _ _ s) (advance_opMove _ _)

/-- The block's own move ends as an operation, whatever the position. -/
theorem seqStep_end (s : State) : OpEnd s (seqStep s) := by
  unfold seqStep
  split
  · exact .moved (.refl s)
  · split
    · exact (seqOpen_moves s).settle_end
    · split
      · exact .moved ((opClose_opMove s).trans (finishRun_opMove _))
      · exact .refused _
    · exact .moved (stopRun_opMove s)
    · exact .moved (stopRun_opMove s)
    · exact (seqEvent_moves s).settle_end

/-! ### What a step can do -/

/-- The state with the host's next request taken off its list. -/
def State.taken (s : State) : State := { s with host := s.host.tail }

@[simp] theorem State.taken_busy (s : State) : s.taken.busy = s.busy := rfl

/-- What a step can be (log 31): the block's own move, an instruction called while no run is in progress, a host's write or
supplied byte, or block reset. -/
inductive StepEnd (s : State) : State → Prop where
  | own {t : State} (hr : s.host = [] ∨ s.host.head? = some .pass) (h : seqStep s.taken = .next t) : StepEnd s t
  | called {f : Format} {bs r : List Byte} {i : Instr} {t : State} (hr : s.host.head? = some (.call f bs))
    (hb : s.busy = false) (hd : decode f bs = .ok (i, r)) (hp : s.link.tOpen = true → callInPhase i s.pos.st = true)
    (h : exec i s.taken = .next t) : StepEnd s t
  | wrote {w : CfgWrite} (hr : s.host.head? = some (.writeReg w)) (hb : s.busy = false) :
    StepEnd s { s.taken with cfg := w.apply s.cfg }
  | ignored {w : CfgWrite} (hr : s.host.head? = some (.writeReg w)) (hb : s.busy = true) : StepEnd s s.taken
  | pokedImg {off : Word} {b : Byte} (hr : s.host.head? = some (.pokeImg off b)) (hb : s.busy = false) :
    StepEnd s { s.taken with img := memSet s.img off.toNat b }
  | pokedShm {off : Half} {b : Byte} (hr : s.host.head? = some (.pokeShm off b)) (hb : s.busy = false) :
    StepEnd s { s.taken with shm := memSet s.shm off.toNat b }
  | reset (hr : s.host.head? = some .blockReset) : StepEnd s (blockReset s.taken)

/-- A step that finds a request takes it off the list and does it. -/
theorem step_request {s : State} {r : HostReq} {rest : List HostReq} (h : s.host = r :: rest) :
    step s = hostStep r s.taken := by
  simp only [step, machineStep, State.taken, h, List.tail_cons]

/-- A write of a configuration register (10_state.md R27). -/
theorem hostStep_writeReg (w : CfgWrite) (s : State) :
    hostStep (.writeReg w) s = .next { s with cfg := if s.busy then s.cfg else w.apply s.cfg } := by
  cases hb : s.busy <;> simp [hostStep, hb]

theorem hostPoke_next {s t u : State} (h : hostPoke s t = .next u) : s.busy = false ∧ u = t := by
  unfold hostPoke at h
  cases hb : s.busy <;> simp only [hb, if_true, Bool.false_eq_true, if_false] at h
  · cases h; exact ⟨rfl, rfl⟩
  · cases h

theorem step_end {s t : State} (h : step s = .next t) : StepEnd s t := by
  cases hh : s.host with
  | nil =>
    have hs : s.taken = s := by cases s; cases hh; rfl
    rw [step_quiet hh] at h
    exact .own (.inl hh) (hs.symm ▸ h)
  | cons r rest =>
    have hhead : s.host.head? = some r := by rw [hh]; rfl
    rw [step_request hh] at h
    cases r with
    | pass => exact .own (.inr hhead) h
    | call f bs =>
      obtain ⟨hb, i, _, hd, hp, he⟩ := hostCall_next h
      exact .called hhead hb hd hp he
    | writeReg w =>
      rw [hostStep_writeReg, State.taken_busy] at h
      cases hb : s.busy <;> rw [hb] at h <;> cases h
      · exact .wrote hhead hb
      · exact .ignored hhead hb
    | pokeImg a b =>
      obtain ⟨hb, rfl⟩ := hostPoke_next h
      exact .pokedImg hhead hb
    | pokeShm a b =>
      obtain ⟨hb, rfl⟩ := hostPoke_next h
      exact .pokedShm hhead hb
    | blockReset => cases h; exact .reset hhead

/-! ### The inputs of a run and the error registers -/

theorem enterFailed_inputs (e : ErrInfo) (s : State) : sameInputs s (enterFailed e s) := by
  obtain ⟨-, -, -, hcfg, himg, hshm, hhost, -⟩ := enterFailed_spec e s
  exact ⟨hcfg, himg, hshm, hhost⟩

/-- No operation and no move of the block writes the inputs (10_state.md R28, R35). -/
theorem OpEnd.inputs {s t : State} (h : OpEnd s (.next t)) : sameInputs s t := by
  cases h with
  | moved h => exact h.inputs
  | @failed e u h _ => exact h.inputs.trans (enterFailed_inputs e u)

/-- Settles O46: during a run a step is the block's own move, a write that is ignored, or block reset; calls and supplied
bytes are refused. -/
theorem inputsAreFixedDuringARun : Obligations.InputsAreFixedDuringARun := by
  intro s t hbusy hreset hstep
  cases step_end hstep with
  | own _ h =>
    have hend := seqStep_end s.taken
    rw [h] at hend
    obtain ⟨hcfg, himg, hshm, -⟩ := hend.inputs
    exact ⟨hcfg, himg, hshm⟩
  | ignored => exact ⟨rfl, rfl, rfl⟩
  | reset hr => exact absurd hr hreset
  | called _ hb | wrote _ hb | pokedImg _ hb | pokedShm _ hb => simp [hbusy] at hb

/-- An operation leaves the error registers or enters `Failed` with an error recorded (60_exceptions.md R226). -/
theorem OpEnd.errors {s t : State} (h : OpEnd s (.next t)) :
    t.err = s.err ∨ (t.pos.st = .failed ∧ t.err.kind ≠ .none) := by
  cases h with
  | moved h => exact .inl h.err
  | @failed e u _ hk =>
    obtain ⟨hpos, -, herr, -⟩ := enterFailed_spec e u
    exact .inr ⟨by rw [hpos], by rw [herr]; exact hk⟩

/-- Without a run the block has no move of its own (45_orchestrator.md R199). -/
theorem seqStep_idle {s : State} (h : s.run = none) : seqStep s = .next s := by rw [seqStep, h]

/-- Settles O47: the block's own move changes the error registers in a run only; a call fails or begins a run; the host's
writes leave them alone. -/
theorem errorRegistersChangeOnlyOnFailure : Obligations.ErrorRegistersChangeOnlyOnFailure := by
  intro s t hstep called
  cases step_end hstep with
  | own _ h =>
    cases hrun : s.run with
    | none =>
      rw [seqStep_idle (s := s.taken) hrun] at h
      cases h
      exact .inl rfl
    | some k =>
      have hend := seqStep_end s.taken
      rw [h] at hend
      exact hend.errors.imp id fun ⟨hst, hkind⟩ => .inl ⟨hst, hkind, .inl (by simp [State.busy, hrun])⟩
  | @called f bs _ i _ hr hb _ _ h =>
    have hcalled : called := ⟨f, bs, hr⟩
    rcases exec_end i s.taken with hend | ⟨k, hstart, -, -⟩
    · rw [h] at hend
      exact hend.errors.imp id fun ⟨hst, hkind⟩ => .inl ⟨hst, hkind, .inr hcalled⟩
    · rw [h] at hstart
      cases hstart
      exact .inr (.inr ⟨rfl, rfl, .inl ⟨hcalled, hb, rfl⟩⟩)
  | wrote | ignored | pokedImg | pokedShm => exact .inl rfl
  | reset hr => exact .inr (.inr ⟨rfl, rfl, .inr hr⟩)

/-! ### What the host reads and writes -/

/-- Settles O1: the table of 10_state.md R36, register by register; no byte of `ERR_RAW` is valid, so each reads 0. -/
theorem resetLeavesTheSpecifiedValues : Obligations.ResetLeavesTheSpecifiedValues := by
  have hraw : ∀ k, State.reset.err.rawByte k = 0#8 := fun k => List.getD_nil
  exact ⟨rfl, rfl, rfl, rfl, rfl, rfl, rfl, rfl, rfl, rfl, hraw, rfl, rfl, rfl, rfl, rfl, rfl, rfl, rfl, rfl, rfl, rfl,
    rfl, rfl, rfl, rfl⟩

/-- A byte of `ERR_RAW` reads as recorded below `ERR_RAWN` and as 0 from there on, when the count is that of the bytes
(10_state.md R26, S8). -/
theorem ErrRegs.rawByte_toNat {e : ErrRegs} (h : e.rawn.toNat = e.raw.length) (k : Nat) :
    some (e.rawByte k).toNat = if k < e.rawn.toNat then (e.raw[k]?).map BitVec.toNat else some 0 := by
  rw [rawByte, List.getD_eq_getElem?_getD, h]
  split
  · next hk => simp [hk]
  · next hk => simp [hk]

/-- Settles O2: the codes by cases on `ST` and `ERR_KIND`, `ERR_RAW` byte by byte. -/
theorem statusRegistersReadTheState : Obligations.StatusRegistersReadTheState := by
  intro s hs
  refine ⟨⟨_, rfl, ?state⟩, ?flags, ⟨_, rfl, ?kind⟩, rfl, rfl, rfl, rfl, rfl, ⟨_, rfl, ?count, ?raw⟩, ?others⟩
  case state => cases s.pos.st <;> decide
  case flags =>
    cases hrun : s.run <;> simp [State.statusReg, State.busy, State.doneFlag, State.failedFlag, bitNat, hrun]
  case kind => cases s.err.kind <;> decide
  case count => rw [List.length_map, List.length_range]; rfl
  case raw =>
    intro k hk
    rw [← ErrRegs.rawByte_toNat hs.rawFits.2 k, List.getElem?_map, Config.bufferBytes, List.getElem?_range hk]
    rfl
  case others =>
    intro n hn
    obtain ⟨m, rfl⟩ := Nat.exists_eq_add_of_lt hn
    rw [show 8 + m + 1 = m + 9 by omega]
    rfl

/-- Settles O7: the request is taken off the list and `BUSY` decides; each write names its one register. -/
theorem configWritesOnlyWhileIdle : Obligations.ConfigWritesOnlyWhileIdle := by
  refine ⟨fun s w rest hhost => ?_, fun c => ?_⟩
  · rw [step_request hhost, hostStep_writeReg, State.taken, hhost]
    rfl
  · exact ⟨fun _ => ⟨rfl, rfl, rfl, rfl, rfl, rfl⟩, fun _ => ⟨rfl, rfl, rfl, rfl, rfl, rfl, rfl⟩, fun _ => rfl,
      fun _ => rfl⟩

/-- Settles O53: nothing is held, recorded or running after reset. -/
theorem resetMeetsTheInvariant : Obligations.ResetMeetsTheInvariant where
  imgForm := memory_wf_nil
  shmForm := memory_wf_nil
  closedQuiet _ := ⟨rfl, rfl⟩
  sent := rfl
  rxFits := by decide
  rawFits := by decide
  running k hk := by cases hk

/-! ### The position of a run -/

/-- A run stands in a step that has an event list: of `RunInv`, what does not depend on `PH`, `IDX` and the working
registers. -/
structure InStep (s : State) (k : RunKind) : Prop where
  run : s.run = some k
  events : s.pos.st.hasEvents = true
  linked : s.link.tOpen = true
  clean : s.err.kind = .none
  listens : k = .listen → s.pos.st = .initialized
  config : k = .download → s.cfg.downloadOk = true

theorem SeqState.midRun_of_hasEvents {st : SeqState} (h : st.hasEvents = true) : st.midRun = true := by
  cases st <;> trivial

theorem SeqState.live_of_hasEvents {st : SeqState} (h : st.hasEvents = true) : st ≠ .done ∧ st ≠ .failed := by
  cases st <;> trivial

theorem SeqState.next_live {st : SeqState} (h : st.hasEvents = true) :
    st.next.getD st ≠ .done ∧ st.next.getD st ≠ .failed := by
  cases st <;> trivial

theorem RunInv.inStep {s : State} {k : RunKind} (h : RunInv s k) (hr : s.run = some k) (he : s.pos.st.hasEvents = true) :
    InStep s k where
  run := hr
  events := he
  linked := h.linked (SeqState.midRun_of_hasEvents he)
  clean := h.clean
  listens hk := by
    rcases h.listens hk with hst | hst | hst
    · rw [hst] at he; cases he
    · exact hst
    · rw [hst] at he; cases he
  config := h.config

theorem InStep.congr {s t : State} {k : RunKind} (h : InStep s k) (hrun : t.run = s.run) (hst : t.pos.st = s.pos.st)
    (hopen : t.link.tOpen = s.link.tOpen) (herr : t.err = s.err) (hcfg : t.cfg = s.cfg) : InStep t k :=
  ⟨hrun.trans h.run, hst ▸ h.events, hopen.trans h.linked, herr ▸ h.clean, hst ▸ h.listens, hcfg ▸ h.config⟩

/-- At the beginning of a step the position asks nothing of the loops. -/
theorem RunInv.of_step_begins {t : State} {k : RunKind} (hph : t.pos.ph = 0#4) (hidx : t.pos.idx = 0#32)
    (live : t.pos.st ≠ .done ∧ t.pos.st ≠ .failed) (linked : t.pos.st.midRun = true → t.link.tOpen = true)
    (clean : t.err.kind = .none)
    (listens : k = .listen → t.pos.st = .closed ∨ t.pos.st = .initialized ∨ t.pos.st = .reset)
    (config : k = .download → t.cfg.downloadOk = true) : RunInv t k where
  live := live
  linked := linked
  clean := clean
  phase := by rw [hph]; cases t.pos.st <;> cases k <;> decide
  index _ _ := hidx
  listens := listens
  config := config
  segment _ hloop := by simp [hph, hidx] at hloop
  remaining _ hloop := by simp [hph, hidx] at hloop
  located h2 := by simp [hph] at h2

theorem startRun_runInv {k : RunKind} {s : State} (h : k = .download → s.cfg.downloadOk = true) :
    RunInv (startRun k s) k :=
  .of_step_begins rfl rfl (by simp) nofun rfl (fun _ => .inl rfl) h

/-- The step after one with an event list is neither terminal nor, in a listen run, any but `Reset`. -/
theorem InStep.finishStep_runInv {s : State} {k : RunKind} (h : InStep s k) : RunInv (finishStep s) k := by
  obtain ⟨hph, hidx, hst⟩ := finishStep_moves h.events
  refine .of_step_begins hph hidx ?live (fun _ => by simpa using h.linked) (by simpa using h.clean) ?listens
    (by simpa using h.config)
  case live =>
    rw [hst]
    split
    · decide
    · exact SeqState.next_live h.events
  case listens =>
    intro hk
    subst hk
    rw [hst, if_pos ⟨h.listens rfl, h.run⟩]
    exact .inr (.inr rfl)

/-- A run stands at an event of its step, so a loop has a segment or page at hand. -/
structure AtEvent (s : State) (k : RunKind) : Prop extends InStep s k where
  index : s.pos.st ≠ .erased → s.pos.st ≠ .verified → s.pos.idx = 0#32
  segment : s.pos.st = .erased → s.pos.idx.toNat < s.cfg.blankCount.toNat
  remaining : s.pos.st = .verified →
    s.wrk.rem ≠ 0#32 ∧ s.wrk.rem.toNat + s.cfg.writePage.toNat * s.pos.idx.toNat = s.cfg.imgLen.toNat

/-- An event does not move the run. -/
theorem AtEvent.of_evMove {s t : State} {k : RunKind} (h : AtEvent s k) (m : EvMove s t) : AtEvent t k where
  toInStep := h.toInStep.congr m.run (by rw [m.pos]) m.tOpen m.err m.cfg
  index := m.pos ▸ h.index
  segment := by rw [m.pos, m.cfg]; exact h.segment
  remaining := by rw [m.pos, m.cfg, m.rem]; exact h.remaining

/-- The page loop belongs to a download, whose page is at least a byte (45_orchestrator.md R190). -/
theorem InStep.writePage_pos {s : State} {k : RunKind} (h : InStep s k) (hst : s.pos.st = .verified) :
    1 ≤ s.cfg.writePage.toNat := by
  have hk : k = .download := by
    cases k with
    | download => rfl
    | listen => exact absurd (h.listens rfl) (by rw [hst]; decide)
  have hc := h.config hk
  simp only [ConfigRegs.downloadOk, imageRangeOk, Bool.and_eq_true, decide_eq_true_eq] at hc
  obtain ⟨⟨⟨hpage, -⟩, -⟩, -⟩ := hc
  exact hpage

/-- A page's event list is done: `REM` loses the page, and does not wrap (44_flashprogrammer.md R172). -/
theorem reduceRem_pageLen (s : State) :
    (reduceRem (pageLen s) s).wrk.rem.toNat = s.wrk.rem.toNat - min s.cfg.writePage.toNat s.wrk.rem.toNat := by
  have hrem := s.wrk.rem.isLt
  simp only [reduceRem_wrk, pageLen, BitVec.toNat_sub, BitVec.toNat_ofNat]
  omega

/-- The next event of the same list. -/
theorem AtEvent.setPh_runInv {s : State} {k : RunKind} (h : AtEvent s k) {j : Nat} (hj : j < s.pos.st.listLength k)
    (located : j = 2 →
      (s.pos.st = .erased → s.wrk.addr = segmentAddr s.cfg.blankStart s.cfg.blankPage.toNat s.pos.idx.toNat) ∧
      (s.pos.st = .verified → s.wrk.addr = pageAddr s.cfg.imgAddr s.cfg.writePage.toNat s.pos.idx.toNat)) :
    RunInv (setPh j s) k := by
  have hlen : s.pos.st.listLength k ≤ 8 := by cases s.pos.st <;> cases k <;> decide
  have hph : (setPh j s).pos.ph.toNat = j := by simp only [setPh_pos, BitVec.toNat_ofNat]; omega
  exact {
    live := SeqState.live_of_hasEvents h.events
    linked := fun _ => h.linked
    clean := h.clean
    phase := by rw [hph]; exact hj
    index := h.index
    listens := fun hk => .inr (.inl (h.listens hk))
    config := h.config
    segment := fun hst _ => h.segment hst
    remaining := fun hst _ => h.remaining hst
    located := fun h2 => located (by rw [← hph, h2]; rfl) }

/-- The next iteration of a loop whose list has been performed. -/
theorem InStep.nextIteration_runInv {s : State} {k : RunKind} (h : InStep s k)
    (hloop : s.pos.st = .erased ∨ s.pos.st = .verified)
    (segment : s.pos.st = .erased → (s.pos.idx + 1#32).toNat < s.cfg.blankCount.toNat)
    (remaining : s.pos.st = .verified →
      s.wrk.rem ≠ 0#32 ∧ s.wrk.rem.toNat + s.cfg.writePage.toNat * (s.pos.idx + 1#32).toNat = s.cfg.imgLen.toNat) :
    RunInv (nextIteration s) k where
  live := SeqState.live_of_hasEvents h.events
  linked _ := h.linked
  clean := h.clean
  phase := by
    rcases hloop with hst | hst <;> simp [hst, SeqState.listLength]
  index hne hnv := (hloop.elim hne hnv).elim
  listens hk := .inr (.inl (h.listens hk))
  config := h.config
  segment hst _ := segment hst
  remaining hst _ := remaining hst
  located h2 := by simp at h2

/-- `IDX` counts up without wrapping. -/
theorem idx_succ_toNat {i : Word} (h : i.toNat + 1 < 2 ^ 32) : (i + 1#32).toNat = i.toNat + 1 :=
  BitVec.toNat_add_of_lt h

theorem AtEvent.finishEvents_erased_runInv {s : State} {k : RunKind} (h : AtEvent s k) (hst : s.pos.st = .erased) :
    RunInv (finishEvents s) k := by
  simp only [finishEvents, hst]
  split
  · next hnext =>
    refine h.nextIteration_runInv (.inl hst) (fun _ => ?_) (fun hv => by simp [hst] at hv)
    have hlt := s.cfg.blankCount.isLt
    rwa [idx_succ_toNat (by omega)]
  · exact h.toInStep.finishStep_runInv

theorem AtEvent.finishEvents_verified_runInv {s : State} {k : RunKind} (h : AtEvent s k) (hst : s.pos.st = .verified) :
    RunInv (finishEvents s) k := by
  have hin : InStep (reduceRem (pageLen s) s) k := h.toInStep.congr rfl rfl rfl rfl rfl
  simp only [finishEvents, hst]
  split
  · exact hin.finishStep_runInv
  · next hrem =>
    refine hin.nextIteration_runInv (.inr hst) (fun he => by simp [hst] at he) fun _ => ⟨hrem, ?_⟩
    have hleft := reduceRem_pageLen s
    have hpos : 0 < (reduceRem (pageLen s) s).wrk.rem.toNat :=
      Nat.pos_of_ne_zero fun h0 => hrem (BitVec.eq_of_toNat_eq h0)
    obtain ⟨-, hsum⟩ := h.remaining hst
    have hidx : s.pos.idx.toNat ≤ s.cfg.writePage.toNat * s.pos.idx.toNat :=
      Nat.le_mul_of_pos_left _ (h.writePage_pos hst)
    have hlen := s.cfg.imgLen.isLt
    simp only [reduceRem_cfg, reduceRem_pos, idx_succ_toNat (i := s.pos.idx) (by omega), Nat.mul_add, hleft]
    omega

/-- The list is done: the loop goes on with its next segment or page, or the step completes. -/
theorem AtEvent.finishEvents_runInv {s : State} {k : RunKind} (h : AtEvent s k) : RunInv (finishEvents s) k := by
  by_cases he : s.pos.st = .erased
  · exact h.finishEvents_erased_runInv he
  by_cases hv : s.pos.st = .verified
  · exact h.finishEvents_verified_runInv hv
  · have hfin : finishEvents s = finishStep s := by
      unfold finishEvents; split
      · next h => exact absurd h he
      · next h => exact absurd h hv
      · rfl
    rw [hfin]
    exact h.toInStep.finishStep_runInv

/-! ### The event at the position -/

theorem opSend_wrk {m : TxMsg} {s t : State} (h : opSend m s = .ok t) : t.wrk = m.regs s.wrk := by
  cases ho : s.link.tOpen
  · rw [opSend, requireOpen_closed ho] at h; cases h
  · rw [opSend_open m ho] at h; cases h; rfl

theorem runEv_blankCheck_addr {c : Ctx} {a : Word} {l : Half} {s t : State}
    (h : runEv c (.send (.blankCheck a l)) s = .ok t) : t.wrk.addr = a := by rw [opSend_wrk h]; rfl

theorem runEv_sendPage_addr {c : Ctx} {a : Word} {o n : Nat} {s t : State} (h : runEv c (.sendPage a o n) s = .ok t) :
    t.wrk.addr = a := by
  simp only [runEv] at h
  split at h
  · rw [opSend_wrk h]; rfl
  · cases h

/-- `PH` counts at most as many events as `listLength` says (10_state.md R22). -/
theorem InStep.stepEvents_length {s : State} {k : RunKind} (h : InStep s k) :
    (stepEvents s).length ≤ s.pos.st.listLength k := by
  have he := h.events
  cases hst : s.pos.st <;> simp only [hst, SeqState.hasEvents, Bool.false_eq_true] at he
  case initialized =>
    cases k <;> simp [stepEvents, hst, h.run, withCtx, handshakeEvents, resetPulseEvents, SeqState.listLength]
  case synced | shimActive | programmed =>
    simp [stepEvents, hst, withCtx, ramInitEvents, jumpEvents, chipEraseEvents, resetPulseEvents, SeqState.listLength]
  case erased | verified =>
    simp only [stepEvents, hst]
    split <;> simp [withCtx, segmentEvents, SeqState.listLength]

/-- At `Erased` an event is one of a segment's, and the one at `PH` = 1 sends its request. -/
theorem stepEvents_erased {s : State} {j : Nat} {c : Ctx} {e : Ev} (hst : s.pos.st = .erased)
    (h : (stepEvents s)[j]? = some (c, e)) :
    s.pos.idx.toNat < s.cfg.blankCount.toNat ∧
    (j = 1 → e = .send
      (.blankCheck (segmentAddr s.cfg.blankStart s.cfg.blankPage.toNat s.pos.idx.toNat) s.cfg.blankPage)) := by
  simp only [stepEvents, hst] at h
  split at h
  · next hlt =>
    refine ⟨hlt, ?_⟩
    rintro rfl
    cases h
    rfl
  · cases h

/-- At `Verified` an event is one of a page's, and the one at `PH` = 1 sends it. -/
theorem stepEvents_verified {s : State} {j : Nat} {c : Ctx} {e : Ev} (hst : s.pos.st = .verified)
    (h : (stepEvents s)[j]? = some (c, e)) :
    s.wrk.rem ≠ 0#32 ∧
    (j = 1 → e = .sendPage (pageAddr s.cfg.imgAddr s.cfg.writePage.toNat s.pos.idx.toNat)
      (s.cfg.writePage.toNat * s.pos.idx.toNat) (pageLen s)) := by
  simp only [stepEvents, hst] at h
  split at h
  · cases h
  · next hne =>
    refine ⟨hne, ?_⟩
    rintro rfl
    cases h
    rfl

/-- `REM` and the pages written make up the image, also where `writeImage` begins (44_flashprogrammer.md R172). -/
theorem RunInv.beginStep_remaining {s : State} {k : RunKind} (h : RunInv s k) (hst : s.pos.st = .verified) :
    (beginStep s).wrk.rem.toNat + s.cfg.writePage.toNat * s.pos.idx.toNat = s.cfg.imgLen.toNat := by
  unfold beginStep
  split
  · next hbegin =>
    obtain ⟨-, -, hidx⟩ := hbegin
    simp [hidx]
  · next hlater =>
    obtain ⟨-, hsum⟩ := h.remaining hst (not_and_or.1 fun hbegin => hlater ⟨hst, hbegin⟩)
    exact hsum

/-- Where the list has an event at the position, the run stands at an event. -/
theorem RunInv.atEvent {s : State} {k : RunKind} (h : RunInv s k) (hin : InStep (beginStep s) k) {c : Ctx} {e : Ev}
    (hev : (stepEvents (beginStep s))[s.pos.ph.toNat]? = some (c, e)) : AtEvent (beginStep s) k where
  toInStep := hin
  index := by rw [beginStep_pos]; exact h.index
  segment hst := (stepEvents_erased hst hev).1
  remaining hst := ⟨(stepEvents_verified hst hev).1, by
    rw [beginStep_pos, beginStep_cfg]; exact h.beginStep_remaining (by rwa [beginStep_pos] at hst)⟩

/-- The block's move in a step with an event list keeps the position's part of the invariant. -/
theorem RunInv.seqEvent_ok {s t : State} {k : RunKind} (h : RunInv s k) (hr : s.run = some k)
    (he : s.pos.st.hasEvents = true) (ht : seqEvent s = .ok t) : RunInv t k := by
  have hin : InStep (beginStep s) k := (h.inStep hr he).congr (by simp) (by simp) (by simp) (by simp) (by simp)
  cases hev : (stepEvents (beginStep s))[s.pos.ph.toNat]? with
  | none =>
    rw [seqEvent_none hev] at ht
    cases ht
    exact hin.finishStep_runInv
  | some ce =>
    obtain ⟨c, e⟩ := ce
    rw [seqEvent_some hev] at ht
    have hend := runEv_end c e (beginStep s)
    cases hu : runEv c e (beginStep s) with
    | ok u =>
      rw [hu] at hend ht
      cases hend with
      | ok hm =>
        have hat := (h.atEvent hin hev).of_evMove hm
        cases ht
        dsimp only
        split
        · next hmore =>
          have hlen := hin.stepEvents_length
          refine hat.setPh_runInv (by rw [hm.pos]; omega) fun h2 => ?_
          have h1 : s.pos.ph.toNat = 1 := by omega
          rw [hm.pos, hm.cfg]
          refine ⟨fun hst => ?_, fun hst => ?_⟩
          · rw [(stepEvents_erased hst hev).2 h1] at hu
            exact runEv_blankCheck_addr hu
          · rw [(stepEvents_verified hst hev).2 h1] at hu
            exact runEv_sendPage_addr hu
        · exact hat.finishEvents_runInv
    | err i u => rw [hu] at ht; cases ht
    | fault f => rw [hu] at ht; cases ht
    | refused x => rw [hu] at ht; cases ht

/-- The first move of a run, when it succeeds (45_orchestrator.md R193). -/
theorem RunInv.seqOpen_ok {s t : State} {k : RunKind} (h : RunInv s k) (hst : s.pos.st = .closed) (ht : seqOpen s = .ok t) :
    RunInv t k := by
  unfold seqOpen at ht
  split at ht
  · cases ht
  · obtain ⟨u, hu, -, hok, herr⟩ := opOpen_spec s.cfg.port s.cfg.baud s
    cases ha : s.env.opens.headD false
    · rw [(herr ha).1] at ht; cases ht
    · obtain ⟨hr, hlink⟩ := hok ha
      rw [hr] at ht
      cases ht
      have hpos : (advance .closed .initialized u).pos.st = .initialized := by simp [hu.pos, hst]
      refine .of_step_begins rfl rfl (by rw [hpos]; decide) (fun _ => by simp [hlink]) (by simpa [hu.err] using h.clean)
        (fun _ => .inr (.inl hpos)) (by simpa [hu.cfg] using h.config)

theorem enterFailed_run (e : ErrInfo) (s : State) : (enterFailed e s).run = none := by
  obtain ⟨-, hrun, -⟩ := enterFailed_spec e s
  exact hrun

theorem opClose_pos (s : State) : (opClose s).pos = s.pos := by
  cases ho : s.link.tOpen
  · rw [opClose_closed ho]
  · rw [opClose_open ho, closeLink_pos, (envTurn_move s).pos]

theorem opClose_run (s : State) : (opClose s).run = s.run := by
  cases ho : s.link.tOpen
  · rw [opClose_closed ho]
  · rw [opClose_open ho, closeLink_run, (envTurn_move s).run]

/-- A download run ends with its last step (45_orchestrator.md R193). -/
theorem finishRun_run {s : State} (hst : s.pos.st = .reset) (hr : s.run = some .download) : (finishRun s).run = none := by
  simp only [finishRun, hst, hr, and_self, if_true]

/-- An operation begun in a run of kind `k` begins no other. -/
theorem OpMove.running {s t : State} {k : RunKind} (h : OpMove s t) (hr : s.run = some k) (ht : RunInv t k) :
    ∀ j, t.run = some j → RunInv t j := by
  intro j hj
  rcases h.run with hrun | hrun
  · rw [hrun, hr] at hj; cases hj; exact ht
  · rw [hrun] at hj; cases hj

/-- The block's own move in a run keeps the position's part of the invariant or ends the run. -/
theorem RunInv.seqStep_next {s t : State} {k : RunKind} (h : RunInv s k) (hr : s.run = some k) (ht : seqStep s = .next t) :
    ∀ j, t.run = some j → RunInv t j := by
  cases he : s.pos.st.hasEvents with
  | true =>
    rw [seqStep_events hr he] at ht
    rcases settle_next ht with hok | ⟨i, u, -, rfl⟩
    · have hmove := seqEvent_moves s
      rw [hok] at hmove
      exact OpMove.running hmove hr (h.seqEvent_ok hr he hok)
    · simp [enterFailed_run]
  | false =>
    obtain ⟨hdone, hfailed⟩ := h.live
    cases hst : s.pos.st <;> simp only [hst, SeqState.hasEvents, Bool.true_eq_false] at he
    case closed =>
      simp only [seqStep, hr, hst] at ht
      rcases settle_next ht with hok | ⟨i, u, -, rfl⟩
      · have hmove := seqOpen_moves s
        rw [hok] at hmove
        exact OpMove.running hmove hr (h.seqOpen_ok hst hok)
      · simp [enterFailed_run]
    case reset =>
      simp only [seqStep, hr, hst] at ht
      cases k with
      | download =>
        cases ht
        rw [finishRun_run ((congrArg Position.st (opClose_pos s)).trans hst) ((opClose_run s).trans hr)]
        nofun
      | listen => cases ht
    case done => exact absurd hst hdone
    case failed => exact absurd hst hfailed

/-! ### The invariant -/

theorem State.run_of_idle {s : State} (h : s.busy = false) : s.run = none := by simpa [State.busy] using h

theorem OpEnd.idle {s t : State} (h : OpEnd s (.next t)) (hs : s.run = none) : t.run = none := by
  cases h with
  | moved h => exact h.run.elim (·.trans hs) id
  | @failed e u _ _ => exact enterFailed_run e u

theorem StateInv.taken {s : State} (h : StateInv s) : StateInv s.taken where
  imgForm := h.imgForm
  shmForm := h.shmForm
  closedQuiet := h.closedQuiet
  sent := h.sent
  rxFits := h.rxFits
  rawFits := h.rawFits
  running k hk := { h.running k hk with }

theorem OpMove.sent {s t : State} (h : OpMove s t) (hs : s.link.txq = []) : t.link.txq = [] := h.txq.elim (·.trans hs) id

theorem OpMove.rxFits {s t : State} (h : OpMove s t) (hs : s.rx.rxb.length ≤ 11 ∧ s.rx.rxn.toNat = s.rx.rxb.length) :
    t.rx.rxb.length ≤ 11 ∧ t.rx.rxn.toNat = t.rx.rxb.length := by
  rcases h.rx with hrx | ⟨l, hrx⟩ <;> rw [hrx]
  · exact hs
  · exact rxBuffer_count l

theorem OpMove.stateInv {s t : State} (h : OpMove s t) (hs : StateInv s) (hrun : ∀ k, t.run = some k → RunInv t k) :
    StateInv t := by
  obtain ⟨-, himg, hshm, -⟩ := h.inputs
  exact ⟨himg ▸ hs.imgForm, hshm ▸ hs.shmForm, h.quiet hs.closedQuiet, h.sent hs.sent, h.rxFits hs.rxFits,
    h.err ▸ hs.rawFits, hrun⟩

theorem release_opMove (s : State) : OpMove s (release s) := by
  unfold release; split
  · exact (opClose_opMove s).trans (stopRun_opMove _)
  · exact .refl s

/-- An error raised after moves from a state of the invariant leads to one: the record fits `ERR_RAW` and no run goes on. -/
theorem OpMove.enterFailed_stateInv {s u : State} (h : OpMove s u) (hs : StateInv s) (e : ErrInfo) :
    StateInv (enterFailed e u) := by
  have hrelease : OpMove (recordError e u) (enterFailed e u) := release_opMove _
  obtain ⟨-, himg, hshm, -⟩ := h.inputs
  obtain ⟨-, kimg, kshm, -⟩ := hrelease.inputs
  refine ⟨?img, ?shm, hrelease.quiet (h.quiet hs.closedQuiet), hrelease.sent (h.sent hs.sent),
    hrelease.rxFits (h.rxFits hs.rxFits), ?raw, ?run⟩
  case img => rw [kimg, recordError_img, himg]; exact hs.imgForm
  case shm => rw [kshm, recordError_shm, hshm]; exact hs.shmForm
  case raw => rw [hrelease.err]; exact rxBuffer_count e.raw
  case run => rw [enterFailed_run]; nofun

theorem OpEnd.stateInv {s t : State} (h : OpEnd s (.next t)) (hs : StateInv s) (hrun : ∀ k, t.run = some k → RunInv t k) :
    StateInv t := by
  cases h with
  | moved h => exact h.stateInv hs hrun
  | failed h _ => exact h.enterFailed_stateInv hs _

theorem startRun_stateInv {s : State} (hs : StateInv s) {k : RunKind} (hc : k = .download → s.cfg.downloadOk = true) :
    StateInv (startRun k s) :=
  { hs with
    rawFits := ⟨Nat.zero_le _, rfl⟩
    running := fun _ hj => by cases hj; exact startRun_runInv hc }

/-- Block reset leaves the reset state but for the input memories, which keep their form (log 16). -/
theorem blockReset_stateInv {s : State} (hs : StateInv s) : StateInv (blockReset s) :=
  have hreset : StateInv State.reset := resetMeetsTheInvariant
  { hreset with
    imgForm := hs.imgForm
    shmForm := hs.shmForm
    running := nofun }

/-- Settles O54: by cases on what a step can be; a run's position is kept by the block's own move, and outside a run only a
start command makes one. -/
theorem everyStepKeepsTheInvariant : Obligations.EveryStepKeepsTheInvariant := by
  intro s t inv hstep
  have hs := inv.taken
  have idle (hb : s.busy = false) {u : State} (hu : u.run = s.run) : ∀ k, u.run = some k → RunInv u k := by
    rw [hu, State.run_of_idle hb]; nofun
  cases step_end hstep with
  | own _ h =>
    have hend := seqStep_end s.taken
    rw [h] at hend
    cases hrun : s.taken.run with
    | none => exact hend.stateInv hs (by rw [hend.idle hrun]; nofun)
    | some k => exact hend.stateInv hs ((hs.running k hrun).seqStep_next hrun h)
  | @called _ _ _ i _ _ hb _ _ h =>
    rcases exec_end i s.taken with hend | ⟨k, hstart, -, hc⟩
    · rw [h] at hend
      exact hend.stateInv hs (by rw [hend.idle (State.run_of_idle hb)]; nofun)
    · rw [h] at hstart
      cases hstart
      exact startRun_stateInv hs hc
  | wrote _ hb => exact { hs with running := idle hb rfl }
  | ignored => exact hs
  | pokedImg _ hb => exact { hs with imgForm := memSet_wf _ _ hs.imgForm, running := idle hb rfl }
  | pokedShm _ hb => exact { hs with shmForm := memSet_wf _ _ hs.shmForm, running := idle hb rfl }
  | reset => exact blockReset_stateInv hs

end Sys2Proof.Machine
end

