-- ==== Sys2Proof/Proofs/HostPort.lean ====
section
/-! PROOFS. The host port (log 1): what a call and a supplied byte do, and that `MemRead` gives exactly the bytes supplied. -/

namespace Sys2Proof.Machine

/-! ### `MemRead` (20_memory.md R51) -/

/-- `MemRead` succeeds where its first byte and the rest do (log 15). -/
theorem memRead_succ_eq_some {m : Memory} {a n : Nat} {l : List Byte} :
    memRead m a (n + 1) = some l ↔ ∃ b r, memGet m a = some b ∧ memRead m (a + 1) n = some r ∧ l = b :: r := by
  rw [memRead]
  cases memGet m a <;> cases memRead m (a + 1) n <;> simp [eq_comm]

/-- Each byte `MemRead` gives is the one at its offset, and a list of such bytes is what it gives. -/
theorem memRead_eq_some_iff {m : Memory} {a n : Nat} {l : List Byte} :
    memRead m a n = some l ↔ l.length = n ∧ ∀ k, k < n → memGet m (a + k) = l[k]? := by
  induction n generalizing a l with
  | zero => cases l <;> simp [memRead]
  | succ n ih =>
    rw [memRead_succ_eq_some]
    constructor
    · rintro ⟨b, r, hfirst, hrest, rfl⟩
      obtain ⟨hlen, hget⟩ := ih.1 hrest
      refine ⟨by rw [List.length_cons, hlen], fun k hk => ?_⟩
      cases k with
      | zero => exact hfirst
      | succ k =>
        rw [List.getElem?_cons_succ, ← hget k (Nat.lt_of_succ_lt_succ hk), Nat.add_assoc, Nat.add_comm 1]
    · rintro ⟨hlen, hget⟩
      obtain ⟨b, r, rfl⟩ := List.exists_cons_of_length_eq_add_one hlen
      refine ⟨b, r, hget 0 n.succ_pos, ih.2 ⟨Nat.succ.inj hlen, fun k hk => ?_⟩, rfl⟩
      rw [Nat.add_assoc, Nat.add_comm 1, hget (k + 1) (Nat.succ_lt_succ hk), List.getElem?_cons_succ]

/-! ### Supplied bytes and calls -/

/-- A request is done at the state that differs from `s` in the host's list only (log 31). -/
theorem step_eq_hostStep {s : State} {r : HostReq} {rest : List HostReq} (h : s.host = r :: rest) :
    step s = hostStep r { s with host := rest } := by
  rw [step_request h, State.taken, h, List.tail_cons]

/-- Settles O8: the laws of `memSet` and `memRead`, and the two requests that supply a byte, each of which is `hostPoke`: `BUSY`
decides. -/
theorem inputMemoriesHoldWhatIsSupplied : Obligations.InputMemoriesHoldWhatIsSupplied := by
  refine ⟨fun m a b v h => ⟨memSet_wf a v h, memGet_memSet m a b v⟩, fun _ _ _ _ => memRead_eq_some_iff, ?img, ?shm⟩
  case img => exact fun s off v rest hhost => step_eq_hostStep hhost
  case shm => exact fun s off v rest hhost => step_eq_hostStep hhost

/-- A call outside a run whose bytes decode (60_exceptions.md R230, log 35). -/
theorem hostCall_decoded {f : Format} {bytes r : List Byte} {i : Instr} {s : State} (hb : s.busy = false)
    (hd : decode f bytes = .ok (i, r)) :
    hostCall f bytes s =
      if s.link.tOpen = true ∧ callInPhase i s.pos.st = false then .refused .outOfPhase else exec i s := by
  simp [hostCall, hb, hd]

/-- Settles O5: the call is taken off the list and decoded; the phase refusal reads the transport and `ST` as they stand. -/
theorem stepRunsTheDecodedCall : Obligations.StepRunsTheDecodedCall := by
  intro s f bs r rest i hhost hbusy hdecode _
  rw [step_eq_hostStep hhost]
  exact hostCall_decoded hbusy hdecode

end Sys2Proof.Machine
end

