-- ==== Sys2Proof/Proofs/Encoding.lean ====
section
/-! PROOFS. The decoder and the encoder of 30_encoding.md (R70 to R90) are inverse to each other. From the encoder's side it is a
computation with the operand readers; from the decoder's side it is a predicate, `Faithful`, with one rule for each reader, and
each row of the decoder is the rules of its readers in their order. -/

namespace Sys2Proof

/-! ### Decoding an encoded instruction -/

/-- The bytes of an operation reach the decoder of its component (30_encoding.md R90). -/
theorem decodeOpid_encode {i : Instr} (r : List Byte) (hf : i.format = .opid) (he : i.encodable = true) :
    decodeOpid (encode i ++ r) = .ok (i, r) := by
  cases i
  case closePort | discardBuffers | handshakePattern | handshake | resetPulse | jump => rfl
  case chipErase | download | listen | loadImage => rfl
  case setResetLine | wait | readExact => simp [encode, decodeOpid, decodeTransport]
  case isSync | isHandshakeAck | isAck => simp [encode, decodeOpid, decodeCodec]
  case ramInit => simp [encode, decodeOpid, decodeLoader]
  case blankCheckSegment | blankCheck => simp [encode, decodeOpid, decodeFlash]
  case openPort | writeBytes => simp [encode, decodeOpid, decodeTransport, takeSeq_encodeSeq _ _ _ he]
  case checksum8 | appendChecksum8 | validateResponseFrame =>
    simp [encode, decodeOpid, decodeCodec, takeSeq_encodeSeq _ _ _ he]
  case buildCommandFrame =>
    obtain ⟨hextra, hpayload⟩ := Bool.and_eq_true_iff.mp he
    simp [encode, decodeOpid, decodeCodec, takeSeq_encodeSeq _ _ _ hextra, takeSeq_encodeSeq _ _ _ hpayload]
  case loadAndRun | shimData => simp [encode, decodeOpid, decodeLoader, takeSeq_encodeSeq _ _ _ he]
  case writePage | writeImage => simp [encode, decodeOpid, decodeFlash, takeSeq_encodeSeq _ _ _ he]
  all_goals cases hf

/-- The messages the block sends, but for SHIM_DATA (30_encoding.md R72, R74 to R78). -/
theorem decodeTx_encode {i : Instr} (r : List Byte) (hf : i.format = .tx) (he : i.encodable = true) :
    decodeTx (encode i ++ r) = .ok (i, r) := by
  cases i
  case handshakeMsg => exact takeLiteral_append Config.hsPattern r .handshakeMsg
  case jumpMsg => exact takeLiteral_append Config.jumpCmd r .jumpMsg
  case chipEraseMsg => exact takeLiteral_append chipEraseBytes r .chipEraseMsg
  case ramInitMsg => simp [encode, decodeTx, Config.sync]
  case pageWriteMsg a data ck =>
    have hlen : data.length % 65536 = data.length := Nat.mod_eq_of_lt (Nat.lt_succ_of_le (of_decide_eq_true he))
    simp [encode, decodeTx, Config.sync, Config.opRamInit, Config.opErase, Config.opWrite, takeBytes_append, hlen]
  case blankCheckMsg =>
    simp [encode, decodeTx, Config.sync, Config.opRamInit, Config.opErase, Config.opWrite, Config.opBlank,
      takeBytes_append Config.blankField _ _ (n := 2) rfl]
  all_goals cases hf

theorem decodeRawVar_append (data : List Byte) (ck : Byte) : decodeRawVar (data ++ [ck]) = .ok (.shimDataMsg data ck, []) := by
  simp [decodeRawVar]

/-- Settles O9, by the format of the instruction. A response is a fixed number of bytes, and SHIM_DATA all that is presented. -/
theorem decodeAfterEncode : Obligations.DecodeAfterEncode := by
  intro i r he hr
  cases i
  case hsAckMsg | ackMsg | jumpBannerMsg | resp9Msg | resp10Msg => rfl
  case shimDataMsg data ck =>
    rw [hr rfl, List.append_nil]
    exact decodeRawVar_append data ck
  case handshakeMsg | ramInitMsg | jumpMsg | chipEraseMsg | pageWriteMsg | blankCheckMsg => exact decodeTx_encode r rfl he
  all_goals exact decodeOpid_encode r rfl he

/-! ### Encoding a decoded instruction -/

/-- A reading begun in format `f` after the bytes `pre`, with `rest` still to come, answers only with an instruction of that
format whose encoding is exactly the bytes up to where the reading stops. -/
def Faithful (f : Format) (pre rest : List Byte) (d : Decoded) : Prop :=
  ∀ i r, d = .ok (i, r) → i.format = f ∧ encode i ++ r = pre ++ rest ∧ i.encodable = true

section Rules

variable {f : Format} {pre rest : List Byte}

theorem Faithful.error {e : DecodeError} : Faithful f pre rest (.error e) := by
  intro i r h
  cases h

theorem Faithful.ok {i : Instr} (hf : i.format = f) (hbytes : encode i = pre) (he : i.encodable = true) :
    Faithful f pre rest (.ok (i, rest)) := by
  intro j r h
  cases h
  exact ⟨hf, by rw [hbytes], he⟩

/-- What has been read moves from the rest to the bytes before. -/
theorem Faithful.read {l r : List Byte} {d : Decoded} (h : Faithful f (pre ++ l) r d) (hrest : rest = l ++ r) :
    Faithful f pre rest d := by
  simpa only [Faithful, hrest, List.append_assoc] using h

/-- Where the test of the byte just read succeeds, the constant stands in its place. -/
theorem Faithful.test {x y : Byte} {a b : Decoded} (ha : x = y → Faithful f (pre ++ [y]) rest a)
    (hb : Faithful f (pre ++ [x]) rest b) : Faithful f (pre ++ [x]) rest (if x = y then a else b) := by
  split
  case isTrue h =>
    rw [h]
    exact ha h
  case isFalse => exact hb

theorem Faithful.byte {k : Byte → List Byte → Decoded} (h : ∀ b r, Faithful f (pre ++ [b]) r (k b r)) :
    Faithful f pre rest (takeByte rest k) := by
  cases rest with
  | nil => exact .error
  | cons b r => exact (h b r).read rfl

theorem Faithful.half {k : Half → List Byte → Decoded} (h : ∀ v r, Faithful f (pre ++ le16 v) r (k v r)) :
    Faithful f pre rest (takeHalf rest k) := by
  unfold takeHalf
  split
  · exact (h _ _).read (by simp)
  · exact .error

theorem Faithful.word {k : Word → List Byte → Decoded} (h : ∀ v r, Faithful f (pre ++ le32 v) r (k v r)) :
    Faithful f pre rest (takeWord rest k) := by
  unfold takeWord
  split
  · exact (h _ _).read (by simp)
  · exact .error

theorem Faithful.bytes {n : Nat} {k : List Byte → List Byte → Decoded}
    (h : ∀ l r, l.length = n → Faithful f (pre ++ l) r (k l r)) : Faithful f pre rest (takeBytes n rest k) := by
  unfold takeBytes
  split
  case isTrue => exact .error
  case isFalse hlen =>
    exact (h _ _ (List.length_take_of_le (Nat.le_of_not_lt hlen))).read (List.take_append_drop n rest).symm

/-- A length in `n` bits is the length field of the bytes it counted. -/
theorem ofNat_length_eq {n : Nat} {v : BitVec n} {l : List Byte} (h : l.length = v.toNat) : BitVec.ofNat n l.length = v := by
  rw [h, BitVec.ofNat_toNat, BitVec.setWidth_eq]

theorem Faithful.seq {k : List Byte → List Byte → Decoded}
    (h : ∀ l r, seqFits l = true → Faithful f (pre ++ encodeSeq l) r (k l r)) : Faithful f pre rest (takeSeq rest k) :=
  .word fun v _ => .bytes fun l r hlen => by
    have hseq : pre ++ le32 v ++ l = pre ++ encodeSeq l := by rw [encodeSeq, ofNat_length_eq hlen, List.append_assoc]
    rw [hseq]
    exact h l r (decide_eq_true (hlen ▸ v.isLt))

theorem Faithful.bool {k : Bool → List Byte → Decoded} (h : ∀ b r, Faithful f (pre ++ [encodeBool b]) r (k b r)) :
    Faithful f pre rest (takeBool rest k) :=
  .byte fun _ r => .test (fun _ => h false r) <| .test (fun _ => h true r) .error

/-- A constant message is read from its first byte on, which the decoder has looked at before. -/
theorem Faithful.literal {lit bs : List Byte} {i : Instr} (hbs : bs = pre ++ rest) (hf : i.format = f) (hbytes : encode i = lit)
    (he : i.encodable = true) : Faithful f pre rest (takeLiteral lit i bs) := by
  have hwhole : Faithful f [] bs (takeLiteral lit i bs) := by
    unfold takeLiteral
    split
    · exact .error
    split
    case isTrue hlit => exact .read (.ok hf (hbytes.trans hlit.symm) he) (List.take_append_drop lit.length bs).symm
    case isFalse => exact .error
  simpa [Faithful, hbs] using hwhole

end Rules

section Components

variable (op : Byte) (r : List Byte)

theorem decodeTransport_faithful : Faithful .opid [] (op :: r) (decodeTransport op r) := by
  unfold decodeTransport
  exact .read (l := [op]) (hrest := rfl) <|
    .test (fun _ => .word fun _ _ => .seq fun _ _ hport => .ok rfl rfl hport) <|
    .test (fun _ => .ok rfl rfl rfl) <|
    .test (fun _ => .bool fun _ _ => .ok rfl rfl rfl) <|
    .test (fun _ => .ok rfl rfl rfl) <|
    .test (fun _ => .seq fun _ _ hdata => .ok rfl rfl hdata) <|
    .test (fun _ => .word fun _ _ => .ok rfl rfl rfl) <|
    .test (fun _ => .word fun _ _ => .word fun _ _ => .ok rfl rfl rfl) .error

theorem decodeCodec_faithful : Faithful .opid [] (op :: r) (decodeCodec op r) := by
  unfold decodeCodec
  exact .read (l := [op]) (hrest := rfl) <|
    .test (fun _ => .seq fun _ _ hbytes => .ok rfl rfl hbytes) <|
    .test (fun _ => .seq fun _ _ hbytes => .ok rfl rfl hbytes) <|
    .test (fun _ => .byte fun _ _ => .word fun _ _ => .seq fun _ _ hextra => .seq fun _ _ hpayload =>
      .ok rfl rfl (Bool.and_eq_true_iff.mpr ⟨hextra, hpayload⟩)) <|
    .test (fun _ => .ok rfl rfl rfl) <|
    .test (fun _ => .word fun _ _ => .seq fun _ _ hbytes => .ok rfl rfl hbytes) <|
    .test (fun _ => .byte fun _ _ => .ok rfl rfl rfl) <|
    .test (fun _ => .byte fun _ _ => .ok rfl rfl rfl) <|
    .test (fun _ => .byte fun _ _ => .ok rfl rfl rfl) .error

theorem decodeLoader_faithful : Faithful .opid [] (op :: r) (decodeLoader op r) := by
  unfold decodeLoader
  exact .read (l := [op]) (hrest := rfl) <|
    .test (fun _ => .ok rfl rfl rfl) <|
    .test (fun _ => .ok rfl rfl rfl) <|
    .test (fun _ => .word fun _ _ => .seq fun _ _ hshim => .ok rfl rfl hshim) <|
    .test (fun _ => .word fun _ _ => .half fun _ _ => .ok rfl rfl rfl) <|
    .test (fun _ => .seq fun _ _ hshim => .ok rfl rfl hshim) <|
    .test (fun _ => .ok rfl rfl rfl) .error

theorem decodeFlash_faithful : Faithful .opid [] (op :: r) (decodeFlash op r) := by
  unfold decodeFlash
  exact .read (l := [op]) (hrest := rfl) <|
    .test (fun _ => .ok rfl rfl rfl) <|
    .test (fun _ => .word fun _ _ => .seq fun _ _ hdata => .ok rfl rfl hdata) <|
    .test (fun _ => .word fun _ _ => .half fun _ _ => .seq fun _ _ hbytes => .ok rfl rfl hbytes) <|
    .test (fun _ => .word fun _ _ => .half fun _ _ => .ok rfl rfl rfl) <|
    .test (fun _ => .word fun _ _ => .half fun _ _ => .word fun _ _ => .ok rfl rfl rfl) <|
    .test (fun _ => .ok rfl rfl rfl) <|
    .test (fun _ => .ok rfl rfl rfl) <|
    .test (fun _ => .ok rfl rfl rfl) .error

end Components

section Formats

variable (bs : List Byte)

theorem decodeOpid_faithful : Faithful .opid [] bs (decodeOpid bs) := by
  cases bs with
  | nil => exact .error
  | cons op r =>
    simp only [decodeOpid]
    split_ifs
    · exact decodeTransport_faithful op r
    · exact decodeCodec_faithful op r
    · exact decodeLoader_faithful op r
    · exact decodeFlash_faithful op r

theorem decodeTx_faithful : Faithful .tx [] bs (decodeTx bs) := by
  cases bs with
  | nil => exact .error
  | cons h r =>
    refine .read (l := [h]) ?_ rfl
    simp only [decodeTx]
    refine .test (fun hpattern => ?handshake) <| .test (fun hjump => ?jump) <| .test (fun hsync => ?frame) .error
    case handshake => exact .literal (hpattern ▸ rfl) rfl rfl rfl
    case jump => exact .literal (hjump ▸ rfl) rfl rfl rfl
    case frame =>
      cases r with
      | nil => exact .error
      | cons op r =>
        refine .read (l := [op]) ?_ rfl
        rw [takeByte_cons]
        refine .test (fun _ => ?ramInit) <| .test (fun hop => ?erase) <| .test (fun _ => ?pageWrite) <|
          .test (fun _ => ?blankCheck) .error
        case ramInit => exact .word fun _ _ => .half fun _ _ => .byte fun _ _ => .ok rfl rfl rfl
        case erase => exact .literal (hop ▸ hsync ▸ rfl) rfl rfl rfl
        case pageWrite =>
          exact .word fun _ _ => .half fun n _ => .bytes fun data _ hlen => .byte fun _ _ =>
            .ok rfl (by rw [encode, ofNat_length_eq hlen]; rfl) (decide_eq_true (hlen ▸ Nat.le_of_lt_succ n.isLt))
        case blankCheck =>
          refine .word fun _ _ => .bytes fun field _ _ => ?_
          split
          case isTrue hfield => exact hfield ▸ .half fun _ _ => .byte fun _ _ => .ok rfl rfl rfl
          case isFalse => exact .error

theorem decodeRawVar_faithful : Faithful .rawvar [] bs (decodeRawVar bs) := by
  unfold decodeRawVar
  split
  case h_1 => exact .error
  case h_2 ck hlast =>
    intro i r h
    cases h
    exact ⟨rfl, by simpa [encode] using List.dropLast_append_getLast? ck hlast, rfl⟩

theorem decodeRx1_faithful : Faithful .rx1 [] bs (decodeRx1 bs) := by
  cases bs with
  | nil => exact .error
  | cons b r =>
    refine .read (l := [b]) ?_ rfl
    simp only [decodeRx1]
    exact .test (fun _ => .ok rfl rfl rfl) <| .test (fun _ => .ok rfl rfl rfl) .error

theorem decodeRx9_faithful : Faithful .rx9 [] bs (decodeRx9 bs) := by
  unfold decodeRx9
  split
  case h_2 => exact .error
  case h_1 h e1 e2 e3 e4 e5 e6 e7 ck r =>
    split
    case isFalse => exact .error
    case isTrue hsync => exact .read (.ok rfl rfl rfl) (hsync ▸ rfl)

theorem decodeRx10_faithful : Faithful .rx10 [] bs (decodeRx10 bs) := by
  unfold decodeRx10
  split
  case h_2 => exact .error
  case h_1 h e1 e2 e3 e4 e5 flag code u8 ck r =>
    split
    case isFalse => exact .error
    case isTrue hfixed =>
      obtain ⟨rfl, rfl, rfl⟩ := hfixed
      exact .read (.ok rfl rfl rfl) rfl

theorem decodeRx11_faithful : Faithful .rx11 [] bs (decodeRx11 bs) := by
  unfold decodeRx11
  split
  case h_2 => exact .error
  case h_1 => exact .read (.ok rfl rfl rfl) rfl

end Formats

theorem decode_faithful (f : Format) (bs : List Byte) : Faithful f [] bs (decode f bs) := by
  cases f with
  | opid => exact decodeOpid_faithful bs
  | tx => exact decodeTx_faithful bs
  | rawvar => exact decodeRawVar_faithful bs
  | rx1 => exact decodeRx1_faithful bs
  | rx9 => exact decodeRx9_faithful bs
  | rx10 => exact decodeRx10_faithful bs
  | rx11 => exact decodeRx11_faithful bs

/-- Settles O10: the decoder of each format is `Faithful`, begun before the first byte. -/
theorem encodeAfterDecode : Obligations.EncodeAfterDecode :=
  fun f bs r i h => decode_faithful f bs i r h

/-! ### Reserved opcodes and the words of the opcode table -/

/-- A command frame whose opcode is none of the four is rejected, whatever follows (30_encoding.md R87). -/
theorem decodeTx_reserved {op : Byte} (r : List Byte) (hinit : op ≠ Config.opRamInit) (herase : op ≠ Config.opErase)
    (hwrite : op ≠ Config.opWrite) (hblank : op ≠ Config.opBlank) :
    decodeTx (Config.sync :: op :: r) = .error .reservedOpcode := by
  simp [decodeTx, hinit, herase, hwrite, hblank, Config.sync]

/-- Settles O11: the four tests of the opcode fail on a reserved one, and the decoder computes the eight words. -/
theorem tableWordsDecode : Obligations.TableWordsDecode := by
  refine ⟨fun op r hinit herase hwrite hblank => decodeTx_reserved r hinit herase hwrite hblank, ?_⟩
  decide

end Sys2Proof
end

