-- ==== Sys2Proof/Proofs/WireMessages.lean ====
section
/-! PROOFS. The twelve wire messages of 30_encoding.md called alone: what sending one does on an open transport (R72 to R78, R84),
and what a response does that arrives and is read whole (R79 to R83, R88). -/

namespace Sys2Proof

/-! ### Frames that end with one byte (41_framecodec.md R120, R124) -/

theorem frameHeaderOk_concat {body : List Byte} {n : Nat} (hlen : body.length + 1 = n) (hsync : body.head? = some Config.sync)
    (ck : Byte) : frameHeaderOk (body ++ [ck]) n = true := by
  simp [frameHeaderOk, hlen, hsync, syncByte]

/-- With the length and the header right, the last byte alone decides. -/
theorem validFrame_concat {body : List Byte} {n : Nat} (hlen : body.length + 1 = n) (hsync : body.head? = some Config.sync)
    (ck : Byte) : validFrame (body ++ [ck]) n = true ↔ ck = sum8 body := by
  simp [validFrame, frameHeaderOk_concat hlen hsync]

end Sys2Proof

namespace Sys2Proof.Machine

theorem validateCsum_concat {body : List Byte} {n : Nat} (hlen : body.length + 1 = n) (hsync : body.head? = some Config.sync)
    (ck : Byte) (w : WorkRegs) : validateCsum (body ++ [ck]) n w = { w with csum := sum8 body } := by
  simp [validateCsum, frameHeaderOk_concat hlen hsync]

/-! ### Messages sent -/

/-- Sending on an open transport (30_encoding.md R84): the environment's turn, then the message, with the registers it was
assembled in. -/
theorem opSend_settle (m : TxMsg) {s : State} (hopen : s.link.tOpen = true) :
    (opSend m s).settle = .next { envTurn s with
      wrk := m.regs s.wrk, link := { (envTurn s).link with txq := [] }, trace := s.trace ++ m.bytes.map .tx } := by
  rw [opSend_open m hopen, settle_ok]

/-- A constant message leaves the working registers alone (30_encoding.md R74, R78). -/
theorem opSend_settle_const {m : TxMsg} {s : State} (hopen : s.link.tOpen = true) (hregs : m.regs s.wrk = s.wrk) :
    (opSend m s).settle = .next { envTurn s with
      link := { (envTurn s).link with txq := [] }, trace := s.trace ++ m.bytes.map .tx } := by
  rw [opSend_settle m hopen, hregs, ← (envTurn_move s).wrk]

/-- A message that ends with its sum is sent with that sum and refused with any other byte (30_encoding.md R84, log 24); `w` gives
the registers with the checksum in `CSUM`. -/
theorem sendChecked_settle {m : TxMsg} {body : List Byte} {w : Byte → WorkRegs} {s : State} (hopen : s.link.tOpen = true)
    (hbytes : m.bytes = appendSum8 body) (hregs : m.regs s.wrk = w (sum8 body)) (ck : Byte) :
    (sendChecked m ck s).settle =
      if ck = sum8 body then .next { envTurn s with
        wrk := w ck, link := { (envTurn s).link with txq := [] }, trace := s.trace ++ (body ++ [ck]).map .tx }
      else .refused .frameChecksum := by
  rw [sendChecked, hbytes, appendSum8_getLast]
  split
  case isTrue hck =>
    obtain rfl := Option.some.inj hck
    rw [if_pos rfl, opSend_settle m hopen, hregs, hbytes, appendSum8]
  case isFalse hck => rw [if_neg fun h => hck (congrArg some h.symm), settle_refused]

/-- Settles O19: HANDSHAKE and JUMP are literals, CHIP_ERASE is a command frame of constant fields. -/
theorem constantMessagesAreTransmitted : Obligations.ConstantMessagesAreTransmitted := by
  intro s hopen
  refine ⟨opSend_settle_const hopen rfl, opSend_settle_const hopen rfl, ?chipErase⟩
  case chipErase => exact opSend_settle .chipErase hopen

/-- Settles O20: each message is its body and the sum of it. -/
theorem fieldMessagesAreTransmitted : Obligations.FieldMessagesAreTransmitted := by
  intro s hopen
  refine ⟨?ramInit, ?shimData, ?pageWrite, ?blankCheck⟩
  case ramInit =>
    intro a l ck
    exact sendChecked_settle (m := .ramInit a l) (w := fun ck => { s.wrk with op := 0x00#8, addr := a, len := l, csum := ck })
      hopen rfl rfl ck
  case shimData =>
    intro data ck hlen
    exact (if_pos hlen).trans
      (sendChecked_settle (m := .shimData data) (w := fun ck => { s.wrk with csum := ck }) hopen rfl rfl ck)
  case pageWrite =>
    intro a data ck hlen
    exact (if_pos hlen).trans (sendChecked_settle (m := .pageWrite a data)
      (w := fun ck => { s.wrk with op := 0x04#8, addr := a, len := BitVec.ofNat 16 data.length, csum := ck }) hopen rfl rfl ck)
  case blankCheck =>
    intro a l ck
    exact sendChecked_settle (m := .blankCheck a l) (w := fun ck => { s.wrk with op := 0x07#8, addr := a, len := l, csum := ck })
      hopen rfl rfl ck

/-! ### Responses received -/

theorem envTurn_silent {s : State} (h : s.env.script = []) : envTurn s = s := by simp [envTurn, h]

/-- The state once a response has been read and tested, with the registers the test left (40_transport.md R107, 30_encoding.md
R86). -/
def afterReading (bytes : List Byte) (w : WorkRegs) (s : State) : State :=
  { s with
    wrk := w
    rx := { rxb := bytes, rxn := BitVec.ofNat 4 bytes.length }
    trace := s.trace ++ [.readOk bytes.length s.cfg.tRead.toNat bytes] }

/-- The state with these bytes, and no others, in the receive queue. -/
def holdingBytes (bytes : List Byte) (s : State) : State := { s with link := { s.link with rxq := bytes } }

/-- Bytes that came into an empty queue and were all taken are in `RXB`, and the queue is empty again. -/
theorem readTaken_whole {bytes : List Byte} {s : State} (hq : s.link.rxq = []) (hfits : bytes.length ≤ 11) :
    readTaken bytes.length s.cfg.tRead.toNat (holdingBytes bytes s) = afterReading bytes s.wrk s := by
  have hlink : { s.link with rxq := [] } = s.link := by rw [← hq]
  simp [readTaken, holdingBytes, afterReading, rxBuffer_fits hfits, hlink]

/-- An error taken outside a run is recorded, and there is nothing to release (log 6). -/
theorem enterFailed_idle (e : ErrInfo) {s : State} (hidle : s.busy = false) : enterFailed e s = recordError e s := by
  have hrec : (recordError e s).busy = false := hidle
  simp [enterFailed, release, hrec]

section Arrival

variable {sh : RxShape} {bytes : List Byte} {w : WorkRegs} {s : State} (hopen : s.link.tOpen = true) (hq : s.link.rxq = [])
  (hsilent : s.env.script = []) (hlen : bytes.length = sh.count) (hregs : sh.regs bytes s.wrk = w)

include hopen hq hsilent hlen hregs

/-- A response that arrives whole is all that is read (log 23), and its shape decides (30_encoding.md R88). -/
theorem opRecvMsg_silent (c : Ctx) :
    opRecvMsg c sh bytes s =
      if sh.accepts bytes then .ok (afterReading bytes w s)
      else .err { kind := .protocol, ctx := c, raw := bytes } (afterReading bytes w s) := by
  have hturn : envTurn (holdingBytes bytes s) = holdingBytes bytes s := envTurn_silent hsilent
  have hqueued : bytes.length ≤ (envTurn (holdingBytes bytes s)).link.rxq.length := by rw [hturn, holdingBytes]
  have hread (k : List Byte → State → Res) :
      opRead c sh.count s.cfg.tRead.toNat (holdingBytes bytes s) k = k bytes (afterReading bytes s.wrk s) := by
    rw [← hlen, opRead_ready c (s := holdingBytes bytes s) k hopen hqueued, hturn, readTaken_whole hq (hlen ▸ sh.count_le)]
    exact congrArg (k · _) (List.take_length ..)
  rw [opRecvMsg, requireOpen_open hopen, hq, List.nil_append, ← hregs]
  exact hread _

theorem opRecvMsg_accepted (c : Ctx) (hshape : sh.accepts bytes = true) :
    (opRecvMsg c sh bytes s).settle = .next (afterReading bytes w s) := by
  rw [opRecvMsg_silent hopen hq hsilent hlen hregs c, if_pos hshape, settle_ok]

/-- A rejected response stands in `RXB` and in the record (60_exceptions.md R218), which has no address (10_state.md R26). -/
theorem opRecvMsg_rejected {c : Ctx} (hshape : ¬ sh.accepts bytes = true) (hidle : s.busy = false)
    (haddr : c.addressed = false) :
    (opRecvMsg c sh bytes s).settle = .next { afterReading bytes w s with
      pos := { s.pos with st := .failed }
      err :=
        { kind := .protocol, step := c.step, op := c.op, addr := 0#32, idx := s.pos.idx,
          rawn := BitVec.ofNat 4 bytes.length, raw := bytes } } := by
  have hidle' : (afterReading bytes w s).busy = false := hidle
  rw [opRecvMsg_silent hopen hq hsilent hlen hregs c, if_neg hshape, settle_err, enterFailed_idle _ hidle', recordError,
    errAddress_unaddressed haddr, clip_fits (hlen ▸ sh.count_le)]
  rfl

end Arrival

/-! ### The two responses that carry a checksum (30_encoding.md R82, R83) -/

theorem resp9_accepts (e1 e2 e3 e4 e5 e6 e7 ck : Byte) :
    RxShape.resp9.accepts [0x49#8, e1, e2, e3, e4, e5, e6, e7, ck] = true ↔ ck = sum8 [0x49#8, e1, e2, e3, e4, e5, e6, e7] :=
  validFrame_concat (body := [0x49#8, e1, e2, e3, e4, e5, e6, e7]) rfl rfl ck

/-- The flag and the code of a RESP10 are those of its layout, so its checksum decides here too. -/
theorem resp10_accepts (e1 e2 e3 e4 e5 u8 ck : Byte) :
    RxShape.resp10.accepts [0x49#8, e1, e2, e3, e4, e5, 0x01#8, 0x00#8, u8, ck] = true ↔
      ck = sum8 [0x49#8, e1, e2, e3, e4, e5, 0x01#8, 0x00#8, u8] := by
  rw [← validFrame_concat (body := [0x49#8, e1, e2, e3, e4, e5, 0x01#8, 0x00#8, u8]) rfl rfl ck]
  simp [RxShape.accepts, validBlank]

theorem resp9_regs (e1 e2 e3 e4 e5 e6 e7 ck : Byte) (w : WorkRegs) :
    RxShape.resp9.regs [0x49#8, e1, e2, e3, e4, e5, e6, e7, ck] w =
      { w with csum := sum8 [0x49#8, e1, e2, e3, e4, e5, e6, e7] } :=
  validateCsum_concat (body := [0x49#8, e1, e2, e3, e4, e5, e6, e7]) rfl rfl ck w

theorem resp10_regs (e1 e2 e3 e4 e5 u8 ck : Byte) (w : WorkRegs) :
    RxShape.resp10.regs [0x49#8, e1, e2, e3, e4, e5, 0x01#8, 0x00#8, u8, ck] w =
      { w with csum := sum8 [0x49#8, e1, e2, e3, e4, e5, 0x01#8, 0x00#8, u8] } :=
  validateCsum_concat (body := [0x49#8, e1, e2, e3, e4, e5, 0x01#8, 0x00#8, u8]) rfl rfl ck w

/-- Settles O21: each response has the length of its shape and is accepted, RESP9 and RESP10 by their checksum. -/
theorem responsesOfTheirShapeAreAccepted : Obligations.ResponsesOfTheirShapeAreAccepted := by
  intro s hopen hq hsilent
  refine ⟨?hsAck, ?ack, ?banner, ?resp9, ?resp10⟩
  case hsAck => exact opRecvMsg_accepted hopen hq hsilent rfl rfl _ rfl
  case ack => exact opRecvMsg_accepted hopen hq hsilent rfl rfl _ rfl
  case banner => exact fun _ _ _ _ _ _ _ _ _ _ _ => opRecvMsg_accepted hopen hq hsilent rfl rfl _ rfl
  case resp9 =>
    intro e1 e2 e3 e4 e5 e6 e7
    exact opRecvMsg_accepted hopen hq hsilent rfl (resp9_regs ..) _ ((resp9_accepts ..).2 rfl)
  case resp10 =>
    intro e1 e2 e3 e4 e5 u8
    exact opRecvMsg_accepted hopen hq hsilent rfl (resp10_regs ..) _ ((resp10_accepts ..).2 rfl)

/-- Settles O22: the checksum is the one test that fails, and which operation a RESP9 answers is read from `ST`. -/
theorem responsesWithABadChecksumAreRejected : Obligations.ResponsesWithABadChecksumAreRejected := by
  intro s hopen hq hsilent hidle
  refine ⟨?resp9, ?resp10⟩
  case resp9 =>
    intro e1 e2 e3 e4 e5 e6 e7 ck body hck
    have hreject {c : Ctx} (haddr : c.addressed = false) :=
      opRecvMsg_rejected hopen hq hsilent rfl (resp9_regs e1 e2 e3 e4 e5 e6 e7 ck s.wrk) (mt (resp9_accepts ..).1 hck) hidle haddr
    simp only [exec, execResp9Msg, resp9Ctx]
    split
    case isTrue => exact hreject rfl
    case isFalse => exact hreject rfl
  case resp10 =>
    intro e1 e2 e3 e4 e5 u8 ck body hck
    exact opRecvMsg_rejected hopen hq hsilent rfl (resp10_regs ..) (mt (resp10_accepts ..).1 hck) hidle rfl

end Sys2Proof.Machine
end

