-- ==== Sys2Proof/Proofs/Transport.lean ====
section
/-! PROOFS. The transport primitives and the wait of 40_transport.md: what each does in any environment (R101 to R107, R109), and
the verdict of a read at its deadline (R108). -/

namespace Sys2Proof.Machine

/-! ### The environment (40_transport.md R109) -/

/-- No operation of the environment writes the inputs. -/
theorem EnvMove.inputs {s t : State} (h : EnvMove s t) : sameInputs s t := ⟨h.cfg, h.img, h.shm, h.host⟩

theorem envTurn_cons {s : State} {t : Turn} {r : List Turn} (h : s.env.script = t :: r) : envTurn s = applyTurn t r s := by
  simp only [envTurn, h]

/-- What a turn does to the time reads the environment only. -/
theorem envTurn_env_congr {s t : State} (h : t.env = s.env) : (envTurn t).env = (envTurn s).env := by
  simp only [envTurn, h]
  split <;> simp [h]

/-- Settles O27: on a closed transport the turn's bytes are lost and the link is as it was (10_state.md R30). -/
theorem environmentTouchesOnlyTimeAndQueue : Obligations.EnvironmentTouchesOnlyTimeAndQueue := by
  intro s
  refine ⟨envTurn_silent, fun t r hscript => ?_⟩
  rw [envTurn_cons hscript, applyTurn]
  split
  · rfl
  · rfl

/-! ### The line, `Discard`, `Write` and `Wait` (40_transport.md R103 to R106) -/

/-- Settles O26: each primitive is performed after the environment's turn (log 9). -/
theorem lineDiscardAndWriteEffects : Obligations.LineDiscardAndWriteEffects := by
  intro s hopen
  refine ⟨fun a => ?line, ?discard, fun data => ?write⟩
  case line => exact congrArg Res.settle (opSetReset_open a hopen)
  case discard => exact congrArg Res.settle (opDiscard_open hopen)
  case write => exact congrArg Res.settle (opWrite_open data hopen)

/-- Settles O28: a wait is the environment's doing and its own trace event. -/
theorem waitLastsAtLeastItsTime : Obligations.WaitLastsAtLeastItsTime := by
  intro s ms
  obtain ⟨u, hmove, hlong, hwait⟩ := opWait_spec ms.toNat s
  obtain ⟨used, hscript, hqueue⟩ := hmove.delivered
  have hlink : u.link =
      { s.link with rxq := s.link.rxq ++ if s.link.tOpen then (used.map Turn.arrive).flatten else [] } := by
    rw [← hqueue]; exact hmove.link
  exact ⟨_, congrArg Host.Outcome.next hwait, hlong, hmove.opens, ⟨used, hscript, hlink⟩, rfl, hmove.pos,
    hmove.run, hmove.wrk, hmove.err, hmove.rx, hmove.ret, hmove.inputs⟩

/-! ### `Open` and `Close` (40_transport.md R101, R102) -/

theorem execClose_closed {s : State} (hclosed : s.link.tOpen = false) : execClose s = .next s := by
  simp [execClose, hclosed]

theorem execClose_open {s : State} (hopen : s.link.tOpen = true) :
    execClose s = .next (finishRun (closeLink (envTurn s))) := by
  simp [execClose, hopen, opClose_open hopen]

/-- The last step moves the position and ends a download run (45_orchestrator.md R193). -/
theorem finishRun_eq (s : State) :
    finishRun s = { advance .reset .done s with
      run := if s.pos.st = .reset ∧ s.run = some .download then none else s.run } := by
  unfold finishRun
  split <;> rfl

/-- Settles O25: the transport is closed after the first `close`, so the second has no effect. -/
theorem closeIsIdempotent : Obligations.CloseIsIdempotent := by
  refine ⟨fun s hclosed => execClose_closed hclosed, fun s hopen => ?_⟩
  have hmove := envTurn_move s
  refine ⟨_, execClose_open hopen, execClose_closed ?closed, ?_⟩
  all_goals rw [finishRun_eq]
  case closed => rfl
  refine ⟨congrArg (· ++ _) hmove.trace, ?link, rfl, hmove.wrk, hmove.err, hmove.rx, hmove.ret, hmove.inputs, ?pos, ?run⟩
  case link => simp [hmove.tBaud]
  case pos => simp [hmove.pos]
  case run => simp [hmove.pos, hmove.run]

/-- The error of an `open` the environment refuses (60_exceptions.md R216). -/
def openError : ErrInfo := { kind := .io, ctx := ctxOpen, raw := [] }

/-- Settles O24: `opOpen_spec` at the head of the list of answers; a refusal leaves a closed transport, so taking the error
releases nothing more. -/
theorem openFollowsTheEnvironmentsAnswer : Obligations.OpenFollowsTheEnvironmentsAnswer := by
  intro s port baud ok more hopens
  obtain ⟨t, hmove, htrace, hyes, hno⟩ := opOpen_spec port baud (restart s)
  have hanswer : (restart s).env.opens.headD false = ok := by rw [restart_env, hopens, List.headD_cons]
  have henv : t.env = { (envTurn s).env with opens := more } := by
    rw [hmove.env, envTurn_env_congr (restart_env s), restart_env, hopens, List.tail_cons]
  have hinputs : sameInputs s t := ⟨hmove.cfg, hmove.img, hmove.shm, hmove.host⟩
  rw [hanswer] at htrace hyes hno
  cases ok with
  | true =>
    obtain ⟨hopened, hlink⟩ := hyes rfl
    have hexec : exec (.openPort port baud) s = .next (advance .closed .initialized t) := by
      rw [exec, execOpen, hopened]; rfl
    refine ⟨_, hexec, htrace, henv, hmove.wrk, hmove.rx, hmove.ret, hinputs, rfl, rfl,
      fun _ => ⟨hlink, hmove.err, hmove.run, ?_⟩, nofun⟩
    simp [hmove.pos]
  | false =>
    obtain ⟨hrefused, hclosed, hlink⟩ := hno rfl
    have hexec : exec (.openPort port baud) s = .next (enterFailed openError t) := by
      rw [exec, execOpen, hrefused]; rfl
    obtain ⟨hpos, hrun, herr, -, -, -, -, hret, hwrk, hrx, -⟩ := enterFailed_spec openError t
    obtain ⟨hlink', htrace', henv'⟩ := enterFailed_closed openError hclosed
    refine ⟨_, hexec, htrace'.trans htrace, henv'.trans henv, hwrk.trans hmove.wrk, hrx.trans hmove.rx, hret.trans hmove.ret,
      hinputs.trans (enterFailed_inputs openError t), ?_, ?_, nofun,
      fun _ => ⟨hlink' ▸ hclosed, hlink'.trans hlink, ?_, hrun, herr⟩⟩
    all_goals simp [hpos, hmove.pos]

/-! ### `Read` (40_transport.md R107) -/

/-- Settles O29: nothing but the environment's turn passes before the bytes are taken (corner case b). -/
theorem readTakesTheOldestBytes : Obligations.ReadTakesTheOldestBytes := by
  intro s count timeout hopen hqueued e b
  have hread := opRead_ready (posCtx s.pos) (t := timeout.toNat) (fun b s1 => .ok { s1 with ret := .bytes b }) hopen hqueued
  refine ⟨rxBuffer b, ?_, fun hfits => ?_⟩
  · rw [← (envTurn_move s).trace]
    exact congrArg Res.settle hread
  · have hlen : b.length = count.toNat := List.length_take_of_le hqueued
    rw [rxBuffer_fits (hlen ▸ hfits), hlen]

/-- The error of a read that found too few bytes (60_exceptions.md R217). -/
def timeoutError (p : Position) (bytes : List Byte) : ErrInfo := { kind := .timeout, ctx := posCtx p, raw := bytes }

/-- `readExact` outside a run: the bytes returned, or the timeout recorded with nothing to release (log 6). -/
theorem execReadExact_idle (count timeout : Word) {s : State} (hopen : s.link.tOpen = true) (hidle : s.busy = false) :
    ∃ u, EnvMove s u ∧
      ((count.toNat ≤ u.link.rxq.length ∧ execReadExact count timeout s =
          .next { readTaken count.toNat timeout.toNat u with ret := .bytes (u.link.rxq.take count.toNat) }) ∨
       (u.link.rxq.length < count.toNat ∧ (envTurn s).env.now + timeout.toNat ≤ u.env.now ∧ execReadExact count timeout s =
          .next (recordError (timeoutError s.pos u.link.rxq) (readPartial count.toNat timeout.toNat u)))) := by
  obtain ⟨u, hmove, ⟨hlen, hread⟩ | ⟨hlen, hlate, hread⟩⟩ := opRead_open (posCtx s.pos) count.toNat timeout.toNat
    (fun b s1 => .ok { s1 with ret := .bytes b }) hopen
  · exact ⟨u, hmove, .inl ⟨hlen, congrArg Res.settle hread⟩⟩
  · refine ⟨u, hmove, .inr ⟨hlen, hlate, ?_⟩⟩
    have hidle' : (readPartial count.toNat timeout.toNat u).busy = false := by
      simpa [State.busy, hmove.run] using hidle
    exact (congrArg Res.settle hread).trans (congrArg _ (enterFailed_idle _ hidle'))

/-- Settles O30: the queue at the verdict is what was queued and what the turns consumed delivered; it is cut at `count`, or all
of it goes into the record. -/
theorem readReturnsExactlyOrTimesOut : Obligations.ReadReturnsExactlyOrTimesOut := by
  intro s count timeout hopen hidle
  obtain ⟨u, hmove, hread⟩ := execReadExact_idle count timeout hopen hidle
  obtain ⟨used, hscript, hqueue⟩ := hmove.delivered
  rw [if_pos hopen] at hqueue
  have hlink (q : List Byte) : { u.link with rxq := q } = { s.link with rxq := q } := by rw [hmove.link]
  rcases hread with ⟨hlen, hread⟩ | ⟨hlen, hlate, hread⟩
  · refine ⟨_, hread, hmove.inputs, hmove.wrk, hmove.opens, hmove.run, used, hscript,
      .inl ⟨u.link.rxq.take count.toNat, u.link.rxq.drop count.toNat, List.length_take_of_le hlen, ?_, hlink _, rfl,
        rxBuffer_fits, hmove.pos, hmove.err, congrArg (· ++ _) hmove.trace⟩⟩
    rw [← hqueue, List.take_append_drop]
  · refine ⟨_, hread, hmove.inputs, hmove.wrk, hmove.opens, hmove.run, used, hscript,
      .inr ⟨u.link.rxq, hlen, hqueue.symm, hlink _, hlate, hmove.ret, rxBuffer_fits, ?pos, rfl, ?addr, ?idx, ?raw,
        congrArg (· ++ _) hmove.trace⟩⟩
    case pos => simp [hmove.pos]
    case addr => exact errAddress_unaddressed (posCtx_addressed s.pos) _
    case idx => exact congrArg Position.idx hmove.pos
    case raw =>
      intro hfits
      simp [timeoutError, clip_fits hfits]
      omega

/-! ### The verdict at the deadline (40_transport.md R108) -/

/-- The bytes that are queued, or that the environment delivers no later than the deadline. -/
def inTime (deadline : Nat) (s : State) : List Byte := s.link.rxq ++ arrivedBy (deadline - s.env.now) s.env.script

/-- A turn that ends by the deadline puts its bytes into the queue; after a later one nothing more was in time. -/
theorem inTime_applyTurn {deadline : Nat} {t : Turn} {r : List Turn} {s : State} (hopen : s.link.tOpen = true)
    (hscript : s.env.script = t :: r) :
    (inTime deadline s).length ≤ (inTime deadline (applyTurn t r s)).length := by
  by_cases hby : t.elapse ≤ deadline - s.env.now
  · simp [inTime, hopen, hscript, arrivedBy, hby, Nat.sub_sub]
  · simp [inTime, hopen, hscript, arrivedBy, hby]

theorem inTime_absorbTurns {deadline : Nat} (l : List Turn) {s : State} (hopen : s.link.tOpen = true)
    (hscript : s.env.script = l) : (inTime deadline s).length ≤ (inTime deadline (absorbTurns l s)).length := by
  induction l generalizing s with
  | nil => exact Nat.le_refl _
  | cons t r ih =>
    unfold absorbTurns
    split
    · exact (inTime_applyTurn hopen hscript).trans (ih ((applyTurn_move hscript).tOpen.trans hopen) rfl)
    · exact Nat.le_refl _

theorem inTime_waitTurns {deadline target : Nat} (l : List Turn) {s : State} (hopen : s.link.tOpen = true)
    (hscript : s.env.script = l) : (inTime deadline s).length ≤ (inTime deadline (waitTurns target l s)).length := by
  induction l generalizing s with
  | nil =>
    unfold waitTurns
    split
    · simp [inTime, hscript, arrivedBy]
    · exact Nat.le_refl _
  | cons t r ih =>
    unfold waitTurns
    split
    · exact Nat.le_refl _
    · exact (inTime_applyTurn hopen hscript).trans (ih ((applyTurn_move hscript).tOpen.trans hopen) rfl)

/-- Once everything that arrives at the present instant has, nothing more arrives without time passing. -/
theorem arrivedBy_zero_absorbTurns (l : List Turn) {s : State} (hscript : s.env.script = l) :
    arrivedBy 0 (absorbTurns l s).env.script = [] := by
  induction l generalizing s with
  | nil => simp [absorbTurns, hscript, arrivedBy]
  | cons t r ih =>
    unfold absorbTurns
    split
    · exact ih rfl
    · next hlater => simp [hscript, arrivedBy, hlater]

/-- A poll whose bytes arrive by its deadline finds them: at the deadline all that was in time is queued. -/
theorem poll_true_of_inTime {n t t0 k : Nat} {s : State} (hopen : s.link.tOpen = true) (hstart : t0 ≤ s.env.now)
    (hpolls : t < s.env.now - t0 + k) (hk : 0 < k) (harrive : n ≤ (inTime (t0 + t) s).length) : (poll n t t0 k s).2 = true := by
  induction k generalizing s with
  | zero => exact absurd hk (Nat.lt_irrefl 0)
  | succ k ih =>
    have hnow := (absorbNow_move s).later
    have harrive' : n ≤ (inTime (t0 + t) (absorbNow s)).length := harrive.trans (inTime_absorbTurns _ hopen rfl)
    have hopen' : (absorbNow s).link.tOpen = true := (absorbNow_move s).tOpen.trans hopen
    unfold poll
    split
    · rfl
    split
    · rfl
    split
    · next hmissing hdeadline =>
      have hpast : t0 + t - (absorbNow s).env.now = 0 := by omega
      rw [inTime, hpast, absorbNow, arrivedBy_zero_absorbTurns _ rfl, List.append_nil] at harrive'
      exact absurd harrive' hmissing
    · have hwait := waitUntil_reaches ((absorbNow s).env.now + pollStep s) (absorbNow s)
      have hstep : 1 ≤ pollStep s := Nat.le_max_left ..
      exact ih ((waitUntil_move _ _).tOpen.trans hopen') (by omega) (by omega) (by omega)
        (harrive'.trans (inTime_waitTurns _ hopen' rfl))

/-- Settles O31: bytes that are in time are found; bytes that never arrive are not there at the verdict. -/
theorem readVerdictAtTheDeadline : Obligations.ReadVerdictAtTheDeadline := by
  intro s count timeout hopen e
  have hopen' : e.link.tOpen = true := (envTurn_move s).tOpen.trans hopen
  constructor
  · intro harrive
    refine poll_true_of_inTime hopen' (Nat.le_refl _) (by omega) timeout.succ_pos ?_
    rwa [inTime, Nat.add_sub_cancel_left]
  · intro hnever
    refine Bool.eq_false_iff.2 fun htrue => ?_
    have hfound : count ≤ (readVerdict count timeout s).1.link.rxq.length := poll_true htrue
    obtain ⟨used, hscript, hqueue⟩ := (poll_move count timeout e.env.now (timeout + 1) e).delivered
    rw [readVerdict, hqueue, if_pos hopen'] at hfound
    rw [hscript] at hnever
    simp at hnever hfound
    omega

end Sys2Proof.Machine
end

