-- ==== Sys2Proof/Proofs/Refusals.lean ====
section
/-! PROOFS. Operations that have no step (60_exceptions.md R236): operands outside their range, and every operation on the link
of a closed transport but `open`, `close` and `wait` (40_transport.md R100). -/

namespace Sys2Proof.Machine

/-! ### Ranges (44_flashprogrammer.md R172, R176) -/

theorem imageRangeOk_iff {loadAddress imageLen pageSize : Nat} :
    imageRangeOk loadAddress imageLen pageSize = true ↔
      1 ≤ pageSize ∧ loadAddress + imageLen ≤ 2 ^ 32 ∧ imageLen < 2 ^ 32 := by
  simp [imageRangeOk, and_assoc]

theorem blankRangeOk_iff {start pageSize count : Nat} :
    blankRangeOk start pageSize count = true ↔ 1 ≤ pageSize ∧ start + count * pageSize ≤ 2 ^ 32 := by
  simp [blankRangeOk]

/-- An image with a byte has a page (44_flashprogrammer.md R169). -/
theorem pageCount_ne_zero {imageLen pageSize : Nat} (hlen : 0 < imageLen) (hsize : 1 ≤ pageSize) :
    pageCount imageLen pageSize ≠ 0 :=
  (Nat.div_pos (by omega) hsize).ne'

/-- Page sizes are given as registers. -/
theorem half_toNat_pos {p : Half} (h : p ≠ 0#16) : 1 ≤ p.toNat := by bv_omega

/-! ### Refusals pass through -/

theorem andThen_of_refused {r : Res} {x : Refusal} (h : r = .refused x) (k : State → Res) : r.andThen k = .refused x := by
  rw [h, andThen_refused]

theorem settle_of_refused {r : Res} {x : Refusal} (h : r = .refused x) : r.settle = .refused x := by rw [h, settle_refused]

theorem map_settle_of_refused {r : Res} {x : Refusal} (h : r = .refused x) (f : State → State) :
    (r.map f).settle = .refused x := settle_of_refused (andThen_of_refused h _)

/-! ### A closed transport (40_transport.md R100) -/

/-- The events that act on the link and read no input memory first: all but the wait. -/
def Ev.actsOnLink : Ev → Bool
  | .wait _ | .sendShim _ | .sendPage _ _ _ => false
  | .setReset _ | .discard | .send _ | .recv _ => true

section Closed

variable {s : State} (hclosed : s.link.tOpen = false)

include hclosed

theorem runEv_closed {e : Ev} (he : e.actsOnLink = true) (c : Ctx) : runEv c e s = .refused .transportClosed := by
  cases e with
  | setReset | discard | send | recv => exact requireOpen_closed hclosed
  | wait | sendShim | sendPage => cases he

/-- The first event of a list decides. -/
theorem runEvents_closed {e : Ev} (he : e.actsOnLink = true) (es : List Ev) (c : Ctx) (k : Nat) :
    runEvents c k (e :: es) s = .refused .transportClosed :=
  andThen_of_refused (runEv_closed (s := setPh k s) hclosed he c) _

/-- A primitive, or a message, called alone. -/
theorem primitive_closed {k : Res} : (requireOpen s k).settle = .refused .transportClosed :=
  settle_of_refused (requireOpen_closed hclosed)

/-- An operation that is a list of events and an update of the position. -/
theorem operation_closed {e : Ev} (he : e.actsOnLink = true) (es : List Ev) (c : Ctx) (k : Nat) (f : State → State) :
    ((runEvents c k (e :: es) s).map f).settle = .refused .transportClosed :=
  map_settle_of_refused (runEvents_closed hclosed he es c k) f

theorem segmentLoop_closed (start : Word) (pageSize : Half) {is : List Nat} (his : is ≠ []) :
    segmentLoop start pageSize is s = .refused .transportClosed := by
  cases is with
  | nil => exact absurd rfl his
  | cons i is => exact andThen_of_refused (runEvents_closed (s := setIdx i s) hclosed rfl _ _ _) _

theorem pageLoop_closed (loadAddress : Word) (bytes : List Byte) (pageSize : Nat) {is : List Nat} (his : is ≠ []) :
    pageLoop loadAddress bytes pageSize is s = .refused .transportClosed := by
  cases is with
  | nil => exact absurd rfl his
  | cons i is => exact andThen_of_refused (runEvents_closed (s := setIdx i s) hclosed rfl _ _ _) _

theorem execLoadAndRun_closed {shim : List Byte} (hlen : shim.length ≤ 65535) (base : Word) :
    execLoadAndRun shim base s = .refused .transportClosed := by
  rw [execLoadAndRun, if_pos hlen]
  have hinit := runEvents_closed (s := restart s) hclosed (e := .send (.ramInit base (BitVec.ofNat 16 shim.length))) rfl
    [.recv .ack] ctxRamInit 0
  exact map_settle_of_refused (andThen_of_refused (andThen_of_refused hinit _) _) _

theorem execWriteImage_closed {loadAddress : Word} {bytes : List Byte} {pageSize : Half} (hbytes : bytes ≠ [])
    (hlen : bytes.length < 2 ^ 32) (hsize : pageSize ≠ 0#16) (hrange : loadAddress.toNat + bytes.length ≤ 2 ^ 32) :
    execWriteImage loadAddress bytes pageSize s = .refused .transportClosed := by
  have hpages : List.range (pageCount bytes.length pageSize.toNat) ≠ [] :=
    mt List.range_eq_nil.1 (pageCount_ne_zero (List.length_pos_of_ne_nil hbytes) (half_toNat_pos hsize))
  rw [execWriteImage, if_pos (imageRangeOk_iff.2 ⟨half_toNat_pos hsize, hrange, hlen⟩)]
  refine map_settle_of_refused (pageLoop_closed ?_ _ _ _ hpages) _
  exact hclosed

theorem execBlankCheck_closed {start : Word} {pageSize : Half} {count : Word} (hcount : count ≠ 0#32)
    (hsize : pageSize ≠ 0#16) (hrange : start.toNat + count.toNat * pageSize.toNat ≤ 2 ^ 32) :
    execBlankCheck start pageSize count s = .refused .transportClosed := by
  have hsegments : List.range count.toNat ≠ [] := mt List.range_eq_nil.1 (by bv_omega)
  rw [execBlankCheck, if_pos (blankRangeOk_iff.2 ⟨half_toNat_pos hsize, hrange⟩)]
  exact map_settle_of_refused (segmentLoop_closed (s := restart s) hclosed _ _ hsegments) _

/-- The checksum byte of a message is looked at before the transport (log 24). -/
theorem sendChecked_closed {m : TxMsg} {body : List Byte} (hbytes : m.bytes = appendSum8 body) (ck : Byte) :
    (sendChecked m ck s).settle = .refused (if ck = sum8 body then .transportClosed else .frameChecksum) := by
  rw [sendChecked, hbytes, appendSum8_getLast]
  split
  case isTrue hck =>
    rw [if_pos (Option.some.inj hck).symm]
    exact primitive_closed hclosed
  case isFalse hck => rw [if_neg fun h => hck (congrArg some h.symm), settle_refused]

end Closed

/-- Settles O32: the range tests stand before everything else; past them the first event on the link is refused. -/
theorem refusedOperationsHaveNoStep : Obligations.RefusedOperationsHaveNoStep := by
  refine ⟨fun s => ⟨?shim, ?page, ?image, ?blank⟩, fun s hclosed => ?_⟩
  case shim =>
    intro shim base ck hlen
    have hlong : ¬ shim.length ≤ 65535 := Nat.not_le.2 hlen
    exact ⟨if_neg hlong, if_neg hlong, if_neg hlong⟩
  case page =>
    intro a data ck hlen
    have hlong : ¬ data.length ≤ 65535 := Nat.not_le.2 hlen
    exact ⟨if_neg hlong, if_neg hlong⟩
  case image =>
    intro a bytes p hout
    refine if_neg fun hok => ?_
    obtain ⟨hsize, hrange, -⟩ := imageRangeOk_iff.1 hok
    rcases hout with rfl | hout
    · exact absurd hsize (by decide)
    · exact absurd hrange (Nat.not_le.2 hout)
  case blank =>
    intro a p n hout
    refine if_neg fun hok => ?_
    obtain ⟨hsize, hrange⟩ := blankRangeOk_iff.1 hok
    rcases hout with rfl | hout
    · exact absurd hsize (by decide)
    · exact absurd hrange (Nat.not_le.2 hout)
  have hprimitive {k : Res} : (requireOpen s k).settle = .refused .transportClosed := primitive_closed hclosed
  have hrestart {e : Ev} (he : e.actsOnLink = true) := operation_closed (s := restart s) hclosed he
  refine ⟨?setResetLine, ?discardBuffers, ?writeBytes, ?readExact, ?handshake, ?resetPulse, ?loadAndRun, ?ramInit, ?shimData,
    ?jump, ?chipErase, ?writePage, ?writeImage, ?segment, ?blankCheck, ?handshakeMsg, ?jumpMsg, ?chipEraseMsg, ?ramInitMsg,
    ?shimDataMsg, ?pageWriteMsg, ?blankCheckMsg, ?hsAckMsg, ?ackMsg, ?jumpBannerMsg, ?resp9Msg, ?resp10Msg⟩
  case setResetLine | discardBuffers | writeBytes | readExact => intros; exact hprimitive
  case handshakeMsg | jumpMsg | chipEraseMsg => exact hprimitive
  case hsAckMsg | ackMsg | jumpBannerMsg | resp9Msg | resp10Msg => intros; exact hprimitive
  case handshake | resetPulse | ramInit | jump | chipErase => intros; exact hrestart rfl _ _ _ _
  case shimData => exact fun _ hlen => (if_pos hlen).trans (hrestart rfl _ _ _ _)
  case segment => exact fun _ _ => operation_closed hclosed rfl _ _ _ _
  case writePage => exact fun _ _ hlen => (if_pos hlen).trans (operation_closed hclosed rfl _ _ _ _)
  case loadAndRun => exact fun _ base hlen => execLoadAndRun_closed hclosed hlen base
  case writeImage => exact fun _ _ _ hbytes hlen hsize hrange => execWriteImage_closed hclosed hbytes hlen hsize hrange
  case blankCheck => exact fun _ _ _ hcount hsize hrange => execBlankCheck_closed hclosed hcount hsize hrange
  case ramInitMsg => exact fun a l => sendChecked_closed hclosed (m := .ramInit a l) rfl
  case blankCheckMsg => exact fun a l => sendChecked_closed hclosed (m := .blankCheck a l) rfl
  case shimDataMsg => exact fun data ck hlen => (if_pos hlen).trans (sendChecked_closed hclosed (m := .shimData data) rfl ck)
  case pageWriteMsg =>
    exact fun a data ck hlen => (if_pos hlen).trans (sendChecked_closed hclosed (m := .pageWrite a data) rfl ck)

end Sys2Proof.Machine
end

