-- ==== Sys2Proof/Proofs/FrameCodec.lean ====
section
/-! PROOFS. The codec of 41_framecodec.md: the arithmetic of the checksum (R120, R129, R130), which frames the validator accepts and
which changes it detects (R124, R128), and what the operations return and write (R120 to R127). -/

namespace Sys2Proof

/-! ### The checksum (R120, R129, R130) -/

@[simp] theorem sum8_nil : sum8 [] = 0#8 := rfl

@[simp] theorem sum8_singleton (v : Byte) : sum8 [v] = v := by simp [sum8_cons]

/-- The order of the bytes does not matter, for addition is commutative. -/
theorem sum8_perm {a b : List Byte} (h : a.Perm b) : sum8 a = sum8 b := by
  induction h with
  | nil => rfl
  | cons x _ ih => rw [sum8_cons, sum8_cons, ih]
  | swap x y l => simp only [sum8_cons]; ac_rfl
  | trans _ _ ih₁ ih₂ => exact ih₁.trans ih₂

/-- The trailer doubles the sum (R130). -/
theorem sum8_appendSum8 (b : List Byte) : sum8 (appendSum8 b) = sum8 b + sum8 b := by
  rw [appendSum8, sum8_concat, sum8_singleton]

/-- Replacing a byte takes the old one out of the sum and adds the new one. -/
theorem sum8_set {b : List Byte} {k : Nat} (hk : k < b.length) (v : Byte) : sum8 (b.set k v) + b[k] = sum8 b + v := by
  induction b generalizing k with
  | nil => simp at hk
  | cons x b ih =>
    cases k with
    | zero => simp only [List.set_cons_zero, List.getElem_cons_zero, sum8_cons]; ac_rfl
    | succ k =>
      rw [List.set_cons_succ, List.getElem_cons_succ, sum8_cons, sum8_cons, BitVec.add_assoc, ih, BitVec.add_assoc]

/-- Two sequences that differ in one byte have different sums. -/
theorem sum8_set_eq_iff {b : List Byte} {k : Nat} (hk : k < b.length) {v : Byte} : sum8 (b.set k v) = sum8 b ↔ v = b[k] := by
  rw [← BitVec.add_left_inj b[k], sum8_set hk, BitVec.add_right_inj]

/-- Settles O18: the laws of `sum8`, read off at the values. -/
theorem checksumLaws : Obligations.ChecksumLaws := by
  refine ⟨fun a b => ?_, fun _ _ => sum8_perm, sum8_singleton, sum8_nil, fun b => ?_⟩
  · rw [sum8_concat, BitVec.toNat_add]
  · rw [sum8_appendSum8, BitVec.toNat_add, Nat.two_mul]

/-! ### The validator (R124, R128) -/

theorem frameHeaderOk_iff {bytes : List Byte} {n : Nat} :
    frameHeaderOk bytes n = true ↔ bytes.length = n ∧ bytes[0]? = some Config.sync := by
  cases bytes <;> simp [frameHeaderOk, syncByte]

/-- A frame is accepted by its length, its header and its last byte. -/
theorem validFrame_iff {bytes : List Byte} {n : Nat} : validFrame bytes n = true ↔
    bytes.length = n ∧ bytes[0]? = some Config.sync ∧ bytes[n - 1]? = some (sum8 (bytes.take (n - 1))) := by
  rw [validFrame, Bool.and_eq_true, frameHeaderOk_iff, and_assoc, beq_iff_eq, List.getLast?_eq_getElem?, List.dropLast_eq_take]
  exact and_congr_right fun hlen => by rw [hlen]

/-- A byte is the sum of a sequence when its value is. -/
theorem eq_sum8_iff {v : Byte} {bytes : List Byte} : v = sum8 bytes ↔ v.toNat = (bytes.map BitVec.toNat).sum % 256 := by
  rw [← sum8_toNat, BitVec.toNat_inj]

/-- Whatever its header is, an accepted frame ends with the sum of the bytes before. -/
theorem eq_sum8_of_validFrame {body : List Byte} {ck : Byte} {n : Nat} (h : validFrame (body ++ [ck]) n = true) :
    ck = sum8 body := by
  simp only [validFrame, Bool.and_eq_true, beq_iff_eq, List.getLast?_concat, List.dropLast_concat] at h
  exact Option.some.inj h.2

/-- The round trip of R128. -/
theorem validFrame_appendSum8 {b : List Byte} (hne : b ≠ []) :
    validFrame (appendSum8 b) (b.length + 1) = true ↔ b[0]? = some Config.sync := by
  have hpos : 0 < b.length := List.length_pos_iff.mpr hne
  rw [validFrame_iff, appendSum8, List.getElem?_append_left hpos]
  simp

/-- Every change of one byte is detected (R128): in the trailer the sum stays and the byte does not, before it the sum moves and the
trailer stays. -/
theorem validFrame_set_appendSum8 {b : List Byte} {k : Nat} {v : Byte} (hk : k ≤ b.length) (hv : (appendSum8 b)[k]? ≠ some v)
    (n : Nat) : validFrame ((appendSum8 b).set k v) n = false := by
  refine Bool.eq_false_iff.mpr fun hvalid => hv ?_
  rw [appendSum8] at hvalid ⊢
  rcases hk.lt_or_eq with hbody | rfl
  · rw [List.set_append_left _ _ hbody] at hvalid
    have hsum : sum8 (b.set k v) = sum8 b := (eq_sum8_of_validFrame hvalid).symm
    rw [List.getElem?_append_left hbody, (sum8_set_eq_iff hbody).mp hsum, List.getElem?_eq_getElem hbody]
  · rw [List.set_append_right _ _ le_rfl, Nat.sub_self, List.set_cons_zero] at hvalid
    rw [eq_sum8_of_validFrame hvalid, List.getElem?_concat_length]

/-- Settles O17: a command frame is a body that begins with the header, and the sum of it. -/
theorem framesRoundTripAndSingleByteChangesAreDetected : Obligations.FramesRoundTripAndSingleByteChangesAreDetected := by
  refine ⟨fun opcode address extra payload => ?frame, fun b hne => ⟨fun hsync => ?sync, fun hsync => ?noSync⟩⟩
  case frame =>
    dsimp only
    rw [commandFrame, appendSum8_length]
    exact ⟨(validFrame_appendSum8 (List.cons_ne_nil _ _)).mpr rfl,
      fun k v hk hv => validFrame_set_appendSum8 (Nat.lt_succ_iff.mp hk) hv _⟩
  case sync => exact ⟨(validFrame_appendSum8 hne).mpr hsync, fun k v hk hv => validFrame_set_appendSum8 hk hv _⟩
  case noSync => exact Bool.eq_false_iff.mpr fun hvalid => hsync ((validFrame_appendSum8 hne).mp hvalid)

end Sys2Proof

namespace Sys2Proof.Machine

/-! ### The operations (R120 to R127) -/

/-- `CSUM` is written when the length and the header are right. -/
theorem validateCsum_eq (bytes : List Byte) (n : Nat) (w : WorkRegs) :
    validateCsum bytes n w =
      if bytes.length = n ∧ bytes[0]? = some Config.sync then { w with csum := sum8 (bytes.take (n - 1)) } else w := by
  rw [validateCsum]
  refine (if_congr frameHeaderOk_iff rfl rfl).trans ?_
  split
  case isTrue h => rw [List.dropLast_eq_take, h.1]
  case isFalse => rfl

/-- The error of a frame the validator rejects (60_exceptions.md R218). -/
def frameError (p : Position) (bytes : List Byte) : ErrInfo := { kind := .protocol, ctx := posCtx p, raw := bytes }

theorem execValidateResponseFrame_accepted {bytes : List Byte} {n : Word} (hvalid : validFrame bytes n.toNat = true) (s : State) :
    execValidateResponseFrame bytes n s = .next { s with wrk := validateCsum bytes n.toNat s.wrk, ret := .unit } :=
  if_pos hvalid

/-- A rejection outside a run is recorded, and there is nothing to release (log 6). -/
theorem execValidateResponseFrame_rejected {bytes : List Byte} {n : Word} {s : State} (hinvalid : validFrame bytes n.toNat = false)
    (hidle : s.busy = false) : execValidateResponseFrame bytes n s =
      .next (recordError (frameError s.pos bytes) { s with wrk := validateCsum bytes n.toNat s.wrk }) := by
  have hidle' : State.busy { s with wrk := validateCsum bytes n.toNat s.wrk } = false := hidle
  rw [← enterFailed_idle _ hidle']
  exact if_neg (Bool.eq_false_iff.mp hinvalid)

/-- Settles O16: `validFrame_iff` says what is accepted, `validateCsum_eq` what becomes of `CSUM`. -/
theorem validateAcceptsExactlyTheFrames : Obligations.ValidateAcceptsExactlyTheFrames := by
  refine ⟨fun bytes n => ?accepts, fun bytes n s hvalid => ?accepted, fun bytes n s hinvalid hidle => ?rejected⟩
  case accepts => simp only [validFrame_iff, ← eq_sum8_iff, exists_eq_right, Config.sync]
  case accepted =>
    obtain ⟨hlen, hsync, -⟩ := validFrame_iff.mp hvalid
    rw [exec, execValidateResponseFrame_accepted hvalid, validateCsum_eq, if_pos ⟨hlen, hsync⟩]
  case rejected =>
    refine ⟨_, execValidateResponseFrame_rejected hinvalid hidle, rfl, rfl, errAddress_unaddressed (posCtx_addressed s.pos) _,
      rfl, fun hfits => ⟨clip_fits hfits, ?rawn⟩, validateCsum_eq .., rfl, rfl, rfl, rfl, rfl, rfl, rfl, rfl, rfl, rfl⟩
    case rawn =>
      have hraw : (clip bytes).length = bytes.length := by rw [clip_fits hfits]
      exact (BitVec.toNat_ofNat ..).trans (by rw [frameError, hraw]; omega)

/-- Settles O13: `sum8_toNat` gives the value, and both operations leave it in `CSUM`. -/
theorem checksumIsTheSumModulo256 : Obligations.ChecksumIsTheSumModulo256 :=
  fun bytes _ => ⟨sum8 bytes, sum8_toNat bytes, rfl, rfl, rfl, rfl⟩

/-- Settles O14: the address bytes are those of `le32_value`, the checksum is the sum of `frameBody`. -/
theorem buildCommandFrameLaysOutTheFrame : Obligations.BuildCommandFrameLaysOutTheFrame := by
  intro opcode address extra payload s
  obtain ⟨b0, b1, b2, b3, hbytes, hvalue⟩ := le32_value address
  have hbody : frameBody opcode address extra payload = [0x49#8, opcode, b0, b1, b2, b3] ++ extra ++ payload := by
    rw [frameBody, hbytes]; rfl
  refine ⟨b0, b1, b2, b3, sum8 (frameBody opcode address extra payload), _, rfl, hvalue, ?sum, ?state⟩
  case sum =>
    rw [sum8_toNat, hbody]
    simp [Nat.add_assoc]
  case state => rw [commandFrame, appendSum8, ← hbody]; rfl

/-- The sync pattern is 18 and FF by turns (R123). -/
theorem hsPattern_getElem? {k : Nat} (hk : k < 20) : Config.hsPattern[k]? = some (if k % 2 = 0 then 0x18#8 else 0xFF#8) := by
  revert k; decide

/-- Settles O15: each operation moves the return port and nothing else, and a detector is a comparison with one literal. -/
theorem patternAndDetectorsReturnTheirValue : Obligations.PatternAndDetectorsReturnTheirValue := by
  refine ⟨fun s => ?pattern, fun b s => ?sync, fun b s => ?hsAck, fun b s => ?ack, rfl, fun b => ⟨rfl, rfl, rfl⟩⟩
  case pattern => exact ⟨Config.hsPattern, rfl, rfl, fun _ => hsPattern_getElem?⟩
  case sync | hsAck | ack => rfl

end Sys2Proof.Machine
end

