-- ==== Sys2Proof/Proofs/Exchanges.lean ====
section
/-! PROOFS. An exchange called alone whose answer does not do (60_exceptions.md R217, R218): the events before the read run whatever
the device will answer, and the read then ends the operation with a record of what came. -/

namespace Sys2Proof.Machine

/-! ### Events that read nothing run whatever the device answers -/

/-- One acceptable answer of each shape (30_encoding.md R79 to R83). -/
def plainAnswer : RxShape → List Byte
  | .hsAck => [Config.hsAck]
  | .ack => [Config.ack]
  | .banner => List.replicate 11 0#8
  | .resp9 => appendSum8 (Config.sync :: List.replicate 7 0#8)
  | .resp10 => appendSum8 [Config.sync, 0#8, 0#8, 0#8, 0#8, 0#8, 0x01#8, 0#8, 0#8]

theorem plainAnswer_good : goodAnswers plainAnswer := by
  intro sh
  cases sh <;> decide

/-- The events of a list name their data and read nothing. -/
def Silent (es : List Ev) : Prop := ∀ e ∈ es, e.direct = true ∧ e.isRecv = false

theorem Silent.head {e : Ev} {es : List Ev} (h : Silent (e :: es)) : e.isRecv = false := (h e List.mem_cons_self).2

theorem Silent.tail {e : Ev} {es : List Ev} (h : Silent (e :: es)) : Silent es := fun x hx => h x (List.mem_cons_of_mem _ hx)

/-- Without a read the environment's turns do not depend on the answers. -/
theorem scriptOf_silent {es : List Ev} (h : Silent es) (ans ans' : RxShape → List Byte) : scriptOf ans es = scriptOf ans' es := by
  refine List.flatMap_congr fun e he => ?_
  have hrecv := (h e he).2
  cases e with
  | recv sh => cases hrecv
  | setReset _ | wait _ | discard | send _ | sendShim _ | sendPage _ _ _ => rfl

theorem answered_silent {e : Ev} (h : e.isRecv = false) (ans ans' : RxShape → List Byte) (s : State) :
    answered ans e s = answered ans' e s := by
  cases e with
  | recv sh => cases h
  | setReset _ | wait _ | discard | send _ | sendShim _ | sendPage _ _ _ => rfl

theorem answeredAll_silent {es : List Ev} (h : Silent es) (ans ans' : RxShape → List Byte) (k : Nat) (s : State) :
    answeredAll ans k es s = answeredAll ans' k es s := by
  induction es generalizing k s with
  | nil => rfl
  | cons e es ih => rw [answeredAll, answeredAll, answered_silent h.head ans ans', ih h.tail]

/-- `runEvents_answered_silent` for answers that need not be acceptable: no event asks for one. -/
theorem runEvents_silent_any (c : Ctx) (ans : RxShape → List Byte) (k : Nat) {es : List Ev} {s : State} {r : List Turn}
    (h : Silent es) (hopen : s.link.tOpen = true) (hscript : s.env.script = scriptOf ans es ++ r) :
    runEvents c k es s = .ok (answeredAll ans k es s) := by
  rw [scriptOf_silent h ans plainAnswer] at hscript
  rw [answeredAll_silent h ans plainAnswer]
  exact runEvents_answered_silent c plainAnswer_good k h hopen hscript

theorem answeredAll_append (ans : RxShape → List Byte) (k : Nat) (es fs : List Ev) (s : State) :
    answeredAll ans (k + es.length) fs (answeredAll ans k es s) = answeredAll ans k (es ++ fs) s := by
  induction es generalizing k s with
  | nil => rfl
  | cons e es ih => rw [answeredAll, List.cons_append, answeredAll, ← ih, List.length_cons, Nat.add_right_comm, Nat.add_assoc]

/-! ### A read whose answer does not do (40_transport.md R107, 60_exceptions.md R217, R218) -/

/-- How a read fails on the bytes that came: in full and rejected, or too few. -/
def RxShape.failKind (sh : RxShape) (r : List Byte) : ErrKind := if r.length = sh.count then .protocol else .timeout

theorem errIndex_failKind (sh : RxShape) (r : List Byte) (c : Ctx) (raw : List Byte) (s : State) :
    errIndex { kind := sh.failKind r, ctx := c, raw := raw } s = s.pos.idx := by
  unfold RxShape.failKind
  split
  · rfl
  · rfl

/-- The trace event of such a read. -/
def RxShape.failEvent (sh : RxShape) (tRead : Nat) (r : List Byte) : TraceEvent :=
  if r.length = sh.count then .readOk sh.count tRead r else .readTimeout sh.count tRead r

/-- The working registers after it: only a response read in full is tested (41_framecodec.md R120). -/
def RxShape.failRegs (sh : RxShape) (r : List Byte) (w : WorkRegs) : WorkRegs := if r.length = sh.count then sh.regs r w else w

/-- The bytes that came are not an acceptable response: too few, or rejected. -/
def RxShape.Fails (sh : RxShape) (r : List Byte) : Prop := r.length < sh.count ∨ r.length = sh.count ∧ sh.accepts r = false

theorem RxShape.Fails.fits {sh : RxShape} {r : List Byte} (h : sh.Fails r) : r.length ≤ 11 :=
  (h.elim Nat.le_of_lt fun h => Nat.le_of_eq h.1).trans sh.count_le

/-- The state a failed read leaves, with the environment it leaves. -/
def readFailed (sh : RxShape) (r : List Byte) (env : Env) (s : State) : State :=
  { s with
    env := env
    link := { s.link with rxq := [] }
    wrk := sh.failRegs r s.wrk
    rx := { rxb := r, rxn := BitVec.ofNat 4 r.length }
    trace := s.trace ++ [sh.failEvent s.cfg.tRead.toNat r] }

/-- When the device has said its last word, a `Read` that wants more ends with what there is. -/
theorem readVerdict_starved {n t : Nat} {s : State} (hsilent : (envTurn s).env.script = [])
    (hfew : (envTurn s).link.rxq.length < n) :
    (readVerdict n t s).2 = false ∧ (readVerdict n t s).1.link.rxq = (envTurn s).link.rxq := by
  obtain ⟨-, htrue, -⟩ := readVerdict_spec n t s
  obtain ⟨used, hused, hqueue⟩ := (poll_move n t (envTurn s).env.now (t + 1) (envTurn s)).delivered
  obtain ⟨rfl, -⟩ : used = [] ∧ _ := List.append_eq_nil_iff.mp (hused.symm.trans hsilent)
  have hsame : (readVerdict n t s).1.link.rxq = (envTurn s).link.rxq := by
    simpa [readVerdict] using hqueue
  refine ⟨Bool.eq_false_iff.mpr fun hv => ?_, hsame⟩
  have henough := htrue hv
  rw [hsame] at henough
  omega

/-- A read that fails on the bytes the event's turn brought, with silence after them. -/
theorem opRecv_fails (c : Ctx) {sh : RxShape} {r : List Byte} {s : State} (hopen : s.link.tOpen = true)
    (hqueue : (envTurn s).link.rxq = r) (hsilent : (envTurn s).env.script = []) (hfails : sh.Fails r) :
    ∃ env, opRecv c sh s = .err { kind := sh.failKind r, ctx := c, raw := r } (readFailed sh r env s) := by
  have hfits := hfails.fits
  rcases hfails with hshort | ⟨hlen, hrejected⟩
  case inl =>
    have hne : r.length ≠ sh.count := Nat.ne_of_lt hshort
    obtain ⟨hverdict, hsame⟩ := readVerdict_starved (t := s.cfg.tRead.toNat) hsilent (hqueue ▸ hshort)
    have hmove := (readVerdict_spec sh.count s.cfg.tRead.toNat s).1
    refine ⟨(readVerdict sh.count s.cfg.tRead.toNat s).1.env, ?_⟩
    simp only [opRecv, opRead, requireOpen_open hopen, hverdict, readPartial, hsame, hqueue, rxBuffer_fits hfits,
      readFailed, RxShape.failKind, RxShape.failEvent, RxShape.failRegs, hne, if_false]
    rw [hmove.same]
    rfl
  case inr =>
    have hmove := envTurn_move s
    refine ⟨(envTurn s).env, ?_⟩
    have htake : r.take sh.count = r := by rw [← hlen, List.take_length]
    have hdrop : r.drop sh.count = [] := by rw [← hlen, List.drop_length]
    simp only [opRecv, opRead_ready c _ hopen (Nat.le_of_eq ((congrArg _ hqueue).trans hlen).symm), readTaken, hqueue, htake,
      hdrop, hrejected, rxBuffer_fits hfits, readFailed, RxShape.failKind, RxShape.failEvent, RxShape.failRegs, hlen, if_true]
    rw [hmove.same]
    rfl

/-! ### The exchange -/

/-- What the device has left to say when the block reads: the bytes `r` in one turn, or nothing. -/
def LastWord (turns : List Turn) (r : List Byte) : Prop := turns = [{ elapse := 0, arrive := r }] ∨ turns = [] ∧ r = []

theorem LastWord.arrives {turns : List Turn} {r : List Byte} {s : State} (h : LastWord turns r) (hopen : s.link.tOpen = true)
    (hq : s.link.rxq = []) (hscript : s.env.script = turns) :
    (envTurn s).link.rxq = r ∧ (envTurn s).env.script = [] := by
  rcases h with rfl | ⟨rfl, rfl⟩
  case inl => simp [envTurn_cons hscript, applyTurn, hopen, hq]
  case inr => rw [envTurn_silent hscript]; exact ⟨hq, hscript⟩

/-- `t` is where an operation that began at `s` ends outside a run when, after the events `pre`, the read fails on `r`: the error is
recorded at the read's index, and the transport stays as it is (log 6). -/
structure ExchangeFailed (c : Ctx) (pre : List Ev) (sh : RxShape) (r : List Byte) (s t : State) : Prop where
  pos : t.pos = { st := .failed, ph := BitVec.ofNat 4 pre.length, idx := s.pos.idx }
  err : t.err =
    { kind := sh.failKind r, step := c.step, op := c.op, addr := if c.addressed then t.wrk.addr else 0#32,
      idx := s.pos.idx, rawn := BitVec.ofNat 4 r.length, raw := r }
  rx : t.rx = { rxb := r, rxn := BitVec.ofNat 4 r.length }
  link : t.link = { pre.foldl (fun l e => evLink e l) s.link with rxq := [] }
  wrk : t.wrk = sh.failRegs r (pre.foldl (fun w e => evWrk (fun _ => r) e w) s.wrk)
  trace : t.trace = s.trace ++ traceOf (fun _ => r) s.cfg.tRead.toNat pre ++ [sh.failEvent s.cfg.tRead.toNat r]
  run : t.run = s.run
  ret : t.ret = s.ret
  inputs : sameInputs s t

/-- An operation whose read fails takes the error, and what its list has after the read does not happen (60_exceptions.md R226). -/
theorem exchange_fails (c : Ctx) {pre es : List Ev} {sh : RxShape} {r : List Byte} {turns : List Turn} {s : State}
    (f : State → State) (hopen : s.link.tOpen = true) (hidle : s.busy = false) (hpre : Silent pre)
    (hq : (pre.foldl (fun l e => evLink e l) s.link).rxq = []) (hlast : LastWord turns r)
    (hscript : s.env.script = scriptOf (fun _ => r) pre ++ turns) (hfails : sh.Fails r) :
    ∃ t, ((runEvents c 0 (pre ++ .recv sh :: es) s).map f).settle = .next t ∧ ExchangeFailed c pre sh r s t := by
  obtain ⟨htrace, henv, hlink, hwrk, hrx, hcfg, hrun, herr, himg, hshm, hhost, hret, p, hpos⟩ :=
    answeredAll_fields (fun _ => r) 0 pre s
  have hbefore := runEvents_silent_any c (fun _ => r) 0 hpre hopen hscript
  generalize answeredAll (fun _ => r) 0 pre s = u at *
  have hscript' : u.env.script = turns := by simp [henv, hscript]
  have hopen' : u.link.tOpen = true := by rw [hlink, foldl_evLink_tOpen, hopen]
  obtain ⟨hqueue, hsilent⟩ :=
    hlast.arrives (s := setPh (0 + pre.length) u) hopen' ((congrArg Link.rxq hlink).trans hq) hscript'
  obtain ⟨env, hrecv⟩ := opRecv_fails c (s := setPh (0 + pre.length) u) hopen' hqueue hsilent hfails
  have hidle' : (readFailed sh r env (setPh (0 + pre.length) u)).busy = false :=
    (congrArg Option.isSome hrun).trans hidle
  have hsettle : ((runEvents c 0 (pre ++ .recv sh :: es) s).map f).settle =
      .next (recordError { kind := sh.failKind r, ctx := c, raw := r } (readFailed sh r env (setPh (0 + pre.length) u))) := by
    rw [runEvents_append, hbefore, andThen_ok, runEvents_cons, runEv, hrecv, andThen_err, map_err, settle_err,
      enterFailed_idle _ hidle']
  have hidx : u.pos.idx = s.pos.idx := by rw [hpos]
  refine ⟨_, hsettle, ?pos, ?err, rfl, ?link, ?wrk, ?trace, hrun, hret, hcfg, himg, hshm, hhost⟩
  case pos => simp [readFailed, hidx]
  case err =>
    rw [recordError_err, errIndex_failKind, clip_fits hfails.fits]
    simp [readFailed, errAddress, hidx]
  case link => simp [readFailed, hlink]
  case wrk => simp [readFailed, hwrk]
  case trace => simp [readFailed, htrace, hcfg]

end Sys2Proof.Machine
end

