-- ==== Sys2Proof/Proofs/Handshake.lean ====
section
/-! PROOFS. The operations of 42_handshake.md called alone: the reset pulse in any environment (R141, R142), and the handshake
answered by 11, by another byte, and by nothing (R140). -/

namespace Sys2Proof.Machine

/-! ### The six events of the reset pulse (42_handshake.md R141) -/

theorem resetPulseEvents_silent (c : ConfigRegs) : Silent (resetPulseEvents c) := by
  simp [Silent, resetPulseEvents, Ev.direct, Ev.isRecv]

theorem resetPulseEvents_trace (ans : RxShape → List Byte) (tRead : Nat) (c : ConfigRegs) :
    traceOf ans tRead (resetPulseEvents c) = [.setReset true, .waited c.tAssert.toNat, .discarded]
      ++ Config.hsPattern.map .tx ++ [.setReset false, .waited c.tSettle.toNat] := rfl

theorem resetPulseEvents_time (c : ConfigRegs) : ((resetPulseEvents c).map evTime).sum = c.tAssert.toNat + c.tSettle.toNat := by
  simp [resetPulseEvents, evTime]

/-- The link after the pulse: deasserted, and emptied by its `Discard`. -/
theorem resetPulseEvents_link (c : ConfigRegs) (l : Link) :
    (resetPulseEvents c).foldl (fun l e => evLink e l) l = { l with rxq := [], txq := [], rst := .deasserted } := rfl

theorem resetPulseEvents_wrk (ans : RxShape → List Byte) (c : ConfigRegs) (w : WorkRegs) :
    (resetPulseEvents c).foldl (fun w e => evWrk ans e w) w = w := rfl

theorem resetPulseEvents_rx (ans : RxShape → List Byte) (c : ConfigRegs) (b : RxBuffer) :
    (resetPulseEvents c).foldl (fun b e => evRx ans e b) b = b := rfl

/-- Where the pulse leads `ST`: from the state its step starts in, which is another one in a listen run
(45_orchestrator.md R202). -/
theorem advancePulse_pos (s : State) : (advancePulse s).pos =
    { st := if s.run = some .listen then (if s.pos.st = .initialized then .reset else s.pos.st)
        else if s.pos.st = .programmed then .reset else s.pos.st
      ph := 0#4, idx := 0#32 } := by
  unfold advancePulse
  split
  · rfl
  · rfl

@[simp] theorem advancePulse_wrk (s : State) : (advancePulse s).wrk = s.wrk := by
  unfold advancePulse
  split
  · rfl
  · rfl

/-- Settles O33: the six events read nothing, so `runEvents_silent` runs them in any environment. -/
theorem resetPulseCannotFail : Obligations.ResetPulseCannotFail := by
  intro s hopen
  obtain ⟨t, p, hrun, hsilent⟩ := runEvents_silent ctxResetPulse 0 (s := restart s) (resetPulseEvents_silent s.cfg) hopen
  have hmove := hsilent.move
  have hlink := hsilent.link
  rw [resetPulseEvents_link] at hlink
  have hexec : exec .resetPulse s = .next (advancePulse t) := by
    rw [exec, execResetPulse, hrun, map_ok, settle_ok]
  refine ⟨_, hexec, ?trace, ?time, ?_⟩
  case trace =>
    rw [advancePulse_trace, hsilent.trace, resetPulseEvents_trace]
    simp only [List.append_assoc]
    rfl
  case time =>
    have htime := hsilent.time
    rw [resetPulseEvents_time] at htime
    rwa [advancePulse_env, Nat.add_assoc]
  rw [advancePulse_link, advancePulse_run, advancePulse_wrk, advancePulse_err, advancePulse_rx, advancePulse_ret,
    advancePulse_pos, hlink, hmove.run, hmove.pos]
  exact ⟨hopen, rfl, rfl, rfl, rfl, hsilent.wrk, hmove.err, hsilent.rx, hmove.ret,
    hmove.opMove.inputs.trans (advancePulse_opMove t).inputs, rfl, rfl, rfl⟩

/-! ### The handshake (42_handshake.md R140) -/

/-- The one acceptable answer to the pattern (30_encoding.md R79). -/
theorem goodAnswers.hsAck {ans : RxShape → List Byte} (h : goodAnswers ans) : ans .hsAck = [0x11#8] := by
  obtain ⟨hlen, hacc⟩ := h .hsAck
  obtain ⟨b, hb⟩ := List.length_eq_one_iff.mp hlen
  rw [hb] at hacc ⊢
  simpa [RxShape.accepts, hsAckByte, Config.hsAck] using hacc

/-- Settles O34: the pulse's `Discard` empties `RXQ`, so what stood there before is not taken for the answer. -/
theorem handshakeCompletes : Obligations.HandshakeCompletes := by
  intro s ans rest hopen hgood hscript
  have hrun := runEvents_answered_after ctxHandshake hgood 0 (s := restart s) (pre := resetPulseEvents s.cfg)
    (es := [.recv .hsAck, .discard]) (r := rest) (resetPulseEvents_silent s.cfg) (by simp [Ev.direct]) hopen rfl hscript
  rw [answeredAll_append] at hrun
  obtain ⟨htrace, henv, hlink, hwrk, hrx, hcfg, hsame, herr, himg, hshm, hhost, hret, p, hpos⟩ :=
    answeredAll_fields ans 0 (handshakeEvents s.cfg) (restart s)
  have hexec : exec .handshake s =
      .next (advance .initialized .synced (answeredAll ans 0 (handshakeEvents s.cfg) (restart s))) := by
    rw [exec, execHandshake, handshakeEvents, hrun, map_ok, settle_ok]
  refine ⟨_, hexec, ?trace, hlink, ?script, ?rx, hsame, hwrk, herr, hret, ⟨hcfg, himg, hshm, hhost⟩, ?pos⟩
  case trace =>
    rw [advance_trace, htrace, handshakeEvents, traceOf_append, resetPulseEvents_trace]
    simp [traceOf, evTrace, hgood.hsAck, RxShape.count, Config.hsPattern]
  case script => simp [henv, hscript]
  case rx =>
    rw [advance_rx, hrx, handshakeEvents, List.foldl_append, resetPulseEvents_rx]
    simp [evRx, hgood.hsAck, RxShape.count]
  case pos => simp [hpos]

/-- The record of a handshake whose answer was `raw` (60_exceptions.md R217, R218), taken outside a run (log 6). -/
def HandshakeFailed (s : State) (kind : ErrKind) (raw : List Byte) (t : State) : Prop :=
  t.pos = { st := .failed, ph := 6#4, idx := 0#32 } ∧
  t.err =
    { kind := kind, step := 0x20#8, op := 0x20#8, addr := 0#32, idx := 0#32, rawn := BitVec.ofNat 4 raw.length, raw := raw } ∧
  t.rx = { rxb := raw, rxn := BitVec.ofNat 4 raw.length } ∧
  t.link = { s.link with rxq := [], txq := [], rst := .deasserted } ∧ t.run = s.run ∧ t.wrk = s.wrk ∧ t.ret = s.ret ∧
  sameInputs s t

/-- Event 6 fails on what came, so event 7, the last `Discard`, is not performed. -/
theorem execHandshake_fails {s : State} {r : List Byte} {turns : List Turn} (hopen : s.link.tOpen = true)
    (hidle : s.busy = false) (hlast : LastWord turns r) (hfails : RxShape.hsAck.Fails r)
    (hscript : s.env.script = scriptOf (fun _ => r) (resetPulseEvents s.cfg) ++ turns) :
    ∃ t, exec .handshake s = .next t ∧ HandshakeFailed s (RxShape.hsAck.failKind r) r t ∧
      t.trace = s.trace ++ traceOf (fun _ => r) s.cfg.tRead.toNat (resetPulseEvents s.cfg)
        ++ [RxShape.hsAck.failEvent s.cfg.tRead.toNat r] := by
  obtain ⟨t, hrun, hfailed⟩ := exchange_fails ctxHandshake (es := [.discard]) (s := restart s) (advance .initialized .synced)
    hopen hidle (resetPulseEvents_silent s.cfg) rfl hlast hscript hfails
  have hregs (w : WorkRegs) : RxShape.hsAck.failRegs r w = w := ite_self w
  refine ⟨t, ?exec, ⟨hfailed.pos, hfailed.err, hfailed.rx, hfailed.link, hfailed.run, ?wrk, hfailed.ret, hfailed.inputs⟩,
    hfailed.trace⟩
  case exec => exact hrun
  case wrk => rw [hfailed.wrk, hregs, resetPulseEvents_wrk]; rfl

/-- Settles O35: `execHandshake_fails` for one wrong byte and for none. -/
theorem handshakeFailsWithoutTheAck : Obligations.HandshakeFailsWithoutTheAck := by
  intro s b hopen hidle
  refine ⟨fun hwrong hscript => ?wrongByte, fun hscript => ?silence⟩
  case wrongByte =>
    have hrejected : RxShape.hsAck.accepts [b] = false := by simpa [RxShape.accepts, hsAckByte, Config.hsAck] using hwrong
    rw [scriptOf_append] at hscript
    obtain ⟨t, hexec, hfailed, htrace⟩ := execHandshake_fails hopen hidle (.inl rfl) (.inr ⟨rfl, hrejected⟩) hscript
    refine ⟨t, hexec, hfailed, htrace.trans ?_⟩
    rw [traceOf_append, ← List.append_assoc]
    rfl
  case silence =>
    exact execHandshake_fails hopen hidle (.inr ⟨rfl, rfl⟩) (.inl Nat.one_pos) (hscript.trans (List.append_nil _).symm)

end Sys2Proof.Machine
end

