-- ==== Sys2Proof/Proofs/ShimLoader.lean ====
section
/-! PROOFS. The operations of 43_shimloader.md called alone, every request answered: the three exchanges (R152 to R154) and
`loadAndRun`, their events in one list (R150). -/

namespace Sys2Proof.Machine

/-! ### An operation whose requests are all answered -/

/-- `t` is where the events `es`, begun at `s`, lead when every request gets its answer and `rest` of the environment's turns is
left. The position is not among it: each operation sets its own at its end. -/
structure EventsAnswered (ans : RxShape → List Byte) (es : List Ev) (rest : List Turn) (s t : State) : Prop where
  trace : t.trace = s.trace ++ traceOf ans s.cfg.tRead.toNat es
  script : t.env.script = rest
  link : t.link = es.foldl (fun l e => evLink e l) s.link
  wrk : t.wrk = es.foldl (fun w e => evWrk ans e w) s.wrk
  rx : t.rx = es.foldl (fun b e => evRx ans e b) s.rx
  run : t.run = s.run
  err : t.err = s.err
  ret : t.ret = s.ret
  inputs : sameInputs s t

theorem answeredAll_answered (ans : RxShape → List Byte) (k : Nat) {es : List Ev} {rest : List Turn} {s : State}
    (hscript : s.env.script = scriptOf ans es ++ rest) :
    EventsAnswered ans es rest s (answeredAll ans k es (restart s)) := by
  obtain ⟨htrace, henv, hlink, hwrk, hrx, hcfg, hrun, herr, himg, hshm, hhost, hret, -⟩ :=
    answeredAll_fields ans k es (restart s)
  have hrest : (answeredAll ans k es (restart s)).env.script = rest := by simp [henv, hscript]
  exact ⟨htrace, hrest, hlink, hwrk, hrx, hrun, herr, hret, hcfg, himg, hshm, hhost⟩

/-- No event moves `ST`; the end of an operation may. -/
theorem answeredAll_st (ans : RxShape → List Byte) (k : Nat) (es : List Ev) (s : State) :
    (answeredAll ans k es s).pos.st = s.pos.st := by
  obtain ⟨-, -, -, -, -, -, -, -, -, -, -, -, p, hpos⟩ := answeredAll_fields ans k es s
  rw [hpos]

section
variable {ans : RxShape → List Byte} {es : List Ev} {rest : List Turn} {s t : State}

theorem EventsAnswered.restart (h : EventsAnswered ans es rest s t) : EventsAnswered ans es rest s (restart t) := { h with }

theorem EventsAnswered.advance (h : EventsAnswered ans es rest s t) (before after : SeqState) :
    EventsAnswered ans es rest s (advance before after t) := { h with }

/-- The context is what a failure records, and answered events do not fail. -/
theorem runEvents_answered_ctx (c d : Ctx) (hgood : goodAnswers ans) (k : Nat) (hdirect : ∀ e ∈ es, e.direct = true)
    (hopen : s.link.tOpen = true) (hempty : s.link.rxq = []) (hscript : s.env.script = scriptOf ans es ++ rest) :
    runEvents c k es s = runEvents d k es s :=
  (runEvents_answered c hgood k hdirect hopen hempty hscript).trans
    (runEvents_answered d hgood k hdirect hopen hempty hscript).symm

/-- An operation called alone that returns to `PH` 0 and `IDX` 0 (log 5), with nothing queued when it begins. -/
theorem operation_answered (c : Ctx) (hgood : goodAnswers ans) (k : Nat) (hdirect : ∀ e ∈ es, e.direct = true)
    (hopen : s.link.tOpen = true) (hempty : s.link.rxq = []) (hscript : s.env.script = scriptOf ans es ++ rest) :
    ∃ t, ((runEvents c k es (restart s)).map restart).settle = .next t ∧ EventsAnswered ans es rest s t ∧
      t.pos = { s.pos with ph := 0#4, idx := 0#32 } := by
  have hrun := runEvents_answered c hgood k (s := restart s) hdirect hopen hempty hscript
  refine ⟨_, by rw [hrun, map_ok, settle_ok], (answeredAll_answered ans k hscript).restart, ?_⟩
  simp [answeredAll_st]

end

/-! ### The events of the loader -/

/-- The loader performs no `Discard` (43_shimloader.md R150): that both queues are empty at its end rests on `RXQ` being so at its start. -/
theorem Link.idle_of_rxq {l : Link} (h : l.rxq = []) : { l with txq := [] } = { l with rxq := [], txq := [] } := by rw [← h]

/-- The one acceptable answer to RAM_INIT and to SHIM_DATA (30_encoding.md R80). -/
theorem goodAnswers.ack {ans : RxShape → List Byte} (h : goodAnswers ans) : ans .ack = [0x01#8] := by
  obtain ⟨hlen, hacc⟩ := h .ack
  obtain ⟨b, hb⟩ := List.length_eq_one_iff.mp hlen
  rw [hb] at hacc ⊢
  simpa [RxShape.accepts, ackByte, Config.ack] using hacc

theorem ramInitEvents_direct (base : Word) (len : Half) : ∀ e ∈ ramInitEvents base len, e.direct = true := by
  simp [ramInitEvents, Ev.direct]

theorem shimDataEvents_direct (shim : List Byte) : ∀ e ∈ shimDataEvents shim, e.direct = true := by
  simp [shimDataEvents, Ev.direct]

theorem jumpEvents_direct : ∀ e ∈ jumpEvents, e.direct = true := by simp [jumpEvents, Ev.direct]

theorem loadEvents_direct (shim : List Byte) (base : Word) : ∀ e ∈ loadEvents shim base, e.direct = true :=
  List.forall_mem_append.mpr ⟨List.forall_mem_append.mpr ⟨ramInitEvents_direct base _, shimDataEvents_direct shim⟩,
    jumpEvents_direct⟩

/-- An acknowledgement leaves its one byte in `RXB`. -/
theorem evRx_ack {ans : RxShape → List Byte} (h : goodAnswers ans) (b : RxBuffer) :
    evRx ans (.recv .ack) b = { rxb := [0x01#8], rxn := 1#4 } := by
  simp [evRx, h.ack, RxShape.count]

/-- Settles O36: each exchange is its list of two events, answered; `operation_answered` runs it. -/
theorem shimExchangesComplete : Obligations.ShimExchangesComplete := by
  intro s ans rest hopen hempty hgood
  have hidle := Link.idle_of_rxq hempty
  refine ⟨fun base len hscript => ?ramInit, fun shim hlen hscript => ?shimData, fun hscript => ?jump⟩
  case ramInit =>
    obtain ⟨t, hexec, h, hpos⟩ :=
      operation_answered ctxRamInit hgood 0 (ramInitEvents_direct base len) hopen hempty hscript
    refine ⟨t, hexec, ⟨h.trace, h.script, h.link.trans hidle, h.run, h.err, h.ret, h.inputs, hpos⟩,
      h.rx.trans (evRx_ack hgood s.rx), h.wrk.trans ?_⟩
    simp [ramInitEvents, evWrk, RxShape.regs, TxMsg.regs, frameRegs, frameBody, Config.opRamInit, Config.sync]
  case shimData =>
    obtain ⟨t, hrun, h, hpos⟩ :=
      operation_answered ctxShimData hgood 2 (shimDataEvents_direct shim) hopen hempty hscript
    exact ⟨t, (if_pos hlen).trans hrun, ⟨h.trace, h.script, h.link.trans hidle, h.run, h.err, h.ret, h.inputs, hpos⟩,
      h.rx.trans (evRx_ack hgood s.rx), h.wrk⟩
  case jump =>
    obtain ⟨t, hexec, h, hpos⟩ := operation_answered ctxJump hgood 4 jumpEvents_direct hopen hempty hscript
    exact ⟨t, hexec, ⟨h.trace, h.script, h.link.trans hidle, h.run, h.err, h.ret, h.inputs, hpos⟩, h.rx, h.wrk⟩

/-! ### `loadAndRun` (43_shimloader.md R150) -/

/-- The three exchanges, each with its own context, are the one list `loadEvents` when every request is answered. -/
theorem execLoadAndRun_answered {s : State} {ans : RxShape → List Byte} {rest : List Turn} {shim : List Byte} {base : Word}
    (hopen : s.link.tOpen = true) (hempty : s.link.rxq = []) (hgood : goodAnswers ans) (hlen : shim.length ≤ 65535)
    (hscript : s.env.script = scriptOf ans (loadEvents shim base) ++ rest) :
    execLoadAndRun shim base s =
      .next (advance .synced .shimActive (answeredAll ans 0 (loadEvents shim base) (restart s))) := by
  have hdirect := loadEvents_direct shim base
  have hrun := runEvents_answered ctxJump hgood 0 (s := restart s) hdirect hopen hempty hscript
  unfold loadEvents at hdirect hscript hrun ⊢
  obtain ⟨hfirstTwo, -⟩ := List.forall_mem_append.mp hdirect
  obtain ⟨hfirst, -⟩ := List.forall_mem_append.mp hfirstTwo
  rw [scriptOf_append, List.append_assoc] at hscript
  have hctxTwo := runEvents_answered_ctx ctxShimData ctxJump hgood 0 (s := restart s) hfirstTwo hopen hempty hscript
  rw [scriptOf_append, List.append_assoc] at hscript
  have hctxOne := runEvents_answered_ctx ctxRamInit ctxShimData hgood 0 (s := restart s) hfirst hopen hempty hscript
  rw [runEvents_append, ← hctxTwo, runEvents_append, ← hctxOne] at hrun
  rw [execLoadAndRun, if_pos hlen]
  exact congrArg (fun r => (r.map (advance .synced .shimActive)).settle) hrun

/-- Settles O37: `loadAndRun` performs `loadEvents`, so its trace is theirs and its registers are what they leave. -/
theorem loadAndRunCompletes : Obligations.LoadAndRunCompletes := by
  intro s ans rest shim base hopen hempty hgood hlen hscript
  have h := (answeredAll_answered ans 0 hscript).advance .synced .shimActive
  refine ⟨_, execLoadAndRun_answered hopen hempty hgood hlen hscript, ?trace, h.script,
    h.link.trans (Link.idle_of_rxq hempty), h.run, h.err, h.ret, h.inputs, h.wrk, ?pos⟩
  case trace =>
    rw [h.trace]
    simp [loadEvents, ramInitEvents, shimDataEvents, jumpEvents, traceOf, evTrace, hgood.ack, RxShape.count, TxMsg.bytes,
      commandFrame, appendSum8, frameBody, Config.sync, Config.opRamInit, Config.jumpCmd]
  case pos => simp [answeredAll_st]

end Sys2Proof.Machine
end

