-- ==== Sys2Proof/Proofs/Partition.lean ====
section
/-! PROOFS. The partition of the image into pages (44_flashprogrammer.md R169). -/

namespace Sys2Proof.Machine

/-- A page has a number when a byte of the image stands at or after its first offset. -/
theorem lt_pageCount_iff {L p : Nat} (hp : 1 ≤ p) (i : Nat) : i < pageCount L p ↔ p * i < L := by
  rw [pageCount, Nat.lt_iff_add_one_le, Nat.le_div_iff_mul_le hp, Nat.add_one_mul, Nat.mul_comm]
  omega

section
variable {L p : Nat} (hp : 1 ≤ p)
include hp

theorem le_mul_pageCount : L ≤ p * pageCount L p :=
  Nat.le_of_not_lt (mt (lt_pageCount_iff hp _).mpr (Nat.lt_irrefl _))

theorem mul_pred_pageCount_lt (hn : pageCount L p ≠ 0) : p * (pageCount L p - 1) < L :=
  (lt_pageCount_iff hp _).mp (Nat.sub_one_lt hn)

/-- The last page is a whole one exactly when the pages fit the image. -/
theorem lastPage_whole_iff (hn : pageCount L p ≠ 0) : L - p * (pageCount L p - 1) = p ↔ p ∣ L ∧ 0 < L := by
  have hlast := mul_pred_pageCount_lt hp hn
  refine ⟨fun hwhole => ⟨?divides, Nat.zero_lt_of_lt hlast⟩, ?fits⟩
  case divides =>
    have hsum : L = p * (pageCount L p - 1) + p := by omega
    exact hsum ▸ (Nat.dvd_mul_right ..).add (Nat.dvd_refl p)
  case fits =>
    rintro ⟨⟨k, rfl⟩, -⟩
    have hlow : pageCount (p * k) p - 1 < k := Nat.lt_of_mul_lt_mul_left hlast
    have hhigh : k ≤ pageCount (p * k) p := Nat.le_of_mul_le_mul_left (le_mul_pageCount hp) hp
    have hone : k - (pageCount (p * k) p - 1) = 1 := by omega
    rw [← Nat.mul_sub, hone, Nat.mul_one]

end

/-- The length of page `i` (R169): `p`, but for the last page what is left. -/
def partLen (L p i : Nat) : Nat := if i + 1 < pageCount L p then p else L - p * (pageCount L p - 1)

/-- No page is longer than what is left of the image at its offset, and only the last is as long. -/
theorem partLen_eq_min {L p i : Nat} (hp : 1 ≤ p) (hi : i < pageCount L p) : partLen L p i = min p (L - p * i) := by
  unfold partLen
  split
  case isTrue hnext =>
    have hfull := (lt_pageCount_iff hp _).mp hnext
    rw [Nat.mul_add_one] at hfull
    omega
  case isFalse hlast =>
    obtain hn : pageCount L p = i + 1 := by omega
    have hend := le_mul_pageCount (L := L) hp
    rw [hn, Nat.mul_add_one] at hend
    rw [hn, Nat.add_sub_cancel]
    omega

theorem pageData_length (bytes : List Byte) (p i : Nat) : (pageData bytes p i).length = min p (bytes.length - p * i) := by
  rw [pageData, List.length_take, List.length_drop]

/-- The first `n` pages are the first `p * n` bytes. -/
theorem flatten_pages (bytes : List Byte) (p n : Nat) :
    ((List.range n).map (pageData bytes p)).flatten = bytes.take (p * n) := by
  induction n with
  | zero => simp
  | succ n ih => simp [List.range_succ, ih, Nat.mul_add_one, List.take_add, pageData]

theorem flatten_pageData {bytes : List Byte} {p : Nat} (hp : 1 ≤ p) :
    ((List.range (pageCount bytes.length p)).map (pageData bytes p)).flatten = bytes := by
  rw [flatten_pages, List.take_of_length_le (le_mul_pageCount hp)]

/-- The address of a page of an image in range does not wrap. -/
theorem pageAddr_toNat {a : Word} {L p i : Nat} (hp : 1 ≤ p) (hrange : a.toNat + L ≤ 2 ^ 32) (hi : i < pageCount L p) :
    (pageAddr a p i).toNat = a.toNat + p * i := by
  have hoffset := (lt_pageCount_iff hp i).mp hi
  exact (BitVec.toNat_ofNat ..).trans (Nat.mod_eq_of_lt (by omega))

/-- Settles O42: by `lt_pageCount_iff` a page is one whose offset lies in the image. -/
theorem partitionCoversTheImage : Obligations.PartitionCoversTheImage := by
  intro bytes p a hp hrange n len
  have hlen (i : Nat) (hi : i < n) : len i = min p (bytes.length - p * i) := partLen_eq_min hp hi
  refine ⟨rfl, le_mul_pageCount hp, mul_pred_pageCount_lt hp, fun i hi => ?page, fun hn => ?lastPage, flatten_pageData hp⟩
  case page =>
    have hoffset := (lt_pageCount_iff hp i).mp hi
    rw [hlen i hi]
    refine ⟨?data, pageData_length bytes p i, by omega, Nat.min_le_left .., pageAddr_toNat hp hrange hi⟩
    case data => rw [pageData, List.take_eq_take_iff, List.length_drop, Nat.min_assoc, Nat.min_self]
  case lastPage =>
    have hlast : len (n - 1) = bytes.length - p * (n - 1) := if_neg (by omega)
    rw [hlast]
    exact lastPage_whole_iff hp hn

end Sys2Proof.Machine
end

