-- ==== Sys2Proof/Proofs/FlashProgrammer.lean ====
section
/-! PROOFS. The operations of 44_flashprogrammer.md called alone, every request answered: the three exchanges (R165 to R174), the
blank verdict (R175), and the two loops over the segments (R176) and the pages (R172). -/

namespace Sys2Proof.Machine

/-! ### The responses of the shim (44_flashprogrammer.md R175) -/

/-- Settles O23: `validFrame_iff` at length 10, and the two bytes that `validBlank` reads besides. -/
theorem blankVerdictIsTheFourTests : Obligations.BlankVerdictIsTheFourTests := by
  intro r0 r1 r2 r3 r4 r5 r6 r7 r8 r9
  have hframe : validFrame [r0, r1, r2, r3, r4, r5, r6, r7, r8, r9] 10 = true ↔
      r0 = 0x49#8 ∧ r9 = sum8 [r0, r1, r2, r3, r4, r5, r6, r7, r8] := by
    simp [validFrame_iff, Config.sync]
  simp [RxShape.accepts, validBlank, hframe, and_assoc]

/-- An accepted response leaves the sum of its bytes but the last in `CSUM` (41_framecodec.md R120, R124). -/
theorem validateCsum_of_validFrame {bytes : List Byte} {n : Nat} (h : validFrame bytes n = true) (w : WorkRegs) :
    validateCsum bytes n w = { w with csum := sum8 bytes.dropLast } :=
  if_pos (Bool.and_eq_true_iff.mp h).1

theorem goodAnswers.resp9_regs {ans : RxShape → List Byte} (h : goodAnswers ans) (w : WorkRegs) :
    RxShape.resp9.regs (ans .resp9) w = { w with csum := sum8 (ans .resp9).dropLast } :=
  validateCsum_of_validFrame (h .resp9).2 w

theorem goodAnswers.resp10_regs {ans : RxShape → List Byte} (h : goodAnswers ans) (w : WorkRegs) :
    RxShape.resp10.regs (ans .resp10) w = { w with csum := sum8 (ans .resp10).dropLast } := by
  have hblank : validBlank (ans .resp10) = true := (h .resp10).2
  simp only [validBlank, Bool.and_eq_true] at hblank
  obtain ⟨⟨hframe, -⟩, -⟩ := hblank
  exact validateCsum_of_validFrame hframe w

/-! ### One exchange (44_flashprogrammer.md R165) -/

/-- `Discard`, request, response: the event list of `chipErase`, `writePage` and `blankCheckSegment`. -/
def exchangeEvents (m : TxMsg) (sh : RxShape) : List Ev := [.discard, .send m, .recv sh]

theorem chipEraseEvents_eq : chipEraseEvents = exchangeEvents .chipErase .resp9 := rfl
theorem pageEvents_eq (a : Word) (data : List Byte) : pageEvents a data = exchangeEvents (.pageWrite a data) .resp9 := rfl
theorem segmentEvents_eq (a : Word) (l : Half) : segmentEvents a l = exchangeEvents (.blankCheck a l) .resp10 := rfl

section
variable {ans : RxShape → List Byte} {es : List Ev} {rest : List Turn} {m : TxMsg} {sh : RxShape} {s t : State}

theorem EventsAnswered.setPh (h : EventsAnswered ans es rest s t) (k : Nat) : EventsAnswered ans es rest s (setPh k t) :=
  { h with }

/-- The `Discard` makes the exchange independent of what was queued before it (R165). -/
theorem exchange_answered (c : Ctx) (hgood : goodAnswers ans) (hopen : s.link.tOpen = true)
    (hscript : s.env.script = scriptOf ans (exchangeEvents m sh) ++ rest) :
    ∃ t p, runEvents c 0 (exchangeEvents m sh) s = .ok t ∧ EventsAnswered ans (exchangeEvents m sh) rest s t ∧
      t.pos = { s.pos with ph := p } := by
  have hrun := runEvents_answered_after c hgood 0 (pre := [.discard]) (es := [.send m, .recv sh]) (r := rest)
    (by simp [Ev.direct, Ev.isRecv]) (by simp [Ev.direct]) hopen rfl hscript
  rw [answeredAll_append] at hrun
  obtain ⟨htrace, henv, hlink, hwrk, hrx, hcfg, hsame, herr, himg, hshm, hhost, hret, p, hpos⟩ :=
    answeredAll_fields ans 0 (exchangeEvents m sh) s
  have hrest : (answeredAll ans 0 (exchangeEvents m sh) s).env.script = rest := by simp [henv, hscript]
  exact ⟨_, p, hrun, ⟨htrace, hrest, hlink, hwrk, hrx, hsame, herr, hret, hcfg, himg, hshm, hhost⟩, hpos⟩

/-- What the exchange leaves, when the request and the response leave the registers `w`. -/
theorem EventsAnswered.exchange (h : EventsAnswered ans (exchangeEvents m sh) rest s t) (hgood : goodAnswers ans) {w : WorkRegs}
    (hregs : sh.regs (ans sh) (m.regs s.wrk) = w) :
    t.trace = s.trace ++ traceOf ans s.cfg.tRead.toNat (exchangeEvents m sh) ∧ t.env.script = rest ∧
    t.link = { s.link with rxq := [], txq := [] } ∧ t.rx = { rxb := ans sh, rxn := BitVec.ofNat 4 (ans sh).length } ∧
    t.wrk = w ∧ t.run = s.run ∧ t.err = s.err ∧ t.ret = s.ret ∧ sameInputs s t := by
  have hrx : t.rx = { rxb := ans sh, rxn := BitVec.ofNat 4 (ans sh).length } := by
    rw [(hgood sh).1]
    exact h.rx
  exact ⟨h.trace, h.script, h.link, hrx, h.wrk.trans hregs, h.run, h.err, h.ret, h.inputs⟩

end

/-- Settles O38: each operation is one exchange; `chipErase` alone begins at `IDX` 0 and moves `ST`. -/
theorem flashExchangesComplete : Obligations.FlashExchangesComplete := by
  intro s ans rest hopen hgood
  refine ⟨fun hscript => ?erase, fun a data hlen hscript => ?page, fun a l hscript => ?segment⟩
  case erase =>
    obtain ⟨t, p, hrun, h, hpos⟩ := exchange_answered ctxChipErase (s := restart s) hgood hopen hscript
    refine ⟨advance .shimActive .erased t, ?exec, (h.advance .shimActive .erased).exchange hgood (hgood.resp9_regs _), ?pos⟩
    case exec => rw [exec, execChipErase, chipEraseEvents_eq, hrun, map_ok, settle_ok]
    case pos => simp [hpos]
  case page =>
    obtain ⟨t, p, hrun, h, hpos⟩ := exchange_answered ctxPage hgood hopen hscript
    refine ⟨setPh 0 t, ?exec, (h.setPh 0).exchange hgood (hgood.resp9_regs _), ?pos⟩
    case exec => rw [exec, execWritePage, if_pos hlen, pageEvents_eq, hrun, map_ok, settle_ok]
    case pos => simp [hpos]
  case segment =>
    obtain ⟨t, p, hrun, h, hpos⟩ := exchange_answered ctxSegment hgood hopen hscript
    refine ⟨setPh 0 t, ?exec, (h.setPh 0).exchange hgood (hgood.resp10_regs _), ?pos⟩
    case exec => rw [exec, execBlankCheckSegment, segmentEvents_eq, hrun, map_ok, settle_ok]
    case pos => simp [hpos]

/-! ### A loop of exchanges (44_flashprogrammer.md R172, R176) -/

/-- `t` is where a loop begun at `s` stands once it has performed the events `es`, every request answered: nothing is queued, the
link is as it was, and `n` bytes have been taken off `REM`. -/
structure LoopAnswered (ans : RxShape → List Byte) (es : List Ev) (n : Nat) (rest : List Turn) (s t : State) : Prop where
  trace : t.trace = s.trace ++ traceOf ans s.cfg.tRead.toNat es
  script : t.env.script = rest
  link : t.link = s.link
  rem : t.wrk.rem = s.wrk.rem - BitVec.ofNat 32 n
  run : t.run = s.run
  err : t.err = s.err
  ret : t.ret = s.ret
  inputs : sameInputs s t
  st : t.pos.st = s.pos.st

section
variable {ans : RxShape → List Byte} {es fs : List Ev} {rest : List Turn} {m : TxMsg} {sh : RxShape} {k n : Nat} {s t u : State}

theorem LoopAnswered.done (hscript : s.env.script = rest) : LoopAnswered ans [] 0 rest s s :=
  ⟨by simp [traceOf], hscript, rfl, by simp, rfl, rfl, rfl, ⟨rfl, rfl, rfl, rfl⟩, rfl⟩

theorem LoopAnswered.trans (h : LoopAnswered ans es k (scriptOf ans fs ++ rest) s t) (h' : LoopAnswered ans fs n rest t u) :
    LoopAnswered ans (es ++ fs) (k + n) rest s u where
  trace := by
    obtain ⟨hcfg, -⟩ := h.inputs
    rw [h'.trace, h.trace, hcfg, traceOf_append, List.append_assoc]
  script := h'.script
  link := h'.link.trans h.link
  rem := by rw [h'.rem, h.rem, BitVec.ofNat_add, sub_sub]
  run := h'.run.trans h.run
  err := h'.err.trans h.err
  ret := h'.ret.trans h.ret
  inputs := h.inputs.trans h'.inputs
  st := h'.st.trans h.st

/-- One turn of a loop: `IDX`, the exchange, and `n` bytes off `REM`. -/
theorem loopTurn_answered (c : Ctx) (i n : Nat) (hgood : goodAnswers ans) (hopen : s.link.tOpen = true)
    (hidle : { s.link with rxq := [], txq := [] } = s.link)
    (hscript : s.env.script = scriptOf ans (exchangeEvents m sh) ++ rest) :
    ∃ t, runEvents c 0 (exchangeEvents m sh) (setIdx i s) = .ok t ∧
      LoopAnswered ans (exchangeEvents m sh) n rest s (reduceRem n t) := by
  obtain ⟨t, p, hrun, h, hpos⟩ := exchange_answered c (s := setIdx i s) hgood hopen hscript
  have hrem : t.wrk.rem = s.wrk.rem := by rw [h.wrk]; exact (RxShape.regs_rem ..).trans (TxMsg.regs_rem ..)
  refine ⟨t, hrun, h.trace, h.script, h.link.trans hidle, ?rem, h.run, h.err, h.ret, h.inputs, ?st⟩
  case rem => rw [reduceRem_wrk, hrem]
  case st => rw [reduceRem_pos, hpos, setIdx_pos]

theorem reduceRem_zero (s : State) : reduceRem 0 s = s := by simp [reduceRem]

theorem segmentLoop_answered (start : Word) (size : Half) (is : List Nat) (hgood : goodAnswers ans)
    (hopen : s.link.tOpen = true) (hidle : { s.link with rxq := [], txq := [] } = s.link)
    (hscript : s.env.script =
      scriptOf ans (is.flatMap fun i => segmentEvents (segmentAddr start size.toNat i) size) ++ rest) :
    ∃ t, segmentLoop start size is s = .ok t ∧
      LoopAnswered ans (is.flatMap fun i => segmentEvents (segmentAddr start size.toNat i) size) 0 rest s t := by
  induction is generalizing s with
  | nil => exact ⟨s, rfl, .done hscript⟩
  | cons i is ih =>
    rw [List.flatMap_cons, scriptOf_append, List.append_assoc] at hscript
    obtain ⟨t, hrun, hturn⟩ := loopTurn_answered ctxSegment i 0 hgood hopen hidle hscript
    rw [reduceRem_zero] at hturn
    obtain ⟨u, hloop, hrest⟩ := ih (by rw [hturn.link, hopen]) (by rw [hturn.link, hidle]) hturn.script
    exact ⟨u, by rw [segmentLoop, segmentEvents_eq, hrun, andThen_ok, hloop], hturn.trans hrest⟩

theorem pageLoop_answered (a : Word) (bytes : List Byte) (p : Nat) (is : List Nat) (hgood : goodAnswers ans)
    (hopen : s.link.tOpen = true) (hidle : { s.link with rxq := [], txq := [] } = s.link)
    (hscript : s.env.script =
      scriptOf ans (is.flatMap fun i => pageEvents (pageAddr a p i) (pageData bytes p i)) ++ rest) :
    ∃ t, pageLoop a bytes p is s = .ok t ∧
      LoopAnswered ans (is.flatMap fun i => pageEvents (pageAddr a p i) (pageData bytes p i))
        (is.map (pageData bytes p)).flatten.length rest s t := by
  induction is generalizing s with
  | nil => exact ⟨s, rfl, .done hscript⟩
  | cons i is ih =>
    rw [List.flatMap_cons, scriptOf_append, List.append_assoc] at hscript
    obtain ⟨t, hrun, hturn⟩ := loopTurn_answered ctxPage i (pageData bytes p i).length hgood hopen hidle hscript
    obtain ⟨u, hloop, hrest⟩ := ih (by rw [hturn.link, hopen]) (by rw [hturn.link, hidle]) hturn.script
    refine ⟨u, by rw [pageLoop, pageEvents_eq, hrun, andThen_ok, hloop], ?_⟩
    rw [List.map_cons, List.flatten_cons, List.length_append]
    exact hturn.trans hrest

end

/-- A queue that is empty is left so by a `Discard`. -/
theorem Link.idle_of_queues {l : Link} (hrxq : l.rxq = []) (htxq : l.txq = []) : { l with rxq := [], txq := [] } = l := by
  cases l
  cases hrxq
  cases htxq
  rfl

theorem exchangeEvents_trace (ans : RxShape → List Byte) (tRead : Nat) (m : TxMsg) (sh : RxShape) :
    traceOf ans tRead (exchangeEvents m sh) =
      [.discarded] ++ m.bytes.map .tx ++ [.readOk sh.count tRead (ans sh)] := by
  simp [traceOf, exchangeEvents, evTrace]

/-- The trace of exchanges one after the other. -/
theorem traceOf_exchanges (ans : RxShape → List Byte) (tRead : Nat) (m : Nat → TxMsg) (sh : RxShape) (is : List Nat) :
    traceOf ans tRead (is.flatMap fun i => exchangeEvents (m i) sh) =
      (is.map fun i => [.discarded] ++ (m i).bytes.map .tx ++ [.readOk sh.count tRead (ans sh)]).flatten := by
  rw [traceOf, List.flatMap_assoc, List.flatMap_def]
  exact congrArg List.flatten (List.map_congr_left fun i _ => exchangeEvents_trace ans tRead (m i) sh)

/-- The address of a segment of a range that fits does not wrap. -/
theorem segmentAddr_toNat {start : Word} {size count i : Nat} (hsize : 1 ≤ size) (hrange : start.toNat + count * size ≤ 2 ^ 32)
    (hi : i < count) : (segmentAddr start size i).toNat = start.toNat + i * size := by
  have hoffset : i * size < count * size := Nat.mul_lt_mul_of_pos_right hi hsize
  exact (BitVec.toNat_ofNat ..).trans (Nat.mod_eq_of_lt (by omega))

/-- Settles O40: `segmentLoop_answered` over the segment indices; no byte is taken off `REM`. -/
theorem blankCheckQueriesEverySegment : Obligations.BlankCheckQueriesEverySegment := by
  intro s ans rest start size count hopen hrxq htxq hgood hsize hrange hscript
  refine ⟨?run, fun i hi => segmentAddr_toNat hsize hrange hi⟩
  have hok : blankRangeOk start.toNat size.toNat count.toNat = true := by
    simp only [blankRangeOk, Bool.and_eq_true, decide_eq_true_eq]
    exact ⟨hsize, hrange⟩
  obtain ⟨t, hloop, h⟩ := segmentLoop_answered start size (List.range count.toNat) (s := restart s) hgood hopen
    (Link.idle_of_queues hrxq htxq) hscript
  refine ⟨advance .erased .verified t, ?exec, ?trace, h.script, h.link, h.run, h.err, h.ret, h.inputs,
    h.rem.trans (BitVec.sub_zero _), ?pos⟩
  case exec => rw [exec, execBlankCheck, if_pos hok, hloop, map_ok, settle_ok]
  case trace =>
    rw [advance_trace, h.trace]
    exact congrArg _ (traceOf_exchanges ans _ (fun i => .blankCheck (segmentAddr start size.toNat i) size) .resp10 _)
  case pos => simp [h.st]

/-- Settles O41: `pageLoop_answered` over the page indices; the pages make up the image, so `REM` comes down to 0. -/
theorem writeImageWritesEveryPage : Obligations.WriteImageWritesEveryPage := by
  intro s ans rest a bytes p hopen hrxq htxq hgood hp hrange hlen hscript
  have hok : imageRangeOk a.toNat bytes.length p.toNat = true := by
    simp only [imageRangeOk, Bool.and_eq_true, decide_eq_true_eq]
    exact ⟨⟨hp, hrange⟩, hlen⟩
  obtain ⟨t, hloop, h⟩ := pageLoop_answered a bytes p.toNat (List.range (pageCount bytes.length p.toNat))
    (s := { restart s with wrk := { s.wrk with rem := BitVec.ofNat 32 bytes.length } }) hgood hopen
    (Link.idle_of_queues hrxq htxq) hscript
  refine ⟨advance .verified .programmed t, ?exec, ?trace, h.script, h.link, h.run, h.err, h.ret, h.inputs, ?rem, ?pos⟩
  case exec =>
    rw [exec, execWriteImage, if_pos hok]
    exact congrArg (fun r => (r.map (advance .verified .programmed)).settle) hloop
  case trace =>
    rw [advance_trace, h.trace]
    exact congrArg _ (traceOf_exchanges ans _
      (fun i => .pageWrite (pageAddr a p.toNat i) (pageData bytes p.toNat i)) .resp9 _)
  case rem =>
    rw [advance_wrk, h.rem, flatten_pageData hp]
    exact BitVec.sub_self _
  case pos => simp [h.st]

end Sys2Proof.Machine
end

