-- ==== Sys2Proof/Proofs/FlashRun.lean ====
section
/-! PROOFS. The flash states of a run, event by event (44_flashprogrammer.md R165, 70_reset_and_hazards.md R252, R255): the `Discard`
at `PH` 0, the request at `PH` 1, the response at `PH` 2. -/

namespace Sys2Proof.Machine

/-! ### The event list of a flash state -/

/-- The states whose step sends flash requests (45_orchestrator.md R191). -/
def SeqState.Flash (st : SeqState) : Prop := st = .shimActive ∨ st = .erased ∨ st = .verified

theorem SeqState.Flash.hasEvents {st : SeqState} (h : st.Flash) : st.hasEvents = true := by
  rcases h with rfl | rfl | rfl
  · rfl
  · rfl
  · rfl

/-- The event transmits a message that may be sent in the state (60_exceptions.md R230). -/
def Ev.Requests (st : SeqState) : Ev → Prop
  | .send m => st.maySend m = true
  | .sendPage _ _ _ => st = .verified
  | .setReset _ | .wait _ | .discard | .sendShim _ | .recv _ => False

/-- In a flash state the list is that of one exchange; a loop with nothing to do has none. -/
theorem stepEvents_flash {s : State} (h : s.pos.st.Flash) :
    stepEvents s = [] ∨
      ∃ c e sh, stepEvents s = withCtx c [.discard, e, .recv sh] ∧ e.Requests s.pos.st := by
  rcases h with hst | hst | hst
  all_goals simp only [stepEvents, hst]
  · exact .inr ⟨_, _, _, rfl, rfl⟩
  · split
    · exact .inr ⟨_, _, _, rfl, rfl⟩
    · exact .inl rfl
  · split
    · exact .inl rfl
    · exact .inr ⟨_, _, _, rfl, rfl⟩

/-- Past `PH` 0 a segment or page is at hand, so the list is not empty. -/
theorem RunInv.stepEvents_ne_nil {s : State} {k : RunKind} (h : RunInv s k) (hflash : s.pos.st.Flash) (hph : s.pos.ph ≠ 0#4) :
    stepEvents (beginStep s) ≠ [] := by
  have hbegin : beginStep s = s := if_neg fun ⟨_, hzero, _⟩ => hph hzero
  rw [hbegin]
  rcases hflash with hst | hst | hst
  · simp [stepEvents, hst, withCtx, chipEraseEvents]
  · have hmore := h.segment hst (.inl hph)
    simp [stepEvents, hst, withCtx, segmentEvents, hmore]
  · obtain ⟨hmore, -⟩ := h.remaining hst (.inl hph)
    simp [stepEvents, hst, withCtx, hmore]

/-! ### What each event does -/

theorem opSend_trace {m : TxMsg} {s t : State} (h : opSend m s = .ok t) : t.trace = s.trace ++ m.bytes.map .tx := by
  cases ho : s.link.tOpen
  · rw [opSend, requireOpen_closed ho] at h; cases h
  · rw [opSend_open m ho] at h; cases h; rfl

/-- A request transmits one whole message of its state. -/
theorem Ev.Requests.transmits {st : SeqState} {c : Ctx} {e : Ev} {s t : State} (h : e.Requests st) (ht : runEv c e s = .ok t) :
    ∃ m : TxMsg, t.trace = s.trace ++ m.bytes.map .tx ∧ st.maySend m = true := by
  cases e with
  | send m => exact ⟨m, opSend_trace ht, h⟩
  | sendPage a o n =>
    obtain rfl : st = .verified := h
    simp only [runEv] at ht
    split at ht
    case h_1 data _ => exact ⟨.pageWrite a data, opSend_trace ht, rfl⟩
    case h_2 => cases ht
  | setReset _ | wait _ | discard | sendShim _ | recv _ => exact h.elim

/-- What a read adds to the trace: one event, of the bytes it took or of the timeout; after a timeout it has failed. -/
theorem opRecv_trace (c : Ctx) (sh : RxShape) {s : State} (hopen : s.link.tOpen = true) :
    ∃ b t, ((opRecv c sh s = .ok t ∨ ∃ e, opRecv c sh s = .err e t) ∧
        t.trace = s.trace ++ [.readOk sh.count s.cfg.tRead.toNat b]) ∨
      ((∃ e, opRecv c sh s = .err e t) ∧ t.trace = s.trace ++ [.readTimeout sh.count s.cfg.tRead.toNat b]) := by
  unfold opRecv
  obtain ⟨u, hu, ⟨-, hread⟩ | ⟨-, -, hread⟩⟩ := opRead_open c sh.count s.cfg.tRead.toNat _ hopen
  all_goals rw [hread]
  · dsimp only
    split
    · exact ⟨_, _, .inl ⟨.inl rfl, congrArg (· ++ _) hu.trace⟩⟩
    · exact ⟨_, _, .inl ⟨.inr ⟨_, rfl⟩, congrArg (· ++ _) hu.trace⟩⟩
  · exact ⟨_, _, .inr ⟨⟨_, rfl⟩, congrArg (· ++ _) hu.trace⟩⟩

/-! ### What each step does -/

section
variable {s t : State} {k : RunKind} {c : Ctx} {e : Ev} {sh : RxShape}

/-- The block's move at `PH` 0, 1 or 2 of an exchange. -/
theorem seqEvent_exchange {x : Ev} {j : Nat} (hlist : stepEvents (beginStep s) = withCtx c [.discard, e, .recv sh])
    (hph : s.pos.ph.toNat = j) (hx : [Ev.discard, e, .recv sh][j]? = some x) :
    seqEvent s = (runEv c x (beginStep s)).map fun t => if j + 1 < 3 then setPh (j + 1) t else finishEvents t := by
  have hev : (stepEvents (beginStep s))[s.pos.ph.toNat]? = some (c, x) := by
    rw [hlist, withCtx, List.getElem?_map, hph, hx, Option.map_some]
  rw [seqEvent_some hev, hlist, hph]
  rfl

/-- Past `PH` 0 there is an exchange to go on with. -/
theorem RunInv.exchange_at_hand (inv : RunInv s k) (hflash : s.pos.st.Flash) (hph : s.pos.ph ≠ 0#4) :
    ∃ c e sh, stepEvents (beginStep s) = withCtx c [.discard, e, .recv sh] ∧ e.Requests s.pos.st := by
  have hlist := stepEvents_flash (s := beginStep s) (by rwa [beginStep_pos])
  rw [beginStep_pos] at hlist
  exact hlist.resolve_left (inv.stepEvents_ne_nil hflash hph)

/-- The step at `PH` 0: the `Discard`, or the end of a loop that has nothing to do. -/
theorem seqEvent_discards (hopen : s.link.tOpen = true) (hflash : s.pos.st.Flash) (hph : s.pos.ph = 0#4)
    (hstep : (seqEvent s).settle = .next t) :
    (t.trace = s.trace ++ [.discarded] ∧ t.link.rxq = [] ∧ t.pos.st = s.pos.st ∧ t.pos.ph = 1#4) ∨
      (t.trace = s.trace ∧ s.pos.st.next = some t.pos.st) := by
  have hflash' : (beginStep s).pos.st.Flash := by rwa [beginStep_pos]
  rcases stepEvents_flash hflash' with hnil | ⟨c, e, sh, hlist, -⟩
  · right
    rw [seqEvent_none (by rw [hnil]; rfl), settle_ok] at hstep
    cases hstep
    obtain ⟨-, -, hst⟩ := finishStep_moves hflash'.hasEvents
    refine ⟨by simp, ?_⟩
    rw [hst, beginStep_pos]
    rcases hflash with hst | hst | hst <;> simp [hst, SeqState.next]
  · left
    have hopen' : (beginStep s).link.tOpen = true := by rwa [beginStep_link]
    rw [seqEvent_exchange hlist (j := 0) (by rw [hph]; rfl) rfl, runEv, opDiscard_open hopen'] at hstep
    cases hstep
    simp [(envTurn_move (beginStep s)).pos]

/-- The step at `PH` 1: it cannot fail, since only a read does. -/
theorem RunInv.seqEvent_requests (inv : RunInv s k) (hflash : s.pos.st.Flash) (hph : s.pos.ph = 1#4)
    (hstep : (seqEvent s).settle = .next t) :
    t.pos = { s.pos with ph := 2#4 } ∧ ∃ m : TxMsg, t.trace = s.trace ++ m.bytes.map .tx ∧ s.pos.st.maySend m = true := by
  obtain ⟨c, e, sh, hlist, hreq⟩ := inv.exchange_at_hand hflash (by rw [hph]; decide)
  rw [seqEvent_exchange hlist (j := 1) (by rw [hph]; rfl) rfl] at hstep
  have hend := runEv_end c e (beginStep s)
  cases hu : runEv c e (beginStep s) with
  | ok u =>
    rw [hu] at hend hstep
    cases hend with
    | ok hmove =>
      cases hstep
      refine ⟨by simp [hmove.pos], ?_⟩
      simpa using hreq.transmits hu
  | err i u =>
    rw [hu] at hend
    cases hend with
    | err _ _ _ _ hread =>
      obtain ⟨sh', rfl⟩ := hread
      exact hreq.elim
  | fault f => rw [hu] at hstep; cases hstep
  | refused x => rw [hu] at hstep; cases hstep

/-- A failing event of a run on an open transport ends it with the `Close` of the release (45_orchestrator.md R196, log 37). -/
theorem enterFailed_closes {i : ErrInfo} (hbusy : s.busy = true) (hopen : s.link.tOpen = true) :
    (enterFailed i s).trace = s.trace ++ [.closed] ∧ (enterFailed i s).pos.st = .failed := by
  obtain ⟨hpos, -, -, -, -, -, -, -, -, -, -, -, hrun⟩ := enterFailed_spec i s
  obtain ⟨-, -, hclose⟩ := hrun hbusy
  obtain ⟨htrace, -⟩ := hclose hopen
  exact ⟨htrace, by rw [hpos]⟩

/-- The step at `PH` 2: the response, accepted, rejected or not in full. -/
theorem RunInv.seqEvent_responds (inv : RunInv s k) (hrun : s.run = some k) (hflash : s.pos.st.Flash) (hph : s.pos.ph = 2#4)
    (hstep : (seqEvent s).settle = .next t) :
    (∃ n b, t.trace = s.trace ++ [.readOk n s.cfg.tRead.toNat b] ∧ t.pos.st ≠ .failed) ∨
      (∃ n b, t.trace = s.trace ++ [.readOk n s.cfg.tRead.toNat b, .closed] ∧ t.pos.st = .failed) ∨
      (∃ n b, t.trace = s.trace ++ [.readTimeout n s.cfg.tRead.toNat b, .closed] ∧ t.pos.st = .failed) := by
  obtain ⟨c, e, sh, hlist, -⟩ := inv.exchange_at_hand hflash (by rw [hph]; decide)
  have hev := seqEvent_exchange hlist (j := 2) (by rw [hph]; rfl) rfl
  have hopen : (beginStep s).link.tOpen = true := by rw [beginStep_link]; exact (inv.inStep hrun hflash.hasEvents).linked
  have hend := opRecv_end c sh (beginStep s)
  have herr {i : ErrInfo} {u : State} (h : opRecv c sh (beginStep s) = .err i u) :
      t.trace = u.trace ++ [.closed] ∧ t.pos.st = .failed := by
    rw [hev, runEv, h] at hstep
    cases hstep
    rw [h] at hend
    cases hend with
    | err hmove =>
      refine enterFailed_closes ?_ (hmove.tOpen.trans hopen)
      rw [State.busy, hmove.run, beginStep_run, hrun]
      rfl
  obtain ⟨b, u, ⟨hok | ⟨i, hi⟩, htrace⟩ | ⟨⟨i, hi⟩, htrace⟩⟩ := opRecv_trace c sh hopen
  all_goals rw [beginStep_trace, beginStep_cfg] at htrace
  · have hseq : seqEvent s = .ok (finishEvents u) := by rw [hev, runEv, hok]; rfl
    obtain ⟨-, hlive⟩ := (inv.seqEvent_ok hrun hflash.hasEvents hseq).live
    rw [hseq] at hstep
    cases hstep
    exact .inl ⟨sh.count, b, by rw [finishEvents_trace, htrace], hlive⟩
  · obtain ⟨hclosed, hfailed⟩ := herr hi
    exact .inr (.inl ⟨sh.count, b, by rw [hclosed, htrace, List.append_assoc]; rfl, hfailed⟩)
  · obtain ⟨hclosed, hfailed⟩ := herr hi
    exact .inr (.inr ⟨sh.count, b, by rw [hclosed, htrace, List.append_assoc]; rfl, hfailed⟩)

end

/-- Settles O52: one lemma for each `PH` of the exchange at hand. -/
theorem flashRequestsFollowADiscard : Obligations.FlashRequestsFollowADiscard := by
  intro s t hinv hbusy hhost hflash hstep
  obtain ⟨k, hrun⟩ := Option.isSome_iff_exists.mp hbusy
  have inv := hinv.running k hrun
  have hevents : s.pos.st.hasEvents = true := SeqState.Flash.hasEvents hflash
  rw [step_quiet hhost, seqStep_events hrun hevents] at hstep
  exact ⟨fun hph => seqEvent_discards (inv.inStep hrun hevents).linked hflash hph hstep,
    fun hph => inv.seqEvent_requests hflash hph hstep,
    fun hph => inv.seqEvent_responds hrun hflash hph hstep⟩

end Sys2Proof.Machine
end

