-- ==== Sys2Proof/Proofs/StartCommands.lean ====
section
/-! PROOFS. The start commands and `loadImage` (45_orchestrator.md R190, R192), what a block in a run accepts (R204), and what one
without a run does (R199). -/

namespace Sys2Proof.Machine

/-! ### Without a run, and during one -/

/-- Settles O4: the block's own move without a run changes nothing, and no step takes a request off an empty list. -/
theorem idleBlockDoesNothing : Obligations.IdleBlockDoesNothing := by
  intro s n hidle hhost
  induction n with
  | zero => rfl
  | succ n ih =>
    rw [steps_succ, step_quiet hhost, seqStep_idle (State.run_of_idle hidle)]
    exact ih

theorem hostCall_busy {f : Format} {bytes : List Byte} {s : State} (hbusy : s.busy = true) :
    hostCall f bytes s = .refused .busy := if_pos hbusy

/-- Settles O6: `BUSY` is looked at before the call is decoded, and again by the two start commands. -/
theorem callsAreRefusedWhileBusy : Obligations.CallsAreRefusedWhileBusy := by
  refine ⟨fun s f bs rest hhost hbusy => ?_, fun s hbusy => ⟨if_pos hbusy, if_pos hbusy⟩⟩
  rw [step_eq_hostStep hhost]
  exact hostCall_busy hbusy

/-! ### The start commands (45_orchestrator.md R190) -/

/-- The preconditions of a `download` start, as R190 lists them; that `IMG_LEN` is below 2^32 is its width. -/
theorem ConfigRegs.downloadOk_iff (c : ConfigRegs) :
    c.downloadOk = true ↔ 1 ≤ c.writePage.toNat ∧ 1 ≤ c.blankPage.toNat ∧ c.imgAddr.toNat + c.imgLen.toNat ≤ 2 ^ 32 ∧
      c.blankStart.toNat + c.blankCount.toNat * c.blankPage.toNat ≤ 2 ^ 32 := by
  have hwidth := c.imgLen.isLt
  rw [downloadOk, Bool.and_eq_true, imageRangeOk_iff, blankRangeOk_iff]
  constructor
  · rintro ⟨⟨hpage, himage, -⟩, hblank, hregion⟩
    exact ⟨hpage, hblank, himage, hregion⟩
  · rintro ⟨hpage, hblank, himage, hregion⟩
    exact ⟨⟨hpage, himage, hwidth⟩, hblank, hregion⟩

/-- Settles O43: outside a run the preconditions alone decide, and `startRun` is the acceptance. -/
theorem startCommandsBeginARun : Obligations.StartCommandsBeginARun := by
  intro s hidle started
  have hnotBusy : ¬ s.busy = true := by simp [hidle]
  refine ⟨if_neg hnotBusy, fun hok => ?accepted, fun hbad => ?refused⟩
  case accepted => exact (if_neg hnotBusy).trans (if_pos (s.cfg.downloadOk_iff.mpr hok))
  case refused => exact (if_neg hnotBusy).trans (if_neg (mt s.cfg.downloadOk_iff.mp hbad))

/-! ### `loadImage` (45_orchestrator.md R192) -/

/-- The error of an image the host could not supply (60_exceptions.md R219). -/
def imageError : ErrInfo := { kind := .image, ctx := ctxLoadImage, raw := [] }

theorem execLoadImage_raises {s : State} (h : s.cfg.imgErr = true) : execLoadImage s = .next (enterFailed imageError s) :=
  if_pos h

/-- On a closed transport the release has nothing to close, so the record is all that happens. -/
theorem enterFailed_closed_eq (e : ErrInfo) {s : State} (hclosed : s.link.tOpen = false) :
    enterFailed e s = { recordError e s with run := none } := by
  cases hbusy : s.busy with
  | true =>
    have hbusy' : (recordError e s).busy = true := hbusy
    have hclosed' : (recordError e s).link.tOpen = false := hclosed
    rw [enterFailed, release, if_pos hbusy', opClose_closed hclosed']
  | false =>
    rw [enterFailed_idle e hbusy]
    exact congrArg (fun r => { recordError e s with run := r }) (State.run_of_idle hbusy)

/-- A download begins with `loadImage` (45_orchestrator.md R193). -/
theorem seqStep_imageError {s : State} (hrun : s.run = some .download) (hst : s.pos.st = .closed)
    (himg : s.cfg.imgErr = true) : seqStep s = .next (enterFailed imageError s) := by
  simp only [seqStep, hrun, hst, seqOpen, himg, and_self, if_true]
  rfl

/-- Settles O44: the error is taken on a closed transport, by a call and by the first move of a run alike. -/
theorem loadImageSurfacesTheImageError : Obligations.LoadImageSurfacesTheImageError := by
  refine ⟨fun s hgood => if_neg (by simp [hgood]), fun s himg hclosed => ⟨?_, fun hhost hrun hst => ?_⟩⟩
  · rw [exec, execLoadImage_raises himg, enterFailed_closed_eq _ hclosed]
    rfl
  · rw [step_quiet hhost, seqStep_imageError hrun hst himg, exec, execLoadImage_raises himg]

end Sys2Proof.Machine
end

