-- ==== Sys2Proof/Proofs/RunSteps.lean ====
section
/-! PROOFS. The steps of a run through the event list of its position (10_state.md R22, R23; log 4) are that list performed as one
operation and then the position's bookkeeping; the reset pulse of a listen run (45_orchestrator.md R202) is one such list. -/

namespace Sys2Proof.Machine

/-! ### Steps one after the other -/

theorem steps_one {s : State} : steps 1 s = step s := by
  rw [steps_succ]
  cases step s <;> rfl

/-- Steps after steps that have led somewhere. -/
theorem steps_append {a b : Nat} {s t : State} {o : Host.Outcome State Fault Refusal} (hfirst : steps a s = .next t)
    (hthen : steps b t = o) : steps (a + b) s = o := by
  rw [steps_add, hfirst]
  exact hthen

/-- A run that has failed has ended: no later step does anything while the host asks nothing (45_orchestrator.md R199). -/
theorem steps_enterFailed (e : ErrInfo) {s : State} (hhost : s.host = []) (n : Nat) :
    steps n (enterFailed e s) = .next (enterFailed e s) := by
  obtain ⟨-, -, -, hhost'⟩ := enterFailed_inputs e s
  exact idleBlockDoesNothing _ n (by rw [State.busy, enterFailed_run]; rfl) (hhost'.trans hhost)

/-- Steps that perform `r` and move on by `f`, and then steps that perform `k`, perform the one operation after the other. -/
theorem steps_andThen {a b : Nat} {s : State} {r : Res} {f : State → State} {k : State → Res}
    (hfirst : steps a s = (r.map f).settle) (hquiet : ∀ e u, r = .err e u → u.host = [])
    (hthen : ∀ t, r = .ok t → steps b (f t) = (k t).settle) : steps (a + b) s = (r.andThen k).settle := by
  rw [steps_add, hfirst]
  cases r with
  | ok t => exact hthen t rfl
  | err e u => exact steps_enterFailed e (hquiet e u rfl) b
  | fault | refused => rfl

/-! ### A list of events, each with its own context -/

/-- Perform a list of events from index `k` on, `PH` at each event's index: the operation a run's event list stands for. -/
def runList : Nat → List (Ctx × Ev) → State → Res
  | _, [], s => .ok s
  | k, ce :: ces, s => (runEv ce.1 ce.2 (setPh k s)).andThen (runList (k + 1) ces)

theorem runList_cons (k : Nat) (ce : Ctx × Ev) (ces : List (Ctx × Ev)) (s : State) :
    runList k (ce :: ces) s = (runEv ce.1 ce.2 (setPh k s)).andThen (runList (k + 1) ces) := rfl

theorem runList_withCtx (c : Ctx) (k : Nat) (es : List Ev) (s : State) : runList k (withCtx c es) s = runEvents c k es s := by
  induction es generalizing k s with
  | nil => rfl
  | cons e es ih =>
    rw [runEvents_cons, ← funext (ih (k + 1))]
    rfl

theorem runList_append (k : Nat) (ces ces' : List (Ctx × Ev)) (s : State) :
    runList k (ces ++ ces') s = (runList k ces s).andThen (runList (k + ces.length) ces') := by
  induction ces generalizing k s with
  | nil => rfl
  | cons ce ces ih =>
    rw [List.cons_append, runList_cons, runList_cons, andThen_assoc, List.length_cons, Nat.add_comm ces.length, ← Nat.add_assoc]
    exact congrArg _ (funext (ih (k + 1)))

/-- `t` differs from `s` by events: what they move (`EvMove`), and `PH`. -/
def EventsMove (s t : State) : Prop := ∃ p, EvMove (atPos { s.pos with ph := p } s) t

section
variable {s t u : State} (h : EventsMove s t)
include h

theorem EventsMove.st : t.pos.st = s.pos.st := h.elim fun _ m => by rw [m.pos]; rfl
theorem EventsMove.idx : t.pos.idx = s.pos.idx := h.elim fun _ m => by rw [m.pos]; rfl
theorem EventsMove.run : t.run = s.run := h.elim fun _ m => m.run
theorem EventsMove.err : t.err = s.err := h.elim fun _ m => m.err
theorem EventsMove.tOpen : t.link.tOpen = s.link.tOpen := h.elim fun _ m => m.tOpen
theorem EventsMove.rem : t.wrk.rem = s.wrk.rem := h.elim fun _ m => m.rem
theorem EventsMove.inputs : sameInputs s t := h.elim fun _ m => ⟨m.cfg, m.img, m.shm, m.host⟩
theorem EventsMove.cfg : t.cfg = s.cfg := h.elim fun _ m => m.cfg
theorem EventsMove.host : t.host = s.host := h.elim fun _ m => m.host

theorem EventsMove.trans (h' : EventsMove t u) : EventsMove s u := by
  obtain ⟨p, m⟩ := h
  obtain ⟨q, m'⟩ := h'
  rw [m.pos] at m'
  exact ⟨q, (m.atPos _).trans m'⟩

end

theorem EventsMove.refl (s : State) : EventsMove s s := ⟨s.pos.ph, (EnvMove.refl s).evMove⟩

theorem EventsMove.setPh (k : Nat) (s : State) : EventsMove s (setPh k s) :=
  ⟨_, (EnvMove.refl (Machine.setPh k s)).evMove⟩

/-- However it ends, an operation begun at `s` has moved what events move. -/
def Res.EventsFrom (s : State) : Res → Prop
  | .ok t | .err _ t => EventsMove s t
  | .fault _ | .refused _ => True

theorem runEv_moved (c : Ctx) (e : Ev) (k : Nat) (s : State) : (runEv c e (setPh k s)).EventsFrom s := by
  have hend := runEv_end c e (setPh k s)
  cases hr : runEv c e (setPh k s) with
  | ok t | err i t =>
    rw [hr] at hend
    cases hend
    exact ⟨_, by assumption⟩
  | fault | refused => trivial

theorem Res.EventsFrom.andThen {s : State} {r : Res} {k : State → Res} (hr : r.EventsFrom s)
    (hk : ∀ t, (k t).EventsFrom t) : (r.andThen k).EventsFrom s := by
  cases r with
  | ok t =>
    have ht := hk t
    rw [andThen_ok]
    cases hkt : k t with
    | ok u | err e u =>
      rw [hkt] at ht
      exact EventsMove.trans hr ht
    | fault | refused => trivial
  | err e t => exact hr
  | fault | refused => trivial

theorem runList_moved (k : Nat) (ces : List (Ctx × Ev)) (s : State) : (runList k ces s).EventsFrom s := by
  induction ces generalizing k s with
  | nil => exact .refl s
  | cons ce ces ih => exact (runEv_moved ce.1 ce.2 k s).andThen (ih (k + 1))

theorem runEvents_moved (c : Ctx) (k : Nat) (es : List Ev) (s : State) : (runEvents c k es s).EventsFrom s := by
  rw [← runList_withCtx]
  exact runList_moved k _ s

/-- An operation may end with one update or with another that does the same to every state it can end in. -/
theorem Res.EventsFrom.map_congr {s : State} {r : Res} {f g : State → State} (h : r.EventsFrom s)
    (hfg : ∀ t, EventsMove s t → f t = g t) : r.map f = r.map g := by
  cases r with
  | ok t => exact congrArg Res.ok (hfg t h)
  | err | fault | refused => rfl

theorem Res.EventsFrom.ok {s t : State} {r : Res} (h : r.EventsFrom s) (hr : r = .ok t) :
    EventsMove s t := by
  subst hr
  exact h

theorem Res.EventsFrom.err_host {s u : State} {r : Res} {e : ErrInfo} (h : r.EventsFrom s) (hr : r = .err e u) :
    u.host = s.host := by
  subst hr
  exact EventsMove.host h

/-! ### The steps of a list -/

/-- No event list is longer than `PH` can count (10_state.md R22). -/
theorem stepEvents_length_le (s : State) : (stepEvents s).length ≤ 8 := by
  unfold stepEvents
  split
  case h_1 => split <;> simp [withCtx, handshakeEvents, resetPulseEvents]
  case h_4 | h_5 => split <;> simp [withCtx, segmentEvents]
  all_goals simp [withCtx, ramInitEvents, jumpEvents, chipEraseEvents, resetPulseEvents]

theorem setPh_self {k : Nat} {s : State} (h : s.pos.ph = BitVec.ofNat 4 k) : setPh k s = s := by
  rw [setPh, ← h]

/-- A run stands in the step, or the iteration of a loop, whose event list is `ces`; `writeImage` has begun (44_flashprogrammer.md
R172). -/
structure InList (ces : List (Ctx × Ev)) (s : State) : Prop where
  busy : s.busy = true
  quiet : s.host = []
  events : s.pos.st.hasEvents = true
  begun : s.pos.st = .verified → s.pos.idx = 0#32 → s.wrk.rem = s.cfg.imgLen
  list : stepEvents s = ces

theorem InList.begun_eq {ces : List (Ctx × Ev)} {s : State} (h : InList ces s) : beginStep s = s := by
  unfold beginStep
  split
  · next hbegin =>
    obtain ⟨hst, -, hidx⟩ := hbegin
    rw [← h.begun hst hidx]
  · rfl

/-- Events do not lead out of the list. -/
theorem InList.of_eventsMove {ces : List (Ctx × Ev)} {s t : State} (h : InList ces s) (m : EventsMove s t) : InList ces t where
  busy := (congrArg Option.isSome m.run).trans h.busy
  quiet := m.host.trans h.quiet
  events := m.st ▸ h.events
  begun := by rw [m.st, m.idx, m.cfg, m.rem]; exact h.begun
  list := (stepEvents_congr m.st m.idx m.run m.cfg m.rem).trans h.list

/-- Where a run goes after the event before index `j` of a list of `n` (10_state.md R23). -/
def afterEvent (n j : Nat) (s : State) : State := if j < n then setPh j s else finishEvents s

/-- The step at index `k` of the list. -/
theorem InList.step_eq {ces : List (Ctx × Ev)} {s : State} (h : InList ces s) {k : Nat} {ce : Ctx × Ev}
    (hk : ces[k]? = some ce) :
    step (setPh k s) = ((runEv ce.1 ce.2 (setPh k s)).map (afterEvent ces.length (k + 1))).settle := by
  have hin := h.of_eventsMove (.setPh k s)
  obtain ⟨r, hrun⟩ := Option.isSome_iff_exists.mp hin.busy
  have hlen : ces.length ≤ 8 := h.list ▸ stepEvents_length_le s
  have hlt : k < ces.length := (List.getElem?_eq_some_iff.mp hk).1
  have hph : (setPh k s).pos.ph.toNat = k := by
    rw [setPh_pos, BitVec.toNat_ofNat]
    omega
  have hev : (stepEvents (beginStep (setPh k s)))[(setPh k s).pos.ph.toNat]? = some (ce.1, ce.2) := by
    rw [hin.begun_eq, hin.list, hph, hk]
  rw [step_quiet hin.quiet, seqStep_events hrun hin.events, seqEvent_some hev, hin.begun_eq, hin.list, hph]
  rfl

/-- The steps of a piece of the list, from index `k` on, are that piece performed, and then the run's position. -/
theorem InList.steps_piece {ces piece rest : List (Ctx × Ev)} {s : State} (h : InList ces s) {k : Nat} (hk : k < ces.length)
    (hpiece : ces.drop k = piece ++ rest) :
    steps piece.length (setPh k s) =
      ((runList k piece s).map (afterEvent ces.length (k + piece.length))).settle := by
  induction piece generalizing k s with
  | nil =>
    rw [runList, map_ok, settle_ok, afterEvent, List.length_nil, Nat.add_zero, if_pos hk, steps_zero]
  | cons ce piece ih =>
    have hhead : ces[k]? = some ce := by rw [← List.head?_drop, hpiece]; rfl
    have hrest : ces.drop (k + 1) = piece ++ rest := by rw [← List.drop_drop, hpiece]; rfl
    have hfirst : steps 1 (setPh k s) =
        ((runEv ce.1 ce.2 (setPh k s)).map (afterEvent ces.length (k + 1))).settle := by
      rw [steps_one, h.step_eq hhead]
    rw [List.length_cons, Nat.add_comm piece.length 1, runList_cons, andThen_map, ← Nat.add_assoc]
    by_cases hmore : k + 1 < ces.length
    case pos =>
      have hon : afterEvent ces.length (k + 1) = setPh (k + 1) := funext fun t => if_pos hmore
      have hmoves := runEv_moved ce.1 ce.2 k s
      rw [hon] at hfirst
      exact steps_andThen hfirst (fun e u hr => (hmoves.err_host hr).trans h.quiet)
        fun t hr => ih (h.of_eventsMove (hmoves.ok hr)) hmore hrest
    case neg =>
      obtain ⟨rfl, -⟩ := List.append_eq_nil_iff.mp (hrest.symm.trans (List.drop_eq_nil_of_le (Nat.le_of_not_lt hmore)))
      exact hfirst

/-- All the steps of the list are the list performed, and then what `finishEvents` does where its last event leaves off. -/
theorem InList.steps_all {ces : List (Ctx × Ev)} {s : State} {fin : State → State} (h : InList ces s) (hph : s.pos.ph = 0#4)
    (hne : ces ≠ []) (hfin : ∀ t, EventsMove s t → finishEvents t = fin t) :
    steps ces.length s = ((runList 0 ces s).map fin).settle := by
  have hsteps := h.steps_piece (k := 0) (List.length_pos_iff.mpr hne) (List.append_nil ces).symm
  have hlast : afterEvent ces.length ces.length = finishEvents := funext fun t => if_neg (Nat.lt_irrefl _)
  rw [setPh_self hph, Nat.zero_add, hlast] at hsteps
  rw [hsteps, (runList_moved 0 ces s).map_congr hfin]

/-- The same for a list of one context, which is an operation's event list. -/
theorem InList.steps_operation {c : Ctx} {es : List Ev} {s : State} {fin : State → State} (h : InList (withCtx c es) s)
    (hph : s.pos.ph = 0#4) (hne : es ≠ []) (hfin : ∀ t, EventsMove s t → finishEvents t = fin t) :
    steps es.length s = ((runEvents c 0 es s).map fin).settle := by
  have hsteps := h.steps_all hph (by simpa [withCtx] using hne) hfin
  rwa [runList_withCtx, withCtx, List.length_map] at hsteps

/-! ### Completing a step -/

/-- Where the step that starts in a state with an event list leads. -/
def SeqState.completes (st : SeqState) (k : RunKind) : SeqState :=
  if st = .initialized ∧ k = .listen then .reset else st.next.getD st

theorem finishStep_eq {s : State} {k : RunKind} (hrun : s.run = some k) (he : s.pos.st.hasEvents = true) :
    finishStep s = advance s.pos.st (s.pos.st.completes k) s := by
  unfold finishStep
  cases hst : s.pos.st with
  | initialized => cases k <;> simp [hrun, SeqState.completes, SeqState.next]
  | synced | shimActive | erased | verified | programmed => rfl
  | closed | reset | done | failed => rw [hst] at he; cases he

theorem finishStep_st {s : State} {k : RunKind} (hrun : s.run = some k) (he : s.pos.st.hasEvents = true) :
    (finishStep s).pos.st = s.pos.st.completes k := by
  rw [finishStep_eq hrun he, advance_pos, if_pos rfl]

/-- The states whose step is a loop of event lists (44_flashprogrammer.md R172, R176). -/
def SeqState.Loops (st : SeqState) : Prop := st = .erased ∨ st = .verified

theorem finishEvents_once {s : State} (h : ¬ s.pos.st.Loops) : finishEvents s = finishStep s := by
  unfold finishEvents
  split
  case h_1 hst => exact absurd (.inl hst) h
  case h_2 hst => exact absurd (.inr hst) h
  case h_3 => rfl

section
variable {s : State} {k : RunKind} {st st' : SeqState} (hrun : s.run = some k) (hhost : s.host = [])
  (hpos : s.pos = { st := st, ph := 0#4, idx := 0#32 }) (honce : st.hasEvents = true ∧ ¬ st.Loops)
  (hnext : st.completes k = st')
include hrun hhost hpos honce hnext

/-- The steps of a run in a state without a loop: the event list, and the move to the next state. -/
theorem steps_once {ces : List (Ctx × Ev)} (hlist : stepEvents s = ces) (hne : ces ≠ []) :
    steps ces.length s = ((runList 0 ces s).map (advance st st')).settle := by
  obtain ⟨he, honce⟩ := honce
  have hst : s.pos.st = st := by rw [hpos]
  have hin : InList ces s :=
    ⟨by rw [State.busy, hrun]; rfl, hhost, hst ▸ he, fun hv => absurd (.inr (hst ▸ hv)) honce, hlist⟩
  refine hin.steps_all (by rw [hpos]) hne fun t m => ?_
  have htst : t.pos.st = st := m.st.trans hst
  rw [finishEvents_once (htst ▸ honce), finishStep_eq (m.run.trans hrun) (htst ▸ he), htst, hnext]

/-- The same for a list of one context, which is an operation's event list. -/
theorem steps_operation {c : Ctx} {es : List Ev} (hlist : stepEvents s = withCtx c es) (hne : es ≠ []) :
    steps es.length s = ((runEvents c 0 es s).map (advance st st')).settle := by
  have h := steps_once hrun hhost hpos honce hnext hlist (by simpa [withCtx] using hne)
  rwa [runList_withCtx, withCtx, List.length_map] at h

end

/-! ### The first step of a run, and the listen run (45_orchestrator.md R193, R202) -/

/-- A run whose image was supplied opens the link. -/
theorem seqOpen_eq {s : State} (h : ¬ (s.run = some .download ∧ s.cfg.imgErr = true)) :
    seqOpen s = (opOpen s.cfg.port s.cfg.baud s).map (advance .closed .initialized) := if_neg h

theorem seqStep_closed {s : State} {k : RunKind} (hrun : s.run = some k) (hst : s.pos.st = .closed) :
    seqStep s = (seqOpen s).settle := by simp only [seqStep, hrun, hst]

/-- The first step when the environment lets the link open: the state at `Initialized`. -/
theorem step_opens {s : State} {k : RunKind} {more : List Bool} (hrun : s.run = some k) (hhost : s.host = [])
    (hst : s.pos.st = .closed) (himg : ¬ (k = .download ∧ s.cfg.imgErr = true)) (hclosed : s.link.tOpen = false)
    (hopens : s.env.opens = true :: more) :
    ∃ t, step s = .next t ∧ t.pos = { st := .initialized, ph := 0#4, idx := 0#32 } ∧
      t.trace = s.trace ++ [.opened s.cfg.port s.cfg.baud true] ∧
      t.link = { tOpen := true, tBaud := s.cfg.baud, rxq := [], txq := [], rst := .undriven } ∧
      t.env = { (envTurn s).env with opens := more } ∧ t.run = some k ∧ t.err = s.err ∧ sameInputs s t := by
  obtain ⟨u, hu, htrace, hok, -⟩ := opOpen_spec s.cfg.port s.cfg.baud s
  have hanswer : s.env.opens.headD false = true := by rw [hopens]; rfl
  obtain ⟨hopen, hlink⟩ := hok hanswer
  have hgood : ¬ (s.run = some .download ∧ s.cfg.imgErr = true) := by rwa [hrun, Option.some_inj]
  refine ⟨advance .closed .initialized u, ?step, ?pos, ?trace, hlink, ?env, hu.run.trans hrun, hu.err, hu.cfg, hu.img, hu.shm,
    hu.host⟩
  case step => rw [step_quiet hhost, seqStep_closed hrun hst, seqOpen_eq hgood, hopen, map_ok, settle_ok]
  case pos => simp [hu.pos, hst]
  case trace => rw [advance_trace, htrace, hclosed, hanswer]; simp
  case env => simp [hu.env, hopens]

/-- Settles O50: after the first step the six steps are the reset pulse, which reads nothing and so runs in any environment. -/
theorem listenEndsAtReset : Obligations.ListenEndsAtReset := by
  intro s more hrun hhost hpos hclosed hopens
  obtain ⟨u, hstep, hupos, hutrace, hulink, -, hurun, -, hinputs⟩ :=
    step_opens hrun hhost (by rw [hpos]; rfl) (by simp) hclosed hopens
  obtain ⟨hcfg, -, -, huhost⟩ := hinputs
  have hsix := steps_operation hurun (huhost.trans hhost) hupos (by simp [SeqState.hasEvents, SeqState.Loops]) rfl
    (st' := .reset) (c := ctxResetPulse) (es := resetPulseEvents u.cfg) (by simp [stepEvents, hupos, hurun]) (by simp [resetPulseEvents])
  obtain ⟨t, p, hpulse, hsilent⟩ :=
    runEvents_silent ctxResetPulse 0 (resetPulseEvents_silent u.cfg) (s := u) (by rw [hulink])
  rw [hpulse, map_ok, settle_ok] at hsix
  have hmove : EventsMove u t := ⟨p, hsilent.move⟩
  have hlink : t.link = { u.link with rxq := t.link.rxq, txq := [], rst := .deasserted } := hsilent.link
  rw [hulink] at hlink
  have hlisten : t.run = some .listen := hmove.run.trans hurun
  have hpos : (advance .initialized .reset t).pos = { st := .reset, ph := 0#4, idx := 0#32 } := by
    simp [hmove.st, hupos]
  refine ⟨_, steps_append (steps_one.trans hstep) hsix, hpos, ?busy, ?linkOpen, ?rst, ?baud, ?trace, ?refused⟩
  case busy => rw [State.busy, advance_run, hlisten]; rfl
  case linkOpen | rst | baud => rw [advance_link, hlink]
  case trace =>
    rw [advance_trace, hsilent.trace, hcfg]
    exact congrArg (· ++ _) hutrace
  case refused =>
    have hquiet : (advance .initialized .reset t).host = [] := hmove.host.trans (huhost.trans hhost)
    rw [step_quiet hquiet]
    simp only [seqStep, hpos, advance_run, hlisten]

/-! ### Where a step of a run leads (45_orchestrator.md R191, R194) -/

/-- After the last event of a list the loop goes on in its state, or the step completes. -/
theorem finishEvents_st (s : State) :
    (finishEvents s).pos.st = s.pos.st ∨ (finishEvents s).pos.st = (finishStep s).pos.st := by
  unfold finishEvents
  split
  case h_1 => split; exacts [.inl rfl, .inr rfl]
  case h_2 hst =>
    dsimp only
    split
    · right; simp only [finishStep, reduceRem_pos, hst, advance_pos]
    · exact .inl rfl
  case h_3 => exact .inr rfl

/-- Only reads fail, and the reset pulse, the list at `Programmed`, has none (42_handshake.md R141). -/
theorem canFail_of_recv {s : State} {j : Nat} {c : Ctx} {sh : RxShape} (he : s.pos.st.hasEvents = true)
    (hev : (stepEvents s)[j]? = some (c, .recv sh)) : s.pos.st.canFail = true := by
  cases hst : s.pos.st with
  | programmed =>
    simp only [stepEvents, hst, withCtx, List.getElem?_map, Option.map_eq_some_iff, Prod.mk.injEq] at hev
    obtain ⟨e, he, -, rfl⟩ := hev
    obtain ⟨-, hrecv⟩ := resetPulseEvents_silent s.cfg _ (List.mem_of_getElem? he)
    cases hrecv
  | initialized | synced | shimActive | erased | verified => rfl
  | closed | reset | done | failed => rw [hst] at he; cases he

/-- A step of an event list stays in its state, completes it, or fails at a read. -/
theorem seqEvent_st {s t : State} {k : RunKind} (hrun : s.run = some k) (he : s.pos.st.hasEvents = true)
    (hstep : (seqEvent s).settle = .next t) :
    t.pos.st = s.pos.st ∨ t.pos.st = s.pos.st.completes k ∨ (t.pos.st = .failed ∧ s.pos.st.canFail = true) := by
  have hbegun : (beginStep s).pos.st.hasEvents = true := by rwa [beginStep_pos]
  have hcompletes (u : State) (hr : u.run = s.run) (hst : u.pos.st = s.pos.st) :
      (finishStep u).pos.st = s.pos.st.completes k := by
    rw [finishStep_st (hr.trans hrun) (hst ▸ he), hst]
  cases hev : (stepEvents (beginStep s))[s.pos.ph.toNat]? with
  | none =>
    rw [seqEvent_none hev] at hstep
    cases hstep
    exact .inr (.inl (hcompletes _ (by simp) (by simp)))
  | some ce =>
    obtain ⟨c, e⟩ := ce
    rw [seqEvent_some hev] at hstep
    have hend := runEv_end c e (beginStep s)
    cases hu : runEv c e (beginStep s) with
    | ok u =>
      rw [hu] at hend hstep
      cases hend with
      | ok hmove =>
        have hst : u.pos.st = s.pos.st := by rw [hmove.pos, beginStep_pos]
        cases hstep
        dsimp only
        split
        · exact .inl hst
        · rcases finishEvents_st u with hloop | hdone
          · exact .inl (hloop.trans hst)
          · exact .inr (.inl (hdone.trans (hcompletes u (hmove.run.trans (beginStep_run s)) hst)))
    | err i u =>
      rw [hu] at hend hstep
      cases hend with
      | err _ _ _ _ hread =>
        obtain ⟨sh, rfl⟩ := hread
        cases hstep
        obtain ⟨hpos, -⟩ := enterFailed_spec i u
        have hcan := canFail_of_recv hbegun hev
        rw [beginStep_pos] at hcan
        exact .inr (.inr ⟨by rw [hpos], hcan⟩)
    | fault f => rw [hu] at hstep; cases hstep
    | refused x => rw [hu] at hstep; cases hstep

/-- The first step of a run opens the link or fails. -/
theorem seqOpen_st {s t : State} (hst : s.pos.st = .closed) (hstep : (seqOpen s).settle = .next t) :
    t.pos.st = .initialized ∨ t.pos.st = .failed := by
  rcases settle_next hstep with hok | ⟨e, u, -, rfl⟩
  · left
    unfold seqOpen at hok
    split at hok
    · cases hok
    · obtain ⟨u, hu, -, hyes, hno⟩ := opOpen_spec s.cfg.port s.cfg.baud s
      cases ha : s.env.opens.headD false
      · rw [(hno ha).1] at hok; cases hok
      · rw [(hyes ha).1] at hok
        cases hok
        simp [hu.pos, hst]
  · right
    obtain ⟨hpos, -⟩ := enterFailed_spec e u
    rw [hpos]

theorem SeqState.next_of_hasEvents {st : SeqState} (h : st.hasEvents = true) : st.next = some (st.next.getD st) := by
  cases st <;> trivial

/-- Settles O45: by the state the run stands in; `seqEvent_st` for the six that have an event list. -/
theorem runsFollowTheChain : Obligations.RunsFollowTheChain := by
  intro s t k hinv hrun hhost hstep
  rw [step_quiet hhost] at hstep
  cases he : s.pos.st.hasEvents with
  | true =>
    rw [seqStep_events hrun he] at hstep
    rcases seqEvent_st hrun he hstep with hstay | hdone | hfail
    · exact .inl hstay
    · rw [SeqState.completes] at hdone
      split at hdone
      case isTrue hlisten => exact .inr (.inr (.inr ⟨hlisten.2, hlisten.1, hdone⟩))
      case isFalse =>
        exact .inr (.inl (hdone ▸ SeqState.next_of_hasEvents he))
    · exact .inr (.inr (.inl hfail))
  | false =>
    obtain ⟨hdone, hfailed⟩ := (hinv.running k hrun).live
    cases hst : s.pos.st <;> simp only [hst, SeqState.hasEvents, Bool.true_eq_false] at he
    case closed =>
      rw [seqStep_closed hrun hst] at hstep
      rcases seqOpen_st hst hstep with hopened | hrefused
      · exact .inr (.inl (by rw [hopened]; rfl))
      · exact .inr (.inr (.inl ⟨hrefused, rfl⟩))
    case reset =>
      simp only [seqStep, hrun, hst] at hstep
      cases k with
      | download =>
        cases hstep
        exact .inr (.inl (by simp [finishRun_eq, opClose_pos, hst, SeqState.next]))
      | listen => cases hstep
    case done => exact absurd hst hdone
    case failed => exact absurd hst hfailed

end Sys2Proof.Machine
end

