-- ==== Sys2Proof/Proofs/Refinement.lean ====
section
/-! PROOFS. The steps of a run are the sequencers' operations (45_orchestrator.md R193; log 4, log 5): `handshake`, `loadAndRun` and
`chipErase` are one event list each, `blankCheck` and `writeImage` a loop of three events a turn. -/

namespace Sys2Proof.Machine

/-! ### The operations that are one list -/

theorem restart_self {s : State} {st : SeqState} (h : s.pos = { st := st, ph := 0#4, idx := 0#32 }) : restart s = s := by
  rw [restart, h, ← h]

/-- Settles O55: the list at `Initialized` in a download is that of `handshake`. -/
theorem handshakeStepsRefineTheOperation : Obligations.HandshakeStepsRefineTheOperation := by
  intro s hrun hhost hpos
  rw [exec, execHandshake, restart_self hpos]
  exact steps_operation (es := handshakeEvents s.cfg) hrun hhost hpos (by simp [SeqState.hasEvents, SeqState.Loops]) rfl
    (c := ctxHandshake) (by simp [stepEvents, hpos, hrun]) (by simp [handshakeEvents])

/-- An event with its data read from the input memories, where they have it. -/
def Ev.given (img shm : Memory) : Ev → Ev
  | .sendShim n => ((memRead shm 0 n).map fun bytes => Ev.send (.shimData bytes)).getD (.sendShim n)
  | .sendPage a off n => ((memRead img off n).map fun data => Ev.send (.pageWrite a data)).getD (.sendPage a off n)
  | e => e

/-- The sequencer reads a message's data when it sends it; reading it before is the same (20_memory.md R65). -/
theorem runEv_given (c : Ctx) (e : Ev) (s : State) : runEv c (e.given s.img s.shm) s = runEv c e s := by
  cases e with
  | sendShim n => cases h : memRead s.shm 0 n <;> simp [Ev.given, runEv, h]
  | sendPage a off n => cases h : memRead s.img off n <;> simp [Ev.given, runEv, h]
  | setReset _ | wait _ | discard | send _ | recv _ => rfl

theorem runList_given (k : Nat) (ces : List (Ctx × Ev)) {img shm : Memory} {s : State} (himg : s.img = img) (hshm : s.shm = shm) :
    runList k (ces.map (Prod.map id (Ev.given img shm))) s = runList k ces s := by
  induction ces generalizing k s with
  | nil => rfl
  | cons ce ces ih =>
    subst himg hshm
    rw [List.map_cons, runList_cons, runList_cons]
    have hfirst : runEv ce.1 (ce.2.given s.img s.shm) (setPh k s) = runEv ce.1 ce.2 (setPh k s) := runEv_given ce.1 ce.2 (setPh k s)
    have hmoved := runEv_moved ce.1 ce.2 k s
    rw [Prod.map_fst, Prod.map_snd, id, hfirst]
    cases hr : runEv ce.1 ce.2 (setPh k s) with
    | ok t =>
      obtain ⟨-, himg, hshm, -⟩ := (hmoved.ok hr).inputs
      exact ih (k + 1) himg hshm
    | err | fault | refused => rfl

/-- The event list at `Synced`, with the shim memory's bytes: the three exchanges of `loadAndRun`. -/
theorem runList_synced {s : State} {shim : List Byte} (hst : s.pos.st = .synced)
    (hshim : memRead s.shm 0 s.cfg.shimLen.toNat = some shim) :
    runList 0 (stepEvents s) s =
      ((runEvents ctxRamInit 0 (ramInitEvents s.cfg.ramBase (BitVec.ofNat 16 shim.length)) s).andThen
        (runEvents ctxShimData 2 (shimDataEvents shim))).andThen (runEvents ctxJump 4 jumpEvents) := by
  have hlen : BitVec.ofNat 16 shim.length = s.cfg.shimLen := by rw [memRead_length hshim, BitVec.ofNat_toNat, BitVec.setWidth_eq]
  have hgiven : (stepEvents s).map (Prod.map id (Ev.given s.img s.shm)) =
      withCtx ctxRamInit (ramInitEvents s.cfg.ramBase s.cfg.shimLen) ++ withCtx ctxShimData (shimDataEvents shim)
        ++ withCtx ctxJump jumpEvents := by
    simp [stepEvents, hst, withCtx, ramInitEvents, shimDataEvents, jumpEvents, Ev.given, hshim]
  have hctx (c : Ctx) (k : Nat) (es : List Ev) : runList k (withCtx c es) = runEvents c k es := funext (runList_withCtx c k es)
  rw [← runList_given 0 _ rfl rfl, hgiven, runList_append, runList_append, hctx, hctx, hctx, hlen]
  rfl

/-- Settles O56: at `Synced` the list is three exchanges, each with its own context and one with its data from the shim memory; at
`ShimActive` it is that of `chipErase`. -/
theorem loadAndEraseStepsRefineTheOperations : Obligations.LoadAndEraseStepsRefineTheOperations := by
  refine ⟨fun s shim hrun hhost hpos hshim => ?load, fun s hrun hhost hpos => ?erase⟩
  case load =>
    have hst : s.pos.st = .synced := by rw [hpos]
    have hlen : shim.length ≤ 65535 := by
      have hwidth := s.cfg.shimLen.isLt
      rw [memRead_length hshim]
      omega
    have hsix : (stepEvents s).length = 6 := by simp [stepEvents, hst, withCtx, ramInitEvents, jumpEvents]
    have hsteps := steps_once (st' := .shimActive) hrun hhost hpos (by simp [SeqState.hasEvents, SeqState.Loops]) rfl rfl
      (List.ne_nil_of_length_pos (by rw [hsix]; decide))
    rw [hsix, runList_synced hst hshim] at hsteps
    rw [exec, execLoadAndRun, if_pos hlen, restart_self hpos, hsteps]
  case erase =>
    rw [exec, execChipErase, restart_self hpos]
    exact steps_operation (es := chipEraseEvents) hrun hhost hpos (by simp [SeqState.hasEvents, SeqState.Loops]) rfl
      (c := ctxChipErase) (by simp [stepEvents, hpos]) (by simp [chipEraseEvents])

end Sys2Proof.Machine
end

