-- ==== Sys2Proof/Proofs/LoopRefinement.lean ====
section
/-! PROOFS. The steps of a run at `Erased` and at `Verified` are the loops of `blankCheck` and `writeImage` (45_orchestrator.md R193,
44_flashprogrammer.md R172, R176): three steps a turn, and one where the loop has nothing to do. -/

namespace Sys2Proof.Machine

/-! ### A loop, turn by turn -/

/-- Perform `turn` for each index in order; an error ends the loop. -/
def runLoop (turn : Nat → State → Res) : List Nat → State → Res
  | [], s => .ok s
  | i :: is, s => (turn i s).andThen (runLoop turn is)

/-- `blankCheckSegment` for segment `i` (44_flashprogrammer.md R176). -/
def segmentTurn (start : Word) (size : Half) (i : Nat) (s : State) : Res :=
  runEvents ctxSegment 0 (segmentEvents (segmentAddr start size.toNat i) size) (setIdx i s)

/-- `writePage` for page `i`, and the bytes written off `REM` (44_flashprogrammer.md R172). -/
def pageTurn (a : Word) (image : List Byte) (p : Nat) (i : Nat) (s : State) : Res :=
  (runEvents ctxPage 0 (pageEvents (pageAddr a p i) (pageData image p i)) (setIdx i s)).map
    (reduceRem (pageData image p i).length)

theorem segmentLoop_eq (start : Word) (size : Half) (is : List Nat) (s : State) :
    segmentLoop start size is s = runLoop (segmentTurn start size) is s := by
  induction is generalizing s with
  | nil => rfl
  | cons i is ih =>
    rw [segmentLoop, runLoop, funext ih]
    rfl

theorem pageLoop_eq (a : Word) (image : List Byte) (p : Nat) (is : List Nat) (s : State) :
    pageLoop a image p is s = runLoop (pageTurn a image p) is s := by
  induction is generalizing s with
  | nil => rfl
  | cons i is ih =>
    simp only [pageLoop, runLoop, pageTurn, map_andThen, ih]

theorem execBlankCheck_eq {start : Word} {size : Half} {count : Word} {s : State}
    (hrange : blankRangeOk start.toNat size.toNat count.toNat = true) :
    execBlankCheck start size count s =
      ((runLoop (segmentTurn start size) (List.range count.toNat) (restart s)).map (advance .erased .verified)).settle := by
  rw [execBlankCheck, if_pos hrange, segmentLoop_eq]

/-- `writeImage` before its first page (44_flashprogrammer.md R172): `REM` is the length of the image. -/
def beginImage (image : List Byte) (s : State) : State := { s with wrk := { s.wrk with rem := BitVec.ofNat 32 image.length } }

theorem execWriteImage_eq {a : Word} {image : List Byte} {p : Half} {s : State}
    (hrange : imageRangeOk a.toNat image.length p.toNat = true) :
    execWriteImage a image p s =
      ((runLoop (pageTurn a image p.toNat) (List.range (pageCount image.length p.toNat)) (beginImage image (restart s))).map
        (advance .verified .programmed)).settle := by
  rw [execWriteImage, if_pos hrange, ← pageLoop_eq]
  rfl

/-- A turn of a loop of `n` as three steps of a run; `At i` says where the run stands before turn `i`. -/
structure LoopSteps (n : Nat) (turn : Nat → State → Res) (fin : State → State) (At : Nat → State → Prop) : Prop where
  steps : ∀ i s, i < n → At i s →
    steps 3 s = ((turn i s).map fun t => if i + 1 < n then nextIteration t else fin t).settle
  quiet : ∀ i s e u, At i s → turn i s = .err e u → u.host = []
  next : ∀ i s t, i + 1 < n → At i s → turn i s = .ok t → At (i + 1) (nextIteration t)
  /-- A turn sets `IDX` and `PH` itself. -/
  begins : ∀ i s, turn i (nextIteration s) = turn i s

/-- The turns left, three steps each, are the rest of the loop. -/
theorem LoopSteps.run {n : Nat} {turn : Nat → State → Res} {fin : State → State} {At : Nat → State → Prop}
    (h : LoopSteps n turn fin At) (m i : Nat) {s : State} (hleft : i + m + 1 = n) (hat : At i s) :
    Machine.steps (3 * (m + 1)) s = ((runLoop turn (List.range' i (m + 1)) s).map fin).settle := by
  induction m generalizing i s with
  | zero =>
    have hlast : ¬ i + 1 < n := by omega
    have hthree := h.steps i s (by omega) hat
    simp only [hlast, if_false] at hthree
    rw [hthree, List.range'_one, runLoop, andThen_map]
    rfl
  | succ m ih =>
    have hmore : i + 1 < n := by omega
    have hthree := h.steps i s (by omega) hat
    simp only [hmore, if_true] at hthree
    have hrest (t : State) (ht : turn i s = .ok t) :
        Machine.steps (3 * (m + 1)) (nextIteration t) =
          ((runLoop turn (List.range' (i + 1) (m + 1)) t).map fin).settle := by
      rw [ih (i + 1) (by omega) (h.next i s t hmore hat ht), List.range'_succ, runLoop, h.begins, ← runLoop]
    rw [show 3 * (m + 1 + 1) = 3 + 3 * (m + 1) by omega, List.range'_succ, runLoop, andThen_map]
    exact steps_andThen hthree (fun e u hr => h.quiet i s e u hat hr) hrest

/-- The whole loop. -/
theorem LoopSteps.run_all {n : Nat} {turn : Nat → State → Res} {fin : State → State} {At : Nat → State → Prop}
    (h : LoopSteps n turn fin At) (hn : n ≠ 0) {s : State} (hat : At 0 s) :
    Machine.steps (3 * n) s = ((runLoop turn (List.range n) s).map fin).settle := by
  obtain ⟨m, rfl⟩ := Nat.exists_eq_succ_of_ne_zero hn
  rw [List.range_eq_range']
  exact h.run m 0 (by omega) hat

/-- A run stands at the beginning of turn `i` of the loop that starts in `st`. -/
structure AtTurn (st : SeqState) (s0 : State) (i : Nat) (s : State) : Prop where
  run : s.run = some .download
  quiet : s.host = []
  pos : s.pos = { st := st, ph := 0#4, idx := BitVec.ofNat 32 i }
  inputs : sameInputs s0 s

theorem AtTurn.setIdx_self {st : SeqState} {s0 : State} {i : Nat} {s : State} (h : AtTurn st s0 i s) : setIdx i s = s := by
  have hidx : BitVec.ofNat 32 i = s.pos.idx := by rw [h.pos]
  rw [setIdx, hidx]

theorem AtTurn.next {st : SeqState} {s0 : State} {i : Nat} {s t : State} (h : AtTurn st s0 i s) (hmove : EventsMove s t) :
    AtTurn st s0 (i + 1) (nextIteration t) where
  run := hmove.run.trans h.run
  quiet := hmove.host.trans h.quiet
  pos := by
    simp only [nextIteration_pos, hmove.st, hmove.idx, h.pos, BitVec.ofNat_add]
  inputs := h.inputs.trans hmove.inputs

theorem ofNat_toNat_of_lt {i : Nat} {n : Word} (h : i < n.toNat) : (BitVec.ofNat 32 i).toNat = i := by
  have hn := n.isLt
  rw [BitVec.toNat_ofNat]
  omega

/-! ### `blankCheck` (44_flashprogrammer.md R176) -/

/-- Where a segment of a run leads (10_state.md R23). -/
theorem finishEvents_erased {s : State} (h : s.pos.st = .erased) :
    finishEvents s = if s.pos.idx.toNat + 1 < s.cfg.blankCount.toNat then nextIteration s else advance .erased .verified s := by
  simp only [finishEvents, finishStep, h]

theorem segmentSteps (s0 : State) :
    LoopSteps s0.cfg.blankCount.toNat (segmentTurn s0.cfg.blankStart s0.cfg.blankPage) (advance .erased .verified)
      (AtTurn .erased s0) where
  steps i s hi hat := by
    have hidx := ofNat_toNat_of_lt hi
    obtain ⟨hcfg, -⟩ := hat.inputs
    have hin : InList (withCtx ctxSegment
        (segmentEvents (segmentAddr s0.cfg.blankStart s0.cfg.blankPage.toNat i) s0.cfg.blankPage)) s :=
      ⟨by rw [State.busy, hat.run]; rfl, hat.quiet, by rw [hat.pos]; rfl, by rw [hat.pos]; nofun,
        by simp only [stepEvents, hat.pos, hcfg, hidx, hi, if_true]⟩
    have hthree := hin.steps_operation (by rw [hat.pos]) (by simp [segmentEvents])
      (fin := fun t => if i + 1 < s0.cfg.blankCount.toNat then nextIteration t else advance .erased .verified t)
      fun t m => by rw [finishEvents_erased (m.st.trans (by rw [hat.pos])), m.idx, m.cfg, hat.pos, hcfg, hidx]
    rw [segmentTurn, hat.setIdx_self]
    exact hthree
  quiet i s e u hat hr := ((runEvents_moved _ _ _ _).err_host hr).trans hat.quiet
  next i s t _ hat hr := by
    rw [segmentTurn, hat.setIdx_self] at hr
    exact hat.next ((runEvents_moved _ _ _ _).ok hr)
  begins _ _ := rfl

/-- Without a segment the one step completes the loop. -/
theorem step_blankCheck_empty {s : State} (hrun : s.run = some .download) (hhost : s.host = []) (hst : s.pos.st = .erased)
    (hcount : s.cfg.blankCount = 0#32) : step s = .next (advance .erased .verified s) := by
  have hbegun : beginStep s = s := if_neg fun ⟨hv, _⟩ => by simp [hst] at hv
  have hnone : (stepEvents (beginStep s))[s.pos.ph.toNat]? = none := by simp [hbegun, stepEvents, hst, hcount]
  rw [step_quiet hhost, seqStep_events hrun (by rw [hst]; rfl), seqEvent_none hnone, hbegun, settle_ok]
  simp only [finishStep, hst]

/-- Settles O57: `segmentSteps` turn by turn; the range precondition is one of those of the start (45_orchestrator.md R190). -/
theorem blankCheckStepsRefineTheOperation : Obligations.BlankCheckStepsRefineTheOperation := by
  intro s hrun hhost hpos hok
  have hrange : blankRangeOk s.cfg.blankStart.toNat s.cfg.blankPage.toNat s.cfg.blankCount.toNat = true :=
    (Bool.and_eq_true_iff.mp hok).2
  rw [exec, execBlankCheck_eq hrange, restart_self hpos]
  refine ⟨fun hcount => ?segments, fun hcount => ?none⟩
  case segments =>
    exact (segmentSteps s).run_all (by bv_omega) ⟨hrun, hhost, hpos, rfl, rfl, rfl, rfl⟩
  case none =>
    rw [steps_one, step_blankCheck_empty hrun hhost (by rw [hpos]) hcount, hcount]
    rfl

/-! ### `writeImage` (44_flashprogrammer.md R172) -/

theorem map_map (r : Res) (f g : State → State) : (r.map f).map g = r.map fun t => g (f t) := by
  cases r <;> rfl

theorem map_eq_ok {r : Res} {f : State → State} {t : State} (h : r.map f = .ok t) : ∃ u, r = .ok u ∧ t = f u := by
  cases r with
  | ok u => cases h; exact ⟨u, rfl, rfl⟩
  | err | fault | refused => cases h

theorem map_eq_err {r : Res} {f : State → State} {e : ErrInfo} {u : State} (h : r.map f = .err e u) : r = .err e u := by
  cases r with
  | err e u => exact h
  | ok | fault | refused => cases h

/-- A run stands before page `i`, and `REM` counts what is left of the image (10_state.md R25). -/
structure AtPage (s0 : State) (i : Nat) (s : State) : Prop extends AtTurn .verified s0 i s where
  rem : s.wrk.rem.toNat = s0.cfg.imgLen.toNat - s0.cfg.writePage.toNat * i

section
variable {s0 s t : State} {image : List Byte} {i : Nat} (hpage : 1 ≤ s0.cfg.writePage.toNat)
  (himage : memRead s0.img 0 s0.cfg.imgLen.toNat = some image)
  (hi : i < pageCount s0.cfg.imgLen.toNat s0.cfg.writePage.toNat) (hat : AtPage s0 i s)

include hpage hi in
/-- There are fewer pages than `IDX` can count. -/
theorem pageIndex_toNat : (BitVec.ofNat 32 i).toNat = i := by
  have hoffset := (lt_pageCount_iff hpage i).mp hi
  have hle : i ≤ s0.cfg.writePage.toNat * i := Nat.le_mul_of_pos_left i hpage
  exact ofNat_toNat_of_lt (n := s0.cfg.imgLen) (by omega)

include hpage hi hat in
/-- Before a page there is something left of the image. -/
theorem AtPage.rem_ne_zero : s.wrk.rem ≠ 0#32 := by
  intro hzero
  have hoffset := (lt_pageCount_iff hpage i).mp hi
  have hleft : 0 = _ := hzero ▸ hat.rem
  omega

include himage hat

/-- `min(pageSize, x[REM])` is the length of the page (44_flashprogrammer.md R169, R172). -/
theorem AtPage.pageLen_eq : pageLen s = (pageData image s0.cfg.writePage.toNat i).length := by
  rw [pageLen, pageData_length, memRead_length himage, hat.rem, hat.inputs.1]

/-- `REM` after page `i` (44_flashprogrammer.md R172). -/
theorem AtPage.rem_reduced (hrem : t.wrk.rem = s.wrk.rem) :
    (reduceRem (pageData image s0.cfg.writePage.toNat i).length t).wrk.rem.toNat =
      s0.cfg.imgLen.toNat - s0.cfg.writePage.toNat * (i + 1) := by
  have hwidth := s.wrk.rem.isLt
  have hleft := hat.rem
  have hlen := memRead_length himage
  simp only [reduceRem_wrk, hrem, BitVec.toNat_sub, BitVec.toNat_ofNat, pageData_length, hlen, Nat.mul_add_one]
  omega

include hpage

/-- After page `i` the loop goes on while there is a page left (10_state.md R23). -/
theorem AtPage.finishEvents_eq (hmove : EventsMove s t) :
    finishEvents t = (fun u => if i + 1 < pageCount s0.cfg.imgLen.toNat s0.cfg.writePage.toNat then nextIteration u
      else advance .verified .programmed u) (reduceRem (pageData image s0.cfg.writePage.toNat i).length t) := by
  have hst : t.pos.st = .verified := hmove.st.trans (by rw [hat.pos])
  have hlen : pageLen t = (pageData image s0.cfg.writePage.toNat i).length := by
    rw [← hat.pageLen_eq himage, pageLen, pageLen, hmove.cfg, hmove.rem]
  have hleft := hat.rem_reduced himage hmove.rem
  have hlast : (reduceRem (pageData image s0.cfg.writePage.toNat i).length t).wrk.rem = 0#32 ↔
      ¬ i + 1 < pageCount s0.cfg.imgLen.toNat s0.cfg.writePage.toNat := by
    rw [lt_pageCount_iff hpage, ← BitVec.toNat_inj, hleft]
    simp [Nat.sub_eq_zero_iff_le]
  simp only [finishEvents, hst, hlen, finishStep, reduceRem_pos, hlast, ite_not]

include hi

/-- What the sequencer reads for page `i` is that page of the image. -/
theorem AtPage.memRead_page :
    memRead s.img (s0.cfg.writePage.toNat * i) (pageLen s) = some (pageData image s0.cfg.writePage.toNat i) := by
  have hoffset := (lt_pageCount_iff hpage i).mp hi
  have hlen := memRead_length himage
  obtain ⟨-, himg, -⟩ := hat.inputs
  rw [hat.pageLen_eq himage, pageData_length, himg, memRead_piece himage _ _ (by omega), pageData, Option.some_inj,
    List.take_eq_take_iff, List.length_drop, Nat.min_assoc, Nat.min_self]

/-- The event list before page `i`, with the page's bytes: that of `writePage`. -/
theorem AtPage.runList_eq :
    runList 0 (stepEvents s) s =
      runEvents ctxPage 0 (pageEvents (pageAddr s0.cfg.imgAddr s0.cfg.writePage.toNat i) (pageData image s0.cfg.writePage.toNat i))
        s := by
  have hrem := hat.rem_ne_zero hpage hi
  have hgiven : (stepEvents s).map (Prod.map id (Ev.given s.img s.shm)) = withCtx ctxPage
      (pageEvents (pageAddr s0.cfg.imgAddr s0.cfg.writePage.toNat i) (pageData image s0.cfg.writePage.toNat i)) := by
    simp [stepEvents, hat.pos, hrem, withCtx, pageEvents, Ev.given, hat.inputs.1, pageIndex_toNat hpage hi,
      hat.memRead_page hpage himage hi]
  rw [← runList_given 0 _ rfl rfl, hgiven, runList_withCtx]

/-- The three steps at page `i`. -/
theorem AtPage.steps_eq :
    steps 3 s = ((pageTurn s0.cfg.imgAddr image s0.cfg.writePage.toNat i s).map fun t =>
      if i + 1 < pageCount s0.cfg.imgLen.toNat s0.cfg.writePage.toNat then nextIteration t
      else advance .verified .programmed t).settle := by
  have hthree : (stepEvents s).length = 3 := by
    simp [stepEvents, hat.pos, hat.rem_ne_zero hpage hi, withCtx]
  have hbegun (hidx : s.pos.idx = 0#32) : s.wrk.rem = s.cfg.imgLen := by
    have hzero : BitVec.ofNat 32 i = 0#32 := by rw [← hidx, hat.pos]
    obtain rfl : 0 = i := by simpa [hzero] using pageIndex_toNat hpage hi
    rw [← BitVec.toNat_inj, hat.rem, hat.inputs.1, Nat.mul_zero, Nat.sub_zero]
  have hin : InList (stepEvents s) s :=
    ⟨by rw [State.busy, hat.run]; rfl, hat.quiet, by rw [hat.pos]; rfl, fun _ => hbegun, rfl⟩
  have hsteps := hin.steps_all (by rw [hat.pos]) (List.ne_nil_of_length_pos (by rw [hthree]; decide))
    fun t m => hat.finishEvents_eq hpage himage m
  rw [hthree, hat.runList_eq hpage himage hi] at hsteps
  rw [pageTurn, hat.setIdx_self, map_map]
  exact hsteps

end

theorem AtTurn.reduceRem {st : SeqState} {s0 : State} {i : Nat} {s : State} (h : AtTurn st s0 i s) (n : Nat) :
    AtTurn st s0 i (reduceRem n s) := { h with }

theorem pageSteps {s0 : State} {image : List Byte} (hpage : 1 ≤ s0.cfg.writePage.toNat)
    (himage : memRead s0.img 0 s0.cfg.imgLen.toNat = some image) :
    LoopSteps (pageCount s0.cfg.imgLen.toNat s0.cfg.writePage.toNat)
      (pageTurn s0.cfg.imgAddr image s0.cfg.writePage.toNat) (advance .verified .programmed) (AtPage s0) where
  steps i s hi hat := hat.steps_eq hpage himage hi
  quiet i s e u hat hr := ((runEvents_moved _ _ _ _).err_host (map_eq_err hr)).trans hat.quiet
  next i s t hi hat hr := by
    rw [pageTurn, hat.setIdx_self] at hr
    obtain ⟨u, hu, rfl⟩ := map_eq_ok hr
    have hmove := (runEvents_moved _ _ _ _).ok hu
    exact ⟨(hat.toAtTurn.next hmove).reduceRem _, hat.rem_reduced himage hmove.rem⟩
  begins _ _ := rfl

/-- `writeImage` begins once: `REM` is loaded at the first step (44_flashprogrammer.md R172). -/
theorem beginStep_idem (s : State) : beginStep (beginStep s) = beginStep s := by
  unfold beginStep
  split <;> simp_all

theorem step_beginStep {s : State} {k : RunKind} (hrun : s.run = some k) (hhost : s.host = [])
    (he : s.pos.st.hasEvents = true) : step (beginStep s) = step s := by
  rw [step_quiet hhost, step_quiet (by rwa [beginStep_host]), seqStep_events hrun he,
    seqStep_events (by rwa [beginStep_run]) (by rwa [beginStep_pos]), seqEvent, seqEvent, beginStep_idem]

theorem steps_beginStep {s : State} {k : RunKind} (hrun : s.run = some k) (hhost : s.host = [])
    (he : s.pos.st.hasEvents = true) {n : Nat} (hn : n ≠ 0) : steps n (beginStep s) = steps n s := by
  obtain ⟨m, rfl⟩ := Nat.exists_eq_succ_of_ne_zero hn
  rw [steps_succ, steps_succ, step_beginStep hrun hhost he]

/-- Without a page the one step completes the loop. -/
theorem step_writeImage_empty {s : State} (hrun : s.run = some .download) (hhost : s.host = []) (hst : s.pos.st = .verified)
    (hrem : (beginStep s).wrk.rem = 0#32) : step s = .next (advance .verified .programmed (beginStep s)) := by
  have hnone : (stepEvents (beginStep s))[s.pos.ph.toNat]? = none := by simp [stepEvents, hst, hrem]
  rw [step_quiet hhost, seqStep_events hrun (by rw [hst]; rfl), seqEvent_none hnone, settle_ok]
  simp only [finishStep, beginStep_pos, hst]

/-- Settles O58: `pageSteps` turn by turn from the state in which `writeImage` has begun. -/
theorem writeImageStepsRefineTheOperation : Obligations.WriteImageStepsRefineTheOperation := by
  intro s image hrun hhost hpos hok himage
  have hrange : imageRangeOk s.cfg.imgAddr.toNat image.length s.cfg.writePage.toNat = true := by
    rw [memRead_length himage]
    exact (Bool.and_eq_true_iff.mp hok).1
  obtain ⟨hpage, -⟩ := imageRangeOk_iff.mp hrange
  have hlen : image.length = s.cfg.imgLen.toNat := memRead_length himage
  have hbegun : beginStep s = beginImage image s := by
    rw [beginImage, hlen, BitVec.ofNat_toNat, BitVec.setWidth_eq]
    exact if_pos (by simp [hpos])
  have he : s.pos.st.hasEvents = true := by rw [hpos]; rfl
  rw [exec, execWriteImage_eq hrange, restart_self hpos, ← hbegun, hlen]
  refine ⟨fun hsome => ?pages, fun hempty => ?none⟩
  case pages =>
    have hpages : pageCount s.cfg.imgLen.toNat s.cfg.writePage.toNat ≠ 0 := pageCount_ne_zero (by bv_omega) hpage
    have hat : AtPage s 0 (beginStep s) :=
      ⟨⟨by simpa, by simpa, by simpa using hpos, by simp [sameInputs]⟩, by simp [hbegun, beginImage, hlen]⟩
    rw [← steps_beginStep hrun hhost he (by omega), (pageSteps hpage himage).run_all hpages hat]
  case none =>
    have hrem : (beginStep s).wrk.rem = 0#32 := by simp [hbegun, beginImage, hlen, hempty]
    have hnoPage : pageCount s.cfg.imgLen.toNat s.cfg.writePage.toNat = 0 := by
      have hnone := (lt_pageCount_iff (L := s.cfg.imgLen.toNat) hpage 0).not.mpr (by simp [hempty])
      omega
    rw [steps_one, step_writeImage_empty hrun hhost (by rw [hpos]) hrem, hnoPage]
    rfl

end Sys2Proof.Machine
end

