-- ==== Sys2Proof/Proofs/RunEnds.lean ====
section
/-! PROOFS. Every download run comes to its end (45_orchestrator.md R196, R199): each of its steps is an operation that, on an open
transport and with its inputs supplied, ends normally or raises an error, and both lead on. -/

namespace Sys2Proof.Machine

/-! ### Operations that have a step -/

/-- What an operation of the sequence leaves alone until it is completed, whatever the environment does. -/
structure StageMove (s t : State) : Prop where
  st : t.pos.st = s.pos.st
  run : t.run = s.run
  err : t.err = s.err
  tOpen : t.link.tOpen = s.link.tOpen
  inputs : sameInputs s t

theorem StageMove.refl (s : State) : StageMove s s := ⟨rfl, rfl, rfl, rfl, rfl, rfl, rfl, rfl⟩

theorem StageMove.trans {s t u : State} (h : StageMove s t) (h' : StageMove t u) : StageMove s u :=
  ⟨h'.st.trans h.st, h'.run.trans h.run, h'.err.trans h.err, h'.tOpen.trans h.tOpen, h.inputs.trans h'.inputs⟩

theorem EventsMove.stageMove {s t : State} (h : EventsMove s t) : StageMove s t := ⟨h.st, h.run, h.err, h.tOpen, h.inputs⟩

/-- An operation begun at `s` has a step: it ends normally or raises an error. -/
def Res.Concludes (s : State) : Res → Prop
  | .ok t | .err _ t => StageMove s t
  | .fault _ | .refused _ => False

theorem Res.Concludes.after {s t : State} {r : Res} (h : StageMove s t) (hr : r.Concludes t) : r.Concludes s := by
  cases r with
  | ok u | err e u => exact StageMove.trans h hr
  | fault | refused => exact hr

theorem Res.Concludes.andThen {s : State} {r : Res} {k : State → Res} (hr : r.Concludes s)
    (hk : ∀ t, StageMove s t → (k t).Concludes t) : (r.andThen k).Concludes s := by
  cases r with
  | ok t => exact .after hr (hk t hr)
  | err | fault | refused => exact hr

/-- Events with their data given run on an open transport (40_transport.md R100; log 15). -/
theorem runEvents_concludes (c : Ctx) (k : Nat) {es : List Ev} {s : State} (hdirect : ∀ e ∈ es, e.direct = true)
    (hopen : s.link.tOpen = true) : (runEvents c k es s).Concludes s := by
  have hmoved := runEvents_moved c k es s
  have hend := runEvents_end c k es s
  cases hr : runEvents c k es s with
  | ok t | err e t =>
    rw [hr] at hmoved
    exact EventsMove.stageMove hmoved
  | fault f =>
    rw [hr] at hend
    cases hend with
    | fault hf =>
      rcases hf with ⟨n, hmem, -⟩ | ⟨a, o, n, hmem, -⟩
      · exact absurd (hdirect _ hmem) (by simp [Ev.direct])
      · exact absurd (hdirect _ hmem) (by simp [Ev.direct])
  | refused x =>
    rw [hr] at hend
    cases hend with
    | refused hclosed => rw [hopen] at hclosed; cases hclosed

theorem runLoop_concludes {turn : Nat → State → Res} (hturn : ∀ i s, s.link.tOpen = true → (turn i s).Concludes s)
    (is : List Nat) {s : State} (hopen : s.link.tOpen = true) : (runLoop turn is s).Concludes s := by
  induction is generalizing s with
  | nil => exact .refl s
  | cons i is ih => exact (hturn i s hopen).andThen fun t hmove => ih (hmove.tOpen.trans hopen)

theorem StageMove.of_bookkeeping {s t : State} (h : t = { s with pos := t.pos, wrk := t.wrk }) (hst : t.pos.st = s.pos.st) :
    StageMove s t := by
  refine ⟨hst, ?_, ?_, ?_, ?_⟩ <;> rw [h]
  exact ⟨rfl, rfl, rfl, rfl⟩

theorem segmentTurn_concludes (start : Word) (size : Half) (i : Nat) {s : State} (hopen : s.link.tOpen = true) :
    (segmentTurn start size i s).Concludes s :=
  .after (.of_bookkeeping (t := setIdx i s) rfl rfl) (runEvents_concludes _ _ (by simp [segmentEvents, Ev.direct]) hopen)

theorem pageTurn_concludes (a : Word) (image : List Byte) (p i : Nat) {s : State} (hopen : s.link.tOpen = true) :
    (pageTurn a image p i s).Concludes s := by
  have hpage : (runEvents ctxPage 0 (pageEvents (pageAddr a p i) (pageData image p i)) (setIdx i s)).Concludes s :=
    .after (.of_bookkeeping (t := setIdx i s) rfl rfl) (runEvents_concludes _ _ (by simp [pageEvents, Ev.direct]) hopen)
  exact hpage.andThen fun t _ => StageMove.of_bookkeeping (t := reduceRem _ t) rfl rfl

/-! ### The steps as `downloadSteps` counts them -/

theorem steps_blankCheck {s : State} (hrun : s.run = some .download) (hhost : s.host = [])
    (hpos : s.pos = { st := .erased, ph := 0#4, idx := 0#32 }) (hok : s.cfg.downloadOk = true) :
    steps (if s.cfg.blankCount.toNat = 0 then 1 else 3 * s.cfg.blankCount.toNat) s =
      exec (.blankCheck s.cfg.blankStart s.cfg.blankPage s.cfg.blankCount) s := by
  obtain ⟨hsegments, hnone⟩ := blankCheckStepsRefineTheOperation s hrun hhost hpos hok
  split
  · exact hnone (by bv_omega)
  · exact hsegments (by bv_omega)

theorem steps_writeImage {s : State} {image : List Byte} (hrun : s.run = some .download) (hhost : s.host = [])
    (hpos : s.pos = { st := .verified, ph := 0#4, idx := 0#32 }) (hok : s.cfg.downloadOk = true)
    (himage : memRead s.img 0 s.cfg.imgLen.toNat = some image) :
    steps (if s.cfg.imgLen.toNat = 0 then 1 else 3 * pageCount s.cfg.imgLen.toNat s.cfg.writePage.toNat) s =
      exec (.writeImage s.cfg.imgAddr image s.cfg.writePage) s := by
  obtain ⟨hpages, hnone⟩ := writeImageStepsRefineTheOperation s image hrun hhost hpos hok himage
  split
  · exact hnone (by bv_omega)
  · exact hpages (by bv_omega)

/-- The steps at `Programmed` are the reset pulse (45_orchestrator.md R193). -/
theorem steps_resetPulse {s : State} (hrun : s.run = some .download) (hhost : s.host = [])
    (hpos : s.pos = { st := .programmed, ph := 0#4, idx := 0#32 }) :
    steps 6 s = ((runEvents ctxResetPulse 0 (resetPulseEvents s.cfg) s).map (advance .programmed .reset)).settle :=
  steps_operation (es := resetPulseEvents s.cfg) hrun hhost hpos (by simp [SeqState.hasEvents, SeqState.Loops]) rfl
    (by simp [stepEvents, hpos]) (by simp [resetPulseEvents])

/-! ### The stages of a run -/

/-- The run that began at `s0` stands where the step that starts in `st` begins. -/
structure AtStage (s0 : State) (st : SeqState) (s : State) : Prop where
  run : s.run = some .download
  pos : s.pos = { st := st, ph := 0#4, idx := 0#32 }
  linked : s.link.tOpen = true
  err : s.err = s0.err
  inputs : sameInputs s0 s

/-- A run that has failed (45_orchestrator.md R196): the transport is released and the block idle. -/
structure Stopped (s : State) : Prop where
  st : s.pos.st = .failed
  idle : s.busy = false
  released : s.link.tOpen = false
  quiet : s.host = []

/-- Steps of the run that began at `s0` lead to a state, where it has failed or stands at the stage `st`. -/
def Reaches (s0 : State) (st : SeqState) (o : Host.Outcome State Fault Refusal) : Prop :=
  ∃ t, o = .next t ∧ (Stopped t ∨ AtStage s0 st t)

theorem enterFailed_stopped (e : ErrInfo) {s : State} (hbusy : s.busy = true) (hhost : s.host = []) :
    Stopped (enterFailed e s) := by
  obtain ⟨hpos, hrun, -, -, -, -, hhost', -, -, -, -, -, hreleased⟩ := enterFailed_spec e s
  obtain ⟨hclosed, -⟩ := hreleased hbusy
  exact ⟨by rw [hpos], by rw [State.busy, hrun]; rfl, hclosed, hhost'.trans hhost⟩

/-- Stage after stage; a run that has failed stays so. -/
theorem Reaches.next {s0 : State} {st st' : SeqState} {n m : Nat} (h : Reaches s0 st (steps n s0))
    (hstage : ∀ t, AtStage s0 st t → Reaches s0 st' (steps m t)) : Reaches s0 st' (steps (n + m) s0) := by
  obtain ⟨t, hsteps, hstopped | hat⟩ := h
  · exact ⟨t, steps_append hsteps (idleBlockDoesNothing t m hstopped.idle hstopped.quiet), .inl hstopped⟩
  · rw [steps_add, hsteps]
    exact hstage t hat

section
variable {s0 s : State} {st st' : SeqState} (hhost : s0.host = [])
include hhost

theorem AtStage.quiet (h : AtStage s0 st s) : s.host = [] := by
  obtain ⟨-, -, -, hsame⟩ := h.inputs
  exact hsame.trans hhost

/-- An operation that concludes leads to the next stage or ends the run. -/
theorem AtStage.completes (h : AtStage s0 st s) {r : Res} (hr : r.Concludes s) :
    Reaches s0 st' (r.map (advance st st')).settle := by
  cases r with
  | ok t =>
    have hmove : StageMove s t := hr
    have hst : t.pos.st = st := hmove.st.trans (by rw [h.pos])
    exact ⟨_, rfl, .inr ⟨hmove.run.trans h.run, by rw [advance_pos, hst, if_pos rfl], hmove.tOpen.trans h.linked,
      hmove.err.trans h.err, h.inputs.trans hmove.inputs⟩⟩
  | err e t =>
    have hmove : StageMove s t := hr
    obtain ⟨-, -, -, hquiet⟩ := hmove.inputs
    refine ⟨_, rfl, .inl (enterFailed_stopped e ?_ (hquiet.trans (h.quiet hhost)))⟩
    rw [State.busy, hmove.run, h.run]
    rfl
  | fault | refused => exact hr.elim

theorem AtStage.handshake (h : AtStage s0 .initialized s) : Reaches s0 .synced (steps 8 s) := by
  rw [handshakeStepsRefineTheOperation s h.run (h.quiet hhost) h.pos, exec, execHandshake, restart_self h.pos]
  exact h.completes hhost (runEvents_concludes _ _ (by simp [handshakeEvents, resetPulseEvents, Ev.direct]) h.linked)

theorem AtStage.load (h : AtStage s0 .synced s) {shim : List Byte}
    (hshim : memRead s0.shm 0 s0.cfg.shimLen.toNat = some shim) : Reaches s0 .shimActive (steps 6 s) := by
  obtain ⟨hcfg, -, hshm, -⟩ := h.inputs
  have hshim' : memRead s.shm 0 s.cfg.shimLen.toNat = some shim := by rw [hcfg, hshm, hshim]
  have hlen : shim.length ≤ 65535 := by
    have hwidth := s.cfg.shimLen.isLt
    rw [memRead_length hshim']
    omega
  obtain ⟨hload, -⟩ := loadAndEraseStepsRefineTheOperations
  rw [hload s shim h.run (h.quiet hhost) h.pos hshim', exec, execLoadAndRun, if_pos hlen, restart_self h.pos]
  refine h.completes hhost (((runEvents_concludes _ _ (ramInitEvents_direct _ _) h.linked).andThen fun t hmove => ?_).andThen
    fun t hmove => ?_)
  · exact runEvents_concludes _ _ (shimDataEvents_direct shim) (hmove.tOpen.trans h.linked)
  · exact runEvents_concludes _ _ jumpEvents_direct (hmove.tOpen.trans h.linked)

theorem AtStage.erase (h : AtStage s0 .shimActive s) : Reaches s0 .erased (steps 3 s) := by
  obtain ⟨-, herase⟩ := loadAndEraseStepsRefineTheOperations
  rw [herase s h.run (h.quiet hhost) h.pos, exec, execChipErase, restart_self h.pos]
  exact h.completes hhost (runEvents_concludes _ _ (by simp [chipEraseEvents, Ev.direct]) h.linked)

theorem AtStage.blank (h : AtStage s0 .erased s) (hok : s0.cfg.downloadOk = true) :
    Reaches s0 .verified (steps (if s0.cfg.blankCount.toNat = 0 then 1 else 3 * s0.cfg.blankCount.toNat) s) := by
  obtain ⟨hcfg, -⟩ := h.inputs
  rw [← hcfg] at hok ⊢
  rw [steps_blankCheck h.run (h.quiet hhost) h.pos hok, exec, execBlankCheck_eq (Bool.and_eq_true_iff.mp hok).2,
    restart_self h.pos]
  exact h.completes hhost (runLoop_concludes (fun i t => segmentTurn_concludes _ _ i) _ h.linked)

theorem AtStage.write (h : AtStage s0 .verified s) (hok : s0.cfg.downloadOk = true) {image : List Byte}
    (himage : memRead s0.img 0 s0.cfg.imgLen.toNat = some image) :
    Reaches s0 .programmed
      (steps (if s0.cfg.imgLen.toNat = 0 then 1 else 3 * pageCount s0.cfg.imgLen.toNat s0.cfg.writePage.toNat) s) := by
  obtain ⟨hcfg, himg, -⟩ := h.inputs
  rw [← hcfg] at hok ⊢
  rw [← hcfg, ← himg] at himage
  have hrange : imageRangeOk s.cfg.imgAddr.toNat image.length s.cfg.writePage.toNat = true := by
    rw [memRead_length himage]
    exact (Bool.and_eq_true_iff.mp hok).1
  rw [steps_writeImage h.run (h.quiet hhost) h.pos hok himage, exec, execWriteImage_eq hrange, restart_self h.pos]
  have hbegin : StageMove s (beginImage image s) := .of_bookkeeping rfl rfl
  exact h.completes hhost (.after hbegin (runLoop_concludes (fun i t => pageTurn_concludes _ _ _ i) _ h.linked))

theorem AtStage.pulse (h : AtStage s0 .programmed s) : Reaches s0 .reset (steps 6 s) := by
  rw [steps_resetPulse h.run (h.quiet hhost) h.pos]
  exact h.completes hhost (runEvents_concludes _ _ (by simp [resetPulseEvents, Ev.direct]) h.linked)

/-- The first step opens the link or fails, whatever the transport was (log 34). -/
theorem step_reaches_initialized (hrun : s0.run = some .download) (hpos : s0.pos = State.reset.pos) :
    Reaches s0 .initialized (steps 1 s0) := by
  have hst : s0.pos.st = .closed := by rw [hpos]; rfl
  have hbusy : s0.busy = true := by rw [State.busy, hrun]; rfl
  rw [steps_one, step_quiet hhost]
  cases himg : s0.cfg.imgErr with
  | true =>
    rw [seqStep_imageError hrun hst himg]
    exact ⟨_, rfl, .inl (enterFailed_stopped _ hbusy hhost)⟩
  | false =>
    rw [seqStep_closed hrun hst, seqOpen_eq (by simp [himg])]
    obtain ⟨t, ht, -, hok, herr⟩ := opOpen_spec s0.cfg.port s0.cfg.baud s0
    cases ha : s0.env.opens.headD false with
    | true =>
      obtain ⟨hopen, hlink⟩ := hok ha
      rw [hopen]
      exact ⟨_, rfl, .inr ⟨ht.run.trans hrun, by simp [ht.pos, hst], by simp [hlink], ht.err, ht.cfg, ht.img, ht.shm, ht.host⟩⟩
    | false =>
      obtain ⟨hrefused, -⟩ := herr ha
      rw [hrefused]
      exact ⟨_, rfl, .inl (enterFailed_stopped _ ((congrArg Option.isSome ht.run).trans hbusy) (ht.host.trans hhost))⟩

end

/-- The last step of a download: the transport is closed and the run over (45_orchestrator.md R193). -/
theorem step_closes {s : State} (hrun : s.run = some .download) (hhost : s.host = []) (hst : s.pos.st = .reset) :
    step s = .next (finishRun (opClose s)) := by
  rw [step_quiet hhost]
  simp only [seqStep, hrun, hst]

/-- Settles O59: stage after stage in the count of `downloadSteps`, whose last step is the `Close`. -/
theorem everyDownloadRunEnds : Obligations.EveryDownloadRunEnds := by
  intro s image shim hinv hrun hhost hpos himage hshim
  have hok : s.cfg.downloadOk = true := (hinv.running _ hrun).config rfl
  have hreach := (step_reaches_initialized hhost hrun hpos).next
    (fun t h => h.handshake hhost) |>.next
    (fun t h => h.load hhost hshim) |>.next
    (fun t h => h.erase hhost) |>.next
    (fun t h => h.blank hhost hok) |>.next
    (fun t h => h.write hhost hok himage) |>.next
    (fun t h => h.pulse hhost)
  obtain ⟨t, hsteps, hstopped | hat⟩ := hreach
  case inl =>
    refine ⟨t, steps_append hsteps (idleBlockDoesNothing t 1 hstopped.idle hstopped.quiet), .inr hstopped.st, hstopped.idle,
      hstopped.released, fun hdone => ?_⟩
    rw [hstopped.st] at hdone
    cases hdone
  case inr =>
    have hst : t.pos.st = .reset := by rw [hat.pos]
    have hclosed := step_closes hat.run (hat.quiet hhost) hst
    have hst' : (opClose t).pos.st = .reset := by rw [opClose_pos, hst]
    refine ⟨_, steps_append hsteps (steps_one.trans hclosed), .inl ?done, ?idle, ?released, fun _ => ?err⟩
    case done => simp [finishRun_eq, hst']
    case idle => rw [State.busy, finishRun_run hst' ((opClose_run t).trans hat.run)]; rfl
    case released => rw [finishRun_link, opClose_tOpen]
    case err => rw [finishRun_err, (opClose_opMove t).err, hat.err]

end Sys2Proof.Machine
end

