-- ==== Sys2Proof/Proofs/Pipeline.lean ====
section
/-! PROOFS. A download run whose requests are all answered (45_orchestrator.md R193, R201): stage after stage the steps are the
operation and the operation completes, up to `Done`, or up to a chip-erase response that is rejected. -/

namespace Sys2Proof.Machine

/-! ### A run on course -/

/-- The run that began at `s0` has performed the events `es`, every request answered, and stands at the beginning of the step that
starts in `st`, with `turns` of the environment to come. -/
structure OnCourse (s0 : State) (ans : RxShape → List Byte) (st : SeqState) (es : List Ev) (turns : List Turn) (s : State) : Prop
    extends AtStage s0 st s where
  trace : s.trace = s0.trace ++ [.opened s0.cfg.port s0.cfg.baud true] ++ traceOf ans s0.cfg.tRead.toNat es
  script : s.env.script = turns
  baud : s.link.tBaud = s0.cfg.baud
  rxq : s.link.rxq = []
  txq : s.link.txq = []

section
variable {s0 s t : State} {ans : RxShape → List Byte} {st st' : SeqState} {es fs : List Ev} {turns rest : List Turn}

/-- What an answered operation leaves carries the run to the next stage. -/
theorem OnCourse.onward (h : OnCourse s0 ans st es turns s) {rst : ResetLine}
    (htrace : t.trace = s.trace ++ traceOf ans s.cfg.tRead.toNat fs) (hscript : t.env.script = rest)
    (hlink : t.link = { s.link with rxq := [], txq := [], rst := rst }) (hrun : t.run = s.run) (herr : t.err = s.err)
    (hinputs : sameInputs s t) (hpos : t.pos = { st := st', ph := 0#4, idx := 0#32 }) :
    OnCourse s0 ans st' (es ++ fs) rest t where
  run := hrun.trans h.run
  pos := hpos
  linked := by rw [hlink]; exact h.linked
  err := herr.trans h.err
  inputs := h.inputs.trans hinputs
  trace := by
    obtain ⟨hcfg, -⟩ := h.inputs
    rw [htrace, h.trace, hcfg, traceOf_append, List.append_assoc]
  script := hscript
  baud := by rw [hlink]; exact h.baud
  rxq := by rw [hlink]
  txq := by rw [hlink]

/-- The link of a run on course holds nothing, so a `Discard` does nothing to it. -/
theorem OnCourse.link_idle (h : OnCourse s0 ans st es turns s) :
    s.link = { s.link with rxq := [], txq := [], rst := s.link.rst } := (Link.idle_of_queues h.rxq h.txq).symm

/-- The first step, with the one turn it takes. -/
theorem onCourse_open {more : List Bool} (hrun : s.run = some .download) (hhost : s.host = []) (hpos : s.pos = State.reset.pos)
    (hclosed : s.link.tOpen = false) (himg : s.cfg.imgErr = false) (hopens : s.env.opens = true :: more)
    (hscript : s.env.script = quiet :: turns) :
    ∃ t, steps 1 s = .next t ∧ OnCourse s ans .initialized [] turns t := by
  obtain ⟨t, hstep, htpos, htrace, hlink, henv, htrun, herr, hinputs⟩ :=
    step_opens hrun hhost (by rw [hpos]; rfl) (by simp [himg]) hclosed hopens
  refine ⟨t, steps_one.trans hstep, ⟨htrun, htpos, by rw [hlink], herr, hinputs⟩, ?trace, ?script, by rw [hlink], by rw [hlink],
    by rw [hlink]⟩
  case trace => rw [htrace]; exact (List.append_nil _).symm
  case script => rw [henv, envTurn_quiet hscript]

variable (hhost : s0.host = []) (hgood : goodAnswers ans)
include hhost hgood

theorem OnCourse.handshake (h : OnCourse s0 ans .initialized es (scriptOf ans (handshakeEvents s0.cfg) ++ rest) s) :
    ∃ t, steps 8 s = .next t ∧ OnCourse s0 ans .synced (es ++ handshakeEvents s0.cfg) rest t := by
  obtain ⟨hcfg, -⟩ := h.inputs
  have hscript := h.script
  rw [← hcfg] at hscript ⊢
  obtain ⟨t, hexec, htrace, hlink, hrest, -, hrun, -, herr, -, hinputs, hpos⟩ :=
    handshakeCompletes s ans rest h.linked hgood hscript
  rw [← handshakeStepsRefineTheOperation s h.run (h.quiet hhost) h.pos] at hexec
  refine ⟨t, hexec, h.onward ?trace hrest hlink hrun herr hinputs (by rw [hpos, h.pos]; rfl)⟩
  case trace =>
    rw [htrace, handshakeEvents, traceOf_append, resetPulseEvents_trace]
    simp [traceOf, evTrace, hgood.hsAck, RxShape.count, Config.hsPattern]

theorem OnCourse.load {shim : List Byte} (hshim : memRead s0.shm 0 s0.cfg.shimLen.toNat = some shim)
    (h : OnCourse s0 ans .synced es (scriptOf ans (loadEvents shim s0.cfg.ramBase) ++ rest) s) :
    ∃ t, steps 6 s = .next t ∧ OnCourse s0 ans .shimActive (es ++ loadEvents shim s0.cfg.ramBase) rest t := by
  obtain ⟨hcfg, -, hshm, -⟩ := h.inputs
  have hscript := h.script
  rw [← hcfg, ← hshm] at hshim
  rw [← hcfg] at hscript ⊢
  have hlen : shim.length ≤ 65535 := by
    have hwidth := s.cfg.shimLen.isLt
    rw [memRead_length hshim]
    omega
  obtain ⟨t, hexec, htrace, hrest, hlink, hrun, herr, -, hinputs, -, hpos⟩ :=
    loadAndRunCompletes s ans rest shim s.cfg.ramBase h.linked h.rxq hgood hlen hscript
  obtain ⟨hsteps, -⟩ := loadAndEraseStepsRefineTheOperations
  rw [← hsteps s shim h.run (h.quiet hhost) h.pos hshim] at hexec
  refine ⟨t, hexec, h.onward ?trace hrest hlink hrun herr hinputs (by rw [hpos, h.pos]; rfl)⟩
  case trace =>
    rw [htrace]
    simp [loadEvents, ramInitEvents, shimDataEvents, jumpEvents, traceOf, evTrace, hgood.ack, RxShape.count, TxMsg.bytes,
      commandFrame, appendSum8, frameBody, Config.sync, Config.opRamInit, Config.jumpCmd]

theorem OnCourse.erase (h : OnCourse s0 ans .shimActive es (scriptOf ans chipEraseEvents ++ rest) s) :
    ∃ t, steps 3 s = .next t ∧ OnCourse s0 ans .erased (es ++ chipEraseEvents) rest t := by
  obtain ⟨hcompletes, -⟩ := flashExchangesComplete s ans rest h.linked hgood
  obtain ⟨t, hexec, ⟨htrace, hrest, hlink, -, -, hrun, herr, -, hinputs⟩, hpos⟩ := hcompletes h.script
  obtain ⟨-, hsteps⟩ := loadAndEraseStepsRefineTheOperations
  rw [← hsteps s h.run (h.quiet hhost) h.pos] at hexec
  exact ⟨t, hexec, h.onward htrace hrest hlink hrun herr hinputs (by rw [hpos, h.pos]; rfl)⟩

theorem OnCourse.blank (hok : s0.cfg.downloadOk = true)
    (h : OnCourse s0 ans .erased es
      (scriptOf ans (blankEvents s0.cfg.blankStart s0.cfg.blankPage s0.cfg.blankCount.toNat) ++ rest) s) :
    ∃ t, steps (if s0.cfg.blankCount.toNat = 0 then 1 else 3 * s0.cfg.blankCount.toNat) s = .next t ∧
      OnCourse s0 ans .verified (es ++ blankEvents s0.cfg.blankStart s0.cfg.blankPage s0.cfg.blankCount.toNat) rest t := by
  obtain ⟨hcfg, -⟩ := h.inputs
  have hscript := h.script
  rw [← hcfg] at hok hscript ⊢
  obtain ⟨hsize, hrange⟩ := blankRangeOk_iff.mp (Bool.and_eq_true_iff.mp hok).2
  obtain ⟨⟨t, hexec, htrace, hrest, hlink, hrun, herr, -, hinputs, -, hpos⟩, -⟩ :=
    blankCheckQueriesEverySegment s ans rest s.cfg.blankStart s.cfg.blankPage s.cfg.blankCount h.linked h.rxq h.txq hgood hsize
      hrange hscript
  rw [← steps_blankCheck h.run (h.quiet hhost) h.pos hok] at hexec
  refine ⟨t, hexec, h.onward ?trace hrest (hlink.trans h.link_idle) hrun herr hinputs (by rw [hpos, h.pos]; rfl)⟩
  case trace =>
    rw [htrace]
    exact congrArg _ (traceOf_exchanges ans _
      (fun i => .blankCheck (segmentAddr s.cfg.blankStart s.cfg.blankPage.toNat i) s.cfg.blankPage) .resp10 _).symm

theorem OnCourse.write (hok : s0.cfg.downloadOk = true) {image : List Byte}
    (himage : memRead s0.img 0 s0.cfg.imgLen.toNat = some image)
    (h : OnCourse s0 ans .verified es (scriptOf ans (imageEvents s0.cfg.imgAddr image s0.cfg.writePage.toNat) ++ rest) s) :
    ∃ t, steps (if s0.cfg.imgLen.toNat = 0 then 1 else 3 * pageCount s0.cfg.imgLen.toNat s0.cfg.writePage.toNat) s = .next t ∧
      OnCourse s0 ans .programmed (es ++ imageEvents s0.cfg.imgAddr image s0.cfg.writePage.toNat) rest t := by
  obtain ⟨hcfg, himg, -⟩ := h.inputs
  have hscript := h.script
  rw [← hcfg, ← himg] at himage
  rw [← hcfg] at hok hscript ⊢
  obtain ⟨hpage, hrange, hlen⟩ := imageRangeOk_iff.mp (Bool.and_eq_true_iff.mp hok).1
  have hbytes := memRead_length himage
  obtain ⟨t, hexec, htrace, hrest, hlink, hrun, herr, -, hinputs, -, hpos⟩ :=
    writeImageWritesEveryPage s ans rest s.cfg.imgAddr image s.cfg.writePage h.linked h.rxq h.txq hgood hpage
      (by rwa [hbytes]) (by rwa [hbytes]) hscript
  rw [← steps_writeImage h.run (h.quiet hhost) h.pos hok himage] at hexec
  refine ⟨t, hexec, h.onward ?trace hrest (hlink.trans h.link_idle) hrun herr hinputs (by rw [hpos, h.pos]; rfl)⟩
  case trace =>
    rw [htrace]
    exact congrArg _ (traceOf_exchanges ans _
      (fun i => .pageWrite (pageAddr s.cfg.imgAddr s.cfg.writePage.toNat i) (pageData image s.cfg.writePage.toNat i)) .resp9
      _).symm

theorem OnCourse.pulse (h : OnCourse s0 ans .programmed es (scriptOf ans (resetPulseEvents s0.cfg) ++ rest) s) :
    ∃ t, steps 6 s = .next t ∧ OnCourse s0 ans .reset (es ++ resetPulseEvents s0.cfg) rest t := by
  obtain ⟨hcfg, -⟩ := h.inputs
  have hscript := h.script
  rw [← hcfg] at hscript ⊢
  have hsteps := steps_resetPulse h.run (h.quiet hhost) h.pos
  rw [runEvents_answered_silent ctxResetPulse hgood 0 (resetPulseEvents_silent s.cfg) h.linked hscript, map_ok, settle_ok] at hsteps
  have hdone := answeredAll_answered ans 0 hscript
  rw [restart_self h.pos] at hdone
  have hlink := hdone.link
  rw [resetPulseEvents_link] at hlink
  refine ⟨_, hsteps, h.onward hdone.trace hdone.script hlink hdone.run hdone.err hdone.inputs ?pos⟩
  case pos => simp [answeredAll_st, h.pos]

end

/-- The last step of a run on course: `Close`, and the run is over (45_orchestrator.md R193). -/
theorem OnCourse.close {s0 s : State} {ans : RxShape → List Byte} {es : List Ev} {rest : List Turn} (hhost : s0.host = [])
    (h : OnCourse s0 ans .reset es (quiet :: rest) s) :
    ∃ t, steps 1 s = .next t ∧ t.pos = { st := .done, ph := 0#4, idx := 0#32 } ∧ t.busy = false ∧ t.err = s0.err ∧
      t.trace = s0.trace ++ [.opened s0.cfg.port s0.cfg.baud true] ++ traceOf ans s0.cfg.tRead.toNat es ++ [.closed] ∧
      t.link = { tOpen := false, tBaud := s0.cfg.baud, rxq := [], txq := [], rst := .undriven } ∧ t.env.script = rest ∧
      sameInputs s0 t := by
  have hst : s.pos.st = .reset := by rw [h.pos]
  have hclose : opClose s = closeLink { s with env := { s.env with script := rest } } := by
    rw [opClose_open h.linked, envTurn_quiet h.script]
  have hstep := step_closes h.run (h.quiet hhost) hst
  rw [hclose] at hstep
  refine ⟨_, steps_one.trans hstep, ?pos, ?idle, ?err, ?trace, ?link, ?script, ?inputs⟩
  case pos => simp [finishRun_eq, hst]
  case idle => simp [State.busy, finishRun_eq, hst, h.run]
  case err => rw [finishRun_err]; exact h.err
  case trace => rw [finishRun_trace, closeLink_trace, h.trace]
  case link => rw [finishRun_link, ← h.baud]; rfl
  case script => rw [finishRun_env]; rfl
  case inputs => exact h.inputs.trans (finishRun_opMove _).inputs

/-! ### A rejected response (60_exceptions.md R218) -/

/-- A read of a response that has come in full and is not acceptable, whatever the environment does later. -/
theorem opRecv_rejected (c : Ctx) {sh : RxShape} {r : List Byte} {turns : List Turn} {s : State} (hopen : s.link.tOpen = true)
    (hq : s.link.rxq = []) (hscript : s.env.script = { elapse := 0, arrive := r } :: turns) (hlen : r.length = sh.count)
    (hrejected : sh.accepts r = false) :
    opRecv c sh s =
      .err { kind := .protocol, ctx := c, raw := r } (readFailed sh r { s.env with script := turns } s) := by
  have hturn : envTurn s = { s with env := { s.env with script := turns }, link := { s.link with rxq := r } } := by
    simp [envTurn_cons hscript, applyTurn, hopen, hq]
  have hqueued : sh.count ≤ (envTurn s).link.rxq.length := by rw [hturn, ← hlen]
  have htake : r.take sh.count = r := by rw [← hlen, List.take_length]
  have hdrop : r.drop sh.count = [] := by rw [← hlen, List.drop_length]
  have hfits : r.length ≤ 11 := hlen ▸ sh.count_le
  simp only [opRecv, opRead_ready c _ hopen hqueued, hturn, readTaken, htake, hdrop, hrejected, rxBuffer_fits hfits, readFailed,
    RxShape.failEvent, RxShape.failRegs, hlen, if_true]
  rfl

/-- The error of a rejected response, and what taking it in a run leaves (60_exceptions.md R226, 45_orchestrator.md R196; log 37). -/
theorem enterFailed_rejected {c : Ctx} {sh : RxShape} {r : List Byte} {env : Env} {s : State} (hbusy : s.busy = true)
    (hopen : s.link.tOpen = true) (hlen : r.length = sh.count) (haddr : c.addressed = false) :
    ∃ t, enterFailed { kind := .protocol, ctx := c, raw := r } (readFailed sh r env s) = t ∧
      t.pos = { s.pos with st := .failed } ∧ t.busy = false ∧
      t.err =
        { kind := .protocol, step := c.step, op := c.op, addr := 0#32, idx := s.pos.idx, rawn := BitVec.ofNat 4 sh.count,
          raw := r } ∧
      t.trace = s.trace ++ [.readOk sh.count s.cfg.tRead.toNat r, .closed] ∧
      t.link = { s.link with tOpen := false, rxq := [], txq := [], rst := .undriven } ∧ sameInputs s t := by
  obtain ⟨hpos, hrun, herr, hcfg, himg, hshm, hhost, -, -, -, -, -, hrelease⟩ :=
    enterFailed_spec { kind := .protocol, ctx := c, raw := r } (readFailed sh r env s)
  obtain ⟨-, -, hclose⟩ := hrelease hbusy
  obtain ⟨htrace, hlink, -⟩ := hclose hopen
  refine ⟨_, rfl, hpos, by rw [State.busy, hrun]; rfl, ?err, ?trace, hlink, hcfg, himg, hshm, hhost⟩
  case err =>
    rw [herr, recordError_err, errAddress_unaddressed haddr, clip_fits (hlen ▸ sh.count_le), hlen]
    rfl
  case trace => rw [htrace]; simp [readFailed, RxShape.failEvent, hlen]

section
variable {s0 s : State} {ans : RxShape → List Byte} {es : List Ev} {r : List Byte} {turns : List Turn}

/-- The erase request of a run on course: two steps, to the read of its response. -/
theorem OnCourse.erase_sends (hhost : s0.host = []) (hgood : goodAnswers ans)
    (h : OnCourse s0 ans .shimActive es (scriptOf ans [.discard, .send .chipErase] ++ turns) s) :
    ∃ t, steps 2 s = .next (setPh 2 t) ∧ InList (withCtx ctxChipErase chipEraseEvents) t ∧
      t.pos.st = .shimActive ∧ t.pos.idx = 0#32 ∧ EventsAnswered ans [.discard, .send .chipErase] turns s t := by
  have hin : InList (withCtx ctxChipErase chipEraseEvents) s :=
    ⟨by rw [State.busy, h.run]; rfl, h.quiet hhost, by rw [h.pos]; rfl, by rw [h.pos]; nofun, by simp [stepEvents, h.pos]⟩
  have hpiece := hin.steps_piece (k := 0) (piece := withCtx ctxChipErase [.discard, .send .chipErase])
    (rest := withCtx ctxChipErase [.recv .resp9]) (by simp [withCtx, chipEraseEvents]) rfl
  have hmoved := runEvents_moved ctxChipErase 0 [.discard, .send .chipErase] s
  have hanswered := runEvents_answered_silent ctxChipErase hgood 0 (es := [.discard, .send .chipErase])
    (by simp [Ev.direct, Ev.isRecv]) h.linked h.script
  rw [setPh_self (by rw [h.pos]), runList_withCtx, hanswered, map_ok, settle_ok] at hpiece
  have hmove := hmoved.ok hanswered
  have hdone := answeredAll_answered ans 0 h.script
  rw [restart_self h.pos] at hdone
  exact ⟨_, hpiece, hin.of_eventsMove hmove, hmove.st.trans (by rw [h.pos]), hmove.idx.trans (by rw [h.pos]), hdone⟩

/-- The failing step: the rejected response is recorded, and the run released (45_orchestrator.md R196; log 37). -/
theorem OnCourse.erase_rejected (hhost : s0.host = []) (hgood : goodAnswers ans) (hlen : r.length = 9)
    (hinvalid : validFrame r 9 = false)
    (h : OnCourse s0 ans .shimActive es
      (scriptOf ans [.discard, .send .chipErase] ++ { elapse := 0, arrive := r } :: turns) s) :
    (∃ u, steps 2 s = .next u ∧ u.pos = { st := .shimActive, ph := 2#4, idx := 0#32 }) ∧
    ∃ t, (∀ n, steps (3 + n) s = .next t) ∧ t.pos = { st := .failed, ph := 2#4, idx := 0#32 } ∧ t.busy = false ∧
      t.err = { kind := .protocol, step := 0x40#8, op := 0x40#8, addr := 0#32, idx := 0#32, rawn := 9#4, raw := r } ∧
      t.trace = s0.trace ++ [.opened s0.cfg.port s0.cfg.baud true]
        ++ traceOf ans s0.cfg.tRead.toNat (es ++ [.discard, .send .chipErase])
        ++ [.readOk 9 s0.cfg.tRead.toNat r, .closed] ∧
      t.link = { tOpen := false, tBaud := s0.cfg.baud, rxq := [], txq := [], rst := .undriven } ∧ sameInputs s0 t := by
  obtain ⟨u, htwo, hin, hst, hidx, hdone⟩ := h.erase_sends hhost hgood
  have hupos : (setPh 2 u).pos = { st := .shimActive, ph := 2#4, idx := 0#32 } := by simp [hst, hidx]
  have hulink : (setPh 2 u).link = { s.link with rxq := [], txq := [] } := hdone.link
  have hopen : (setPh 2 u).link.tOpen = true := by rw [hulink]; exact h.linked
  have hstep := hin.step_eq (k := 2) (ce := (ctxChipErase, .recv .resp9)) rfl
  rw [runEv, opRecv_rejected (sh := .resp9) ctxChipErase hopen (by rw [hulink]) hdone.script hlen hinvalid, map_err, settle_err] at hstep
  obtain ⟨t, ht, hpos, hidle, herr, htrace, hlink, hinputs⟩ := enterFailed_rejected
    (env := { (setPh 2 u).env with script := turns }) (s := setPh 2 u) hin.busy hopen (sh := .resp9) hlen
    (show ctxChipErase.addressed = false from rfl)
  obtain ⟨htcfg, htimg, htshm, hthost⟩ := hinputs
  have hsteps (n : Nat) : steps (3 + n) s = .next t :=
    steps_append (steps_append htwo (steps_one.trans (ht ▸ hstep))) (idleBlockDoesNothing t n hidle (hthost.trans hin.quiet))
  have hall : sameInputs s0 (setPh 2 u) := h.inputs.trans hdone.inputs
  have hucfg : (setPh 2 u).cfg = s0.cfg := hall.1
  have hscfg : s.cfg = s0.cfg := h.inputs.1
  refine ⟨⟨_, htwo, hupos⟩, t, hsteps, by rw [hpos, hupos], hidle, by rw [herr, hupos]; rfl, ?trace, ?link,
    hall.trans ⟨htcfg, htimg, htshm, hthost⟩⟩
  case trace =>
    rw [htrace, hucfg, setPh_trace, hdone.trace, h.trace, hscfg, traceOf_append, ← List.append_assoc]
    rfl
  case link => rw [hlink, hulink, ← h.baud]

end

/-- Settles O60: the stages one after the other, up to the `Close` or up to the rejected erase response; each stage is a state the run
passes through. -/
theorem pipelineReachesDoneOrStopsAtTheErase : Obligations.PipelineReachesDoneOrStopsAtTheErase := by
  intro s ans image shim more hrun hhost hpos hclosed hok himg hgood himage hshim hopens closedLink
  refine ⟨?done, ?rejected⟩
  case done =>
    intro rest hscript
    simp only [downloadEvents, scriptOf_append, List.append_assoc, List.cons_append] at hscript
    obtain ⟨s1, hsteps1, h1⟩ := onCourse_open hrun hhost hpos hclosed himg hopens hscript
    obtain ⟨s2, hsteps2, h2⟩ := h1.handshake hhost hgood
    obtain ⟨s3, hsteps3, h3⟩ := h2.load hhost hgood hshim
    obtain ⟨s4, hsteps4, h4⟩ := h3.erase hhost hgood
    obtain ⟨s5, hsteps5, h5⟩ := h4.blank hhost hgood hok
    obtain ⟨s6, hsteps6, h6⟩ := h5.write hhost hgood hok himage
    obtain ⟨s7, hsteps7, h7⟩ := h6.pulse hhost hgood
    obtain ⟨t, hsteps8, htpos, hidle, herr, htrace, hlink, hrest, hinputs⟩ := h7.close hhost
    have hto2 := steps_append hsteps1 hsteps2
    have hto3 := steps_append hto2 hsteps3
    have hto4 := steps_append hto3 hsteps4
    have hto5 := steps_append hto4 hsteps5
    have hto6 := steps_append hto5 hsteps6
    have hto7 := steps_append hto6 hsteps7
    have hto8 := steps_append hto7 hsteps8
    refine ⟨t, hto8, htpos, hidle, herr, htrace, hlink, hrest, hinputs, fun st hst => ?_⟩
    have hcount : downloadSteps s.cfg = 1 + 8 + 6 + 3 + _ + _ + 6 + 1 := rfl
    cases st with
    | closed => exact ⟨0, s, Nat.zero_le _, rfl, by rw [hpos]; rfl⟩
    | initialized => exact ⟨_, s1, by omega, hsteps1, by rw [h1.pos]⟩
    | synced => exact ⟨_, s2, by omega, hto2, by rw [h2.pos]⟩
    | shimActive => exact ⟨_, s3, by omega, hto3, by rw [h3.pos]⟩
    | erased => exact ⟨_, s4, by omega, hto4, by rw [h4.pos]⟩
    | verified => exact ⟨_, s5, by omega, hto5, by rw [h5.pos]⟩
    | programmed => exact ⟨_, s6, by omega, hto6, by rw [h6.pos]⟩
    | reset => exact ⟨_, s7, by omega, hto7, by rw [h7.pos]⟩
    | done => exact ⟨_, t, Nat.le_refl _, hto8, by rw [htpos]⟩
    | failed => exact absurd rfl hst
  case rejected =>
    intro r rest n hlen hinvalid es hscript
    simp only [es, scriptOf_append, List.append_assoc, List.cons_append] at hscript
    obtain ⟨s1, hsteps1, h1⟩ := onCourse_open hrun hhost hpos hclosed himg hopens hscript
    obtain ⟨s2, hsteps2, h2⟩ := h1.handshake hhost hgood
    obtain ⟨s3, hsteps3, h3⟩ := h2.load hhost hgood hshim
    obtain ⟨⟨u, hstepsu, hupos⟩, t, hstepst, hfailed⟩ := h3.erase_rejected hhost hgood hlen hinvalid
    have hto3 := steps_append (steps_append hsteps1 hsteps2) hsteps3
    refine ⟨⟨u, steps_append hto3 hstepsu, hupos⟩, t, ?_, hfailed⟩
    rw [show 18 + n = 15 + (3 + n) by omega]
    exact steps_append hto3 (hstepst n)

end Sys2Proof.Machine
end

