-- ==== Sys2Proof/Proofs/FailedExchanges.lean ====
section
/-! PROOFS. An exchange called alone whose response is rejected or too short (60_exceptions.md R217, R218, R220), wherever its event
list begins to count `PH` (log 8): the record has the operation's codes, the address it put into `ADDR`, `IDX` and the bytes. -/

namespace Sys2Proof.Machine

/-- The list of an operation whose last event, the read, fails on `r`: it ends with the error, at the read's index. -/
theorem runEvents_fails (c : Ctx) (k : Nat) {pre : List Ev} {sh : RxShape} {r : List Byte} {s : State} (hopen : s.link.tOpen = true)
    (hpre : Silent pre) (hq : (pre.foldl (fun l e => evLink e l) s.link).rxq = [])
    (hscript : s.env.script = scriptOf (fun _ => r) (pre ++ [.recv sh])) (hfails : sh.Fails r) :
    ∃ env, runEvents c k (pre ++ [.recv sh]) s =
      .err { kind := sh.failKind r, ctx := c, raw := r }
        (readFailed sh r env (setPh (k + pre.length) (answeredAll (fun _ => r) k pre s))) := by
  rw [scriptOf_append] at hscript
  obtain ⟨-, henv, hlink, -⟩ := answeredAll_fields (fun _ => r) k pre s
  have hbefore := runEvents_silent_any c (fun _ => r) k hpre hopen hscript
  generalize answeredAll (fun _ => r) k pre s = u at *
  have hopen' : u.link.tOpen = true := by rw [hlink, foldl_evLink_tOpen, hopen]
  have hlast : LastWord u.env.script r := .inl (by simp [henv, hscript, scriptOf, evTurns])
  obtain ⟨hqueue, hsilent⟩ := hlast.arrives (s := setPh (k + pre.length) u) hopen' ((congrArg Link.rxq hlink).trans hq) rfl
  obtain ⟨env, hrecv⟩ := opRecv_fails c (s := setPh (k + pre.length) u) hopen' hqueue hsilent hfails
  exact ⟨env, by rw [runEvents_append, hbefore, andThen_ok, runEvents_cons, runEv, hrecv, andThen_err]⟩

/-- What a failed exchange begun at `s` leaves: its error at `PH` = `ph`, the read as its last event, a link with nothing queued, and
the rest of the block as it was (60_exceptions.md R217, R218, R226; outside a run, log 6). -/
def FailedExchange (sh : RxShape) (r : List Byte) (ph : Nat) (step op : Byte) (addr idx : Word) (pre : List Ev) (s t : State) : Prop :=
  t.pos = { st := .failed, ph := BitVec.ofNat 4 ph, idx := idx } ∧
  t.err =
    { kind := if r.length = sh.count then .protocol else .timeout
      step := step, op := op, addr := addr, idx := idx, rawn := BitVec.ofNat 4 r.length, raw := r } ∧
  t.rx = { rxb := r, rxn := BitVec.ofNat 4 r.length } ∧ t.link = { s.link with rxq := [], txq := [] } ∧
  t.trace = s.trace ++ traceOf (fun _ => r) s.cfg.tRead.toNat pre ++
    [if r.length = sh.count then .readOk sh.count s.cfg.tRead.toNat r else .readTimeout sh.count s.cfg.tRead.toNat r] ∧
  t.wrk.rem = s.wrk.rem ∧ t.run = s.run ∧ t.ret = s.ret ∧ sameInputs s t

/-- The test of a response leaves `ADDR` (41_framecodec.md R120, R124). -/
theorem RxShape.regs_addr (sh : RxShape) (b : List Byte) (w : WorkRegs) : (sh.regs b w).addr = w.addr := by
  cases sh with
  | hsAck | ack | banner => rfl
  | resp9 | resp10 => simp only [regs, validateCsum]; split <;> rfl

theorem RxShape.failRegs_addr (sh : RxShape) (r : List Byte) (w : WorkRegs) : (sh.failRegs r w).addr = w.addr := by
  unfold failRegs
  split
  · exact sh.regs_addr r w
  · rfl

section
variable {c : Ctx} {k : Nat} {pre : List Ev} {sh : RxShape} {r : List Byte} {s : State}

/-- The operation takes the error of its read. The address is the one `pre` put into `ADDR`, if the operation records one. -/
theorem operation_fails (f : State → State) (hopen : s.link.tOpen = true) (hidle : s.busy = false) (hpre : Silent pre)
    (hlink : pre.foldl (fun l e => evLink e l) s.link = { s.link with rxq := [], txq := [] })
    (hscript : s.env.script = scriptOf (fun _ => r) (pre ++ [.recv sh])) (hfails : sh.Fails r) :
    ∃ t, ((runEvents c k (pre ++ [.recv sh]) s).map f).settle = .next t ∧
      FailedExchange sh r (k + pre.length) c.step c.op
        (if c.addressed then (pre.foldl (fun w e => evWrk (fun _ => r) e w) s.wrk).addr else 0#32) s.pos.idx pre s t := by
  obtain ⟨env, hlist⟩ := runEvents_fails c k hopen hpre (congrArg Link.rxq hlink) hscript hfails
  obtain ⟨htrace, -, hlinkAll, hwrk, -, hcfg, -⟩ := answeredAll_fields (fun _ => r) k pre s
  have hmoved := runEvents_moved c k (pre ++ [.recv sh]) s
  rw [hlist] at hmoved
  obtain ⟨p, hmove⟩ := hmoved
  have hidx := EventsMove.idx ⟨p, hmove⟩
  have hfinal := enterFailed_idle { kind := sh.failKind r, ctx := c, raw := r } ((congrArg Option.isSome hmove.run).trans hidle)
  have hsettle := (congrArg (fun o : Res => (o.map f).settle) hlist).trans (congrArg Host.Outcome.next hfinal)
  refine ⟨_, hsettle, ?pos, ?err, rfl, ?link, ?trace, hmove.rem, hmove.run, hmove.ret, hmove.opMove.inputs⟩
  case pos => rw [recordError_pos, ← hidx]; rfl
  case err =>
    rw [recordError_err, errIndex_failKind, clip_fits hfails.fits, hidx]
    simp only [errAddress, readFailed, RxShape.failRegs_addr, setPh_wrk, hwrk]
    rfl
  case link => simp [readFailed, hlinkAll, hlink]
  case trace =>
    simp only [recordError_trace, readFailed, setPh_trace, setPh_cfg, htrace, hcfg]
    rfl

end

/-- A response of nine or ten bytes that is rejected or comes short. -/
theorem RxShape.Fails.of_le {sh : RxShape} {r : List Byte} (hlen : r.length ≤ sh.count) (hrejected : sh.accepts r = false) :
    sh.Fails r := (Nat.lt_or_eq_of_le hlen).imp id fun h => ⟨h, hrejected⟩

/-- Nothing, or a byte other than 01, where an ACK is asked for (30_encoding.md R80). -/
theorem RxShape.Fails.of_not_ack {r : List Byte} (h : r = [] ∨ ∃ b, r = [b] ∧ b ≠ 0x01#8) : RxShape.ack.Fails r := by
  rcases h with rfl | ⟨b, rfl, hb⟩
  · exact .inl Nat.one_pos
  · exact .inr ⟨rfl, by simpa [RxShape.accepts, ackByte, Config.ack] using hb⟩

theorem silent_request (m : TxMsg) : Silent [.send m] := by simp [Silent, Ev.direct, Ev.isRecv]

theorem silent_discard_request (m : TxMsg) : Silent [.discard, .send m] := by simp [Silent, Ev.direct, Ev.isRecv]

/-- Settles O39: `operation_fails` for the events before the read of each exchange. A request of the loader follows no `Discard`, so
its statement asks for an empty queue. -/
theorem exchangesFailWithTheirAddress : Obligations.ExchangesFailWithTheirAddress := by
  intro s r hopen hidle failed
  refine ⟨fun hlen hinvalid => ?resp9, fun hlen hrejected a l hscript => ?segment,
    fun hq => ⟨fun hack => ?ack, fun hlen hscript => ?jump⟩⟩
  case resp9 =>
    have hfails := RxShape.Fails.of_le (sh := .resp9) hlen hinvalid
    refine ⟨fun hscript => ?erase, fun a data hdata hscript => ?page⟩
    case erase =>
      exact operation_fails (c := ctxChipErase) (k := 0) (s := restart s) _ hopen hidle (silent_discard_request _) rfl hscript hfails
    case page =>
      obtain ⟨t, hrun, hfailed⟩ :=
        operation_fails (c := ctxPage) (k := 0) (setPh 0) hopen hidle (silent_discard_request _) rfl hscript hfails
      exact ⟨t, (if_pos hdata).trans hrun, hfailed⟩
  case segment =>
    have hfails := RxShape.Fails.of_le (sh := .resp10) hlen hrejected
    exact operation_fails (c := ctxSegment) (k := 0) _ hopen hidle (silent_discard_request _) rfl hscript hfails
  case ack =>
    have hfails := RxShape.Fails.of_not_ack hack
    have hlink : { s.link with txq := [] } = { s.link with rxq := [], txq := [] } := by rw [← hq]
    refine ⟨fun base len hscript => ?ramInit, fun shim hshim hscript => ?shimData⟩
    case ramInit =>
      exact operation_fails (c := ctxRamInit) (k := 0) (s := restart s) _ hopen hidle (silent_request _) hlink hscript hfails
    case shimData =>
      obtain ⟨t, hrun, hfailed⟩ :=
        operation_fails (c := ctxShimData) (k := 2) (s := restart s) restart hopen hidle (silent_request _) hlink hscript hfails
      exact ⟨t, (if_pos hshim).trans hrun, hfailed⟩
  case jump =>
    have hlink : { s.link with txq := [] } = { s.link with rxq := [], txq := [] } := by rw [← hq]
    exact operation_fails (c := ctxJump) (k := 4) (s := restart s) _ hopen hidle (silent_request _) hlink hscript (.inl hlen)

end Sys2Proof.Machine
end

