-- ==== Sys2Proof/Proofs/RunFailures.lean ====
section
/-! PROOFS. How a step of a run fails, said once (`RunFailure`), and what follows: the run ends with a silent link (60_exceptions.md
R226, R227; log 37), and the record is that of the position (R216 to R220). -/

namespace Sys2Proof.Machine

/-! ### Where a run reads -/

/-- The reads of a run's event lists: in which state, at which `PH` (log 8), for which operation and response (60_exceptions.md
R220). -/
inductive ReadAt : SeqState → Nat → Ctx → RxShape → Prop where
  | handshake : ReadAt .initialized 6 ctxHandshake .hsAck
  | ramInit : ReadAt .synced 1 ctxRamInit .ack
  | shimData : ReadAt .synced 3 ctxShimData .ack
  | jump : ReadAt .synced 5 ctxJump .banner
  | chipErase : ReadAt .shimActive 2 ctxChipErase .resp9
  | segment : ReadAt .erased 2 ctxSegment .resp10
  | page : ReadAt .verified 2 ctxPage .resp9

/-- In the list of an exchange the read is the last event. -/
theorem exchange_recv {c d : Ctx} {e : Ev} {sh sh' : RxShape} {j : Nat} (he : e.isRecv = false)
    (h : (withCtx c [.discard, e, .recv sh])[j]? = some (d, .recv sh')) : j = 2 ∧ d = c ∧ sh' = sh := by
  match j, h with
  | 0, h => cases h
  | 1, h => cases h; cases he
  | 2, h => cases h; exact ⟨rfl, rfl, rfl⟩

/-- A list without reads has none. -/
theorem silent_no_recv {c d : Ctx} {es : List Ev} {sh : RxShape} {j : Nat} (hes : Silent es) :
    (withCtx c es)[j]? ≠ some (d, .recv sh) := by
  intro h
  simp only [withCtx, List.getElem?_map, Option.map_eq_some_iff, Prod.mk.injEq] at h
  obtain ⟨e, he, -, rfl⟩ := h
  exact Bool.noConfusion (hes _ (List.mem_of_getElem? he)).2

theorem stepEvents_recv {s : State} {j : Nat} {c : Ctx} {sh : RxShape} (h : (stepEvents s)[j]? = some (c, .recv sh)) :
    ReadAt s.pos.st j c sh := by
  cases hst : s.pos.st <;> simp only [stepEvents, hst] at h
  case initialized =>
    split at h
    · exact absurd h (silent_no_recv (resetPulseEvents_silent _))
    · match j, h with
      | 6, h => cases h; exact .handshake
      | 7, h => cases h
      | n + 8, h => cases h
  case synced =>
    match j, h with
    | 1, h => cases h; exact .ramInit
    | 3, h => cases h; exact .shimData
    | 5, h => cases h; exact .jump
  case shimActive =>
    obtain ⟨rfl, rfl, rfl⟩ := exchange_recv rfl h
    exact .chipErase
  case erased =>
    split at h
    · obtain ⟨rfl, rfl, rfl⟩ := exchange_recv rfl h
      exact .segment
    · cases h
  case verified =>
    split at h
    · cases h
    · obtain ⟨rfl, rfl, rfl⟩ := exchange_recv rfl h
      exact .page
  case programmed => exact absurd h (silent_no_recv (resetPulseEvents_silent _))
  case closed | reset | done | failed => cases h

/-! ### What a failing operation leaves -/

/-- From `s` to `t` the device was sent no byte and no edge of the reset line. -/
def NothingSent (s t : State) : Prop := ∃ es, t.trace = s.trace ++ es ∧ txBytes es = [] ∧ ∀ a, .setReset a ∉ es

theorem txBytes_append (es fs : List TraceEvent) : txBytes (es ++ fs) = txBytes es ++ txBytes fs := by
  induction es with
  | nil => rfl
  | cons e es ih => cases e <;> simp [txBytes, ih]

theorem NothingSent.refl (s : State) : NothingSent s s := ⟨[], by simp [txBytes]⟩

theorem NothingSent.trans {s t u : State} (h : NothingSent s t) (k : NothingSent t u) : NothingSent s u := by
  obtain ⟨es, htrace, htx, hline⟩ := h
  obtain ⟨fs, ktrace, ktx, kline⟩ := k
  refine ⟨es ++ fs, by rw [ktrace, htrace, List.append_assoc], by rw [txBytes_append, htx, ktx]; rfl, fun a ha => ?_⟩
  exact (List.mem_append.mp ha).elim (hline a) (kline a)

/-- What an operation that fails in a run leaves before the error is taken. -/
structure FailingMove (s u : State) : Prop where
  move : OpMove s u
  pos : u.pos = s.pos
  run : u.run = s.run
  sent : NothingSent s u

/-- How a read of response `sh` fails for the operation `c` (60_exceptions.md R217, R218): the bytes that came are in `RXB` and in the
error, and `ADDR` is left alone. -/
structure ReadFailure (c : Ctx) (sh : RxShape) (s : State) (i : ErrInfo) (u : State) : Prop extends FailingMove s u where
  ctx : i.ctx = c
  rx : u.rx = rxBuffer i.raw
  addr : u.wrk.addr = s.wrk.addr
  verdict : i.kind = .timeout ∧ i.raw.length < sh.count ∨
    i.kind = .protocol ∧ i.raw.length = sh.count ∧ sh.accepts i.raw = false

theorem opRecv_raises {c : Ctx} {sh : RxShape} {s u : State} {i : ErrInfo} (hopen : s.link.tOpen = true)
    (h : opRecv c sh s = .err i u) : ReadFailure c sh s i u := by
  have hmove : EvMove s u := by
    have hend := opRecv_end c sh s
    rw [h] at hend
    cases hend with
    | err hmove => exact hmove
  have hopMove := hmove.opMove
  unfold opRecv at h
  obtain ⟨v, hv, ⟨hfull, hread⟩ | ⟨hfew, -, hread⟩⟩ := opRead_open c sh.count s.cfg.tRead.toNat _ hopen
  all_goals rw [hread] at h
  · dsimp only at h
    split at h
    · cases h
    · next hrejected =>
      cases h
      refine ⟨⟨hopMove, hmove.pos, hmove.run, [_], congrArg (· ++ _) hv.trace, rfl, by simp⟩, rfl, rfl, ?_,
        .inr ⟨rfl, ?_, ?_⟩⟩
      · rw [RxShape.regs_addr, readTaken_wrk, hv.wrk]
      · rw [List.length_take, Nat.min_eq_left hfull]
      · simpa using hrejected
  · cases h
    exact ⟨⟨hopMove, hmove.pos, hmove.run, [_], congrArg (· ++ _) hv.trace, rfl, by simp⟩, rfl, rfl,
      congrArg WorkRegs.addr hv.wrk, .inl ⟨rfl, hfew⟩⟩

/-- An `Open` that is refused raises IOError (60_exceptions.md R216). -/
theorem opOpen_raises {port : List Byte} {baud : Word} {s u : State} {i : ErrInfo} (h : opOpen port baud s = .err i u) :
    i = { kind := .io, ctx := ctxOpen, raw := [] } ∧ FailingMove s u := by
  obtain ⟨v, hv, htrace, hyes, hno⟩ := opOpen_spec port baud s
  have hmoves := opOpen_moves port baud s
  rw [h] at hmoves
  cases ha : s.env.opens.headD false
  · rw [(hno ha).1] at h
    cases h
    refine ⟨rfl, hmoves.1, hv.pos, hv.run, _, by rw [htrace, List.append_assoc], ?_⟩
    cases s.link.tOpen <;> simp [txBytes]
  · rw [(hyes ha).1] at h
    cases h

/-! ### How a step of a run fails -/

/-- The ways a step of a run at `s` fails, with the error it raises and the state it raises it in: the image is not there, the link
does not open, or a read of the event list fails. -/
inductive RunFailure (s : State) : ErrInfo → State → Prop where
  | image (hst : s.pos.st = .closed) (hrun : s.run = some .download) (himg : s.cfg.imgErr = true) : RunFailure s imageError s
  | opening {i : ErrInfo} {u : State} (hst : s.pos.st = .closed) (h : opOpen s.cfg.port s.cfg.baud s = .err i u) : RunFailure s i u
  | reading {c : Ctx} {sh : RxShape} {i : ErrInfo} {u : State} (hat : ReadAt s.pos.st s.pos.ph.toNat c sh)
    (h : ReadFailure c sh (beginStep s) i u) : RunFailure s i u

theorem seqOpen_failed {s t : State} {k : RunKind} (inv : RunInv s k) (hst : s.pos.st = .closed)
    (hstep : (seqOpen s).settle = .next t) (hfailed : t.pos.st = .failed) : ∃ i u, t = enterFailed i u ∧ RunFailure s i u := by
  rcases settle_next hstep with hok | ⟨i, u, herr, rfl⟩
  · exact absurd hfailed (inv.seqOpen_ok hst hok).live.2
  · refine ⟨i, u, rfl, ?_⟩
    unfold seqOpen at herr
    split at herr
    · next h => cases herr; exact .image hst h.1 h.2
    · exact .opening hst (map_eq_err herr)

theorem seqEvent_failed {s t : State} {k : RunKind} (inv : RunInv s k) (hrun : s.run = some k) (he : s.pos.st.hasEvents = true)
    (hstep : (seqEvent s).settle = .next t) (hfailed : t.pos.st = .failed) : ∃ i u, t = enterFailed i u ∧ RunFailure s i u := by
  rcases settle_next hstep with hok | ⟨i, u, herr, rfl⟩
  · exact absurd hfailed (inv.seqEvent_ok hrun he hok).live.2
  · refine ⟨i, u, rfl, ?_⟩
    have hopen : (beginStep s).link.tOpen = true := by rw [beginStep_link]; exact (inv.inStep hrun he).linked
    cases hev : (stepEvents (beginStep s))[s.pos.ph.toNat]? with
    | none => rw [seqEvent_none hev] at herr; cases herr
    | some ce =>
      obtain ⟨c, e⟩ := ce
      rw [seqEvent_some hev] at herr
      have hread := map_eq_err herr
      have hend := runEv_end c e (beginStep s)
      rw [hread] at hend
      cases hend with
      | err _ _ _ _ hrecv =>
        obtain ⟨sh, rfl⟩ := hrecv
        have hat := stepEvents_recv hev
        rw [beginStep_pos] at hat
        exact .reading hat (opRecv_raises hopen hread)

/-- The step of a run that enters `Failed` takes the error of one of these failures. -/
theorem RunInv.step_failed {s t : State} {k : RunKind} (inv : RunInv s k) (hrun : s.run = some k) (hhost : s.host = [])
    (hstep : step s = .next t) (hfailed : t.pos.st = .failed) : ∃ i u, t = enterFailed i u ∧ RunFailure s i u := by
  rw [step_quiet hhost] at hstep
  cases he : s.pos.st.hasEvents with
  | true =>
    rw [seqStep_events hrun he] at hstep
    exact seqEvent_failed inv hrun he hstep hfailed
  | false =>
    obtain ⟨hdone, hlive⟩ := inv.live
    cases hst : s.pos.st <;> simp only [hst, SeqState.hasEvents, Bool.true_eq_false] at he
    case closed =>
      rw [seqStep_closed hrun hst] at hstep
      exact seqOpen_failed inv hst hstep hfailed
    case reset =>
      simp only [seqStep, hrun, hst] at hstep
      cases k with
      | download =>
        cases hstep
        simp [finishRun_eq, opClose_pos, hst] at hfailed
      | listen => cases hstep
    case done => exact absurd hst hdone
    case failed => exact absurd hst hlive

section
variable {s u : State} {i : ErrInfo}

theorem RunFailure.move (h : RunFailure s i u) : FailingMove s u := by
  cases h with
  | image => exact ⟨.refl s, rfl, rfl, .refl s⟩
  | opening _ h => exact (opOpen_raises h).2
  | reading _ h =>
    exact ⟨(beginStep_opMove s).trans h.move, h.pos.trans (beginStep_pos s), h.run.trans (beginStep_run s), by
      simpa [NothingSent] using h.sent⟩

theorem RunFailure.kind_ne_none (h : RunFailure s i u) : i.kind ≠ .none := by
  cases h with
  | image => decide
  | opening _ h => rw [(opOpen_raises h).1]; decide
  | reading _ h => rcases h.verdict with ⟨hk, -⟩ | ⟨hk, -⟩ <;> rw [hk] <;> decide

end

/-! ### The end of the run -/

theorem opClose_sends_nothing (s : State) : NothingSent s (opClose s) := by
  cases ho : s.link.tOpen
  · rw [opClose_closed ho]; exact .refl s
  · rw [opClose_open ho]
    exact ⟨[.closed], by rw [closeLink_trace, (envTurn_move s).trace], by simp [txBytes]⟩

/-- Taking an error sends nothing: the release only closes the link (45_orchestrator.md R195, R196). -/
theorem enterFailed_sends_nothing (i : ErrInfo) (s : State) : NothingSent s (enterFailed i s) := by
  unfold enterFailed release
  split
  · exact opClose_sends_nothing (recordError i s)
  · exact .refl s

/-- The release of a failing run leaves the link closed and driving nothing (45_orchestrator.md R195, R196). -/
theorem enterFailed_released (i : ErrInfo) {s : State} (hbusy : s.busy = true) (hquiet : s.link.Quiet) :
    (enterFailed i s).link.tOpen = false ∧ (enterFailed i s).link.rst = .undriven := by
  obtain ⟨-, -, -, -, -, -, -, -, -, -, -, -, hrelease⟩ := enterFailed_spec i s
  obtain ⟨hclosed, hwasClosed, hwasOpen⟩ := hrelease hbusy
  refine ⟨hclosed, ?_⟩
  cases ho : s.link.tOpen
  · obtain ⟨hlink, -⟩ := hwasClosed ho
    rw [hlink]
    exact (hquiet ho).2
  · obtain ⟨-, hlink, -⟩ := hwasOpen ho
    rw [hlink]

/-- Settles O48: what fails sends nothing and keeps the position (`FailingMove`), and taking the error releases the link. -/
theorem failureEndsTheRunAtOnce : Obligations.FailureEndsTheRunAtOnce := by
  intro s t hinv hbusy hhost hstep hfailed
  obtain ⟨k, hrun⟩ := Option.isSome_iff_exists.mp hbusy
  obtain ⟨i, u, rfl, hfailure⟩ := (hinv.running k hrun).step_failed hrun hhost hstep hfailed
  have hmove := hfailure.move
  obtain ⟨hpos, hended, herr, -⟩ := enterFailed_spec i u
  obtain ⟨hclosed, hrst⟩ :=
    enterFailed_released i ((congrArg Option.isSome hmove.run).trans hbusy) (hmove.move.quiet hinv.closedQuiet)
  rw [State.busy, hended, hpos, hmove.pos, herr]
  exact ⟨rfl, hclosed, hrst, rfl, rfl, hfailure.kind_ne_none, hmove.move.inputs.trans (enterFailed_inputs i u),
    hmove.sent.trans (enterFailed_sends_nothing i u)⟩

/-! ### The record -/

/-- The record of a failed read begun at `s` (60_exceptions.md R217, R218, R220). -/
structure RecordsRead (c : Ctx) (sh : RxShape) (s t : State) : Prop where
  raw : t.err.raw = t.rx.rxb
  verdict : t.err.kind = .timeout ∧ t.err.raw.length < sh.count ∨
    t.err.kind = .protocol ∧ t.err.raw.length = sh.count ∧ sh.accepts t.err.raw = false
  step : t.err.step = c.step
  op : t.err.op = c.op
  addr : t.err.addr = if c.addressed then s.wrk.addr else 0#32
  idx : t.err.idx = s.pos.idx

theorem ReadFailure.records {c : Ctx} {sh : RxShape} {s u : State} {i : ErrInfo} (h : ReadFailure c sh s i u) :
    RecordsRead c sh s (enterFailed i u) := by
  obtain ⟨-, -, herr, -, -, -, -, -, -, hrx, -⟩ := enterFailed_spec i u
  have hfits : i.raw.length ≤ 11 := by
    have hcount := sh.count_le
    rcases h.verdict with ⟨-, hlen⟩ | ⟨-, hlen, -⟩ <;> omega
  have hidx : errIndex i u = u.pos.idx := by
    rcases h.verdict with ⟨hk, -⟩ | ⟨hk, -⟩ <;> simp [errIndex, hk]
  refine ⟨?raw, ?verdict, ?step, ?op, ?addr, ?idx⟩
  all_goals rw [herr, recordError_err]
  case raw => rw [hrx, h.rx]; rfl
  case verdict => rw [clip_fits hfits]; exact h.verdict
  case step => rw [h.ctx]
  case op => rw [h.ctx]
  case addr => simp only [errAddress, h.ctx, h.addr]
  case idx => simp only [hidx, h.pos]

theorem beginStep_addr (s : State) : (beginStep s).wrk.addr = s.wrk.addr := by
  unfold beginStep
  split
  · rfl
  · rfl

/-- In a state with an event list the failure is that of a read, at its `PH`. -/
theorem RunFailure.records {s u : State} {i : ErrInfo} (h : RunFailure s i u) (he : s.pos.st.hasEvents = true) :
    ∃ j c sh, s.pos.ph = BitVec.ofNat 4 j ∧ ReadAt s.pos.st j c sh ∧ RecordsRead c sh s (enterFailed i u) := by
  cases h with
  | image hst | opening hst => rw [hst] at he; cases he
  | @reading c sh _ _ hat h =>
    have hrec := h.records
    refine ⟨_, c, sh, by simp, hat, ⟨hrec.raw, hrec.verdict, hrec.step, hrec.op, ?_, ?_⟩⟩
    · rw [hrec.addr, beginStep_addr]
    · rw [hrec.idx, beginStep_pos]

/-- A run in a loop is a download whose regions are in range (45_orchestrator.md R190, R202). -/
theorem RunInv.downloadOk {s : State} {k : RunKind} (inv : RunInv s k) (h : s.pos.st = .erased ∨ s.pos.st = .verified) :
    s.cfg.downloadOk = true := by
  refine inv.config ?_
  cases k with
  | download => rfl
  | listen => rcases h with hst | hst <;> simpa [hst] using inv.listens rfl

/-- The address of the segment at hand does not wrap (44_flashprogrammer.md R176). -/
theorem RunInv.segment_addr {s : State} {k : RunKind} (inv : RunInv s k) (hst : s.pos.st = .erased) (hph : s.pos.ph = 2#4) :
    s.wrk.addr.toNat = s.cfg.blankStart.toNat + s.pos.idx.toNat * s.cfg.blankPage.toNat := by
  obtain ⟨-, hsize, -, hrange⟩ := s.cfg.downloadOk_iff.mp (inv.downloadOk (.inl hst))
  rw [(inv.located hph).1 hst]
  exact segmentAddr_toNat hsize hrange (inv.segment hst (.inl (by rw [hph]; decide)))

/-- The address of the page at hand does not wrap: something of the image is left (44_flashprogrammer.md R172). -/
theorem RunInv.page_addr {s : State} {k : RunKind} (inv : RunInv s k) (hst : s.pos.st = .verified) (hph : s.pos.ph = 2#4) :
    s.wrk.addr.toNat = s.cfg.imgAddr.toNat + s.cfg.writePage.toNat * s.pos.idx.toNat := by
  obtain ⟨hsize, -, hrange, -⟩ := s.cfg.downloadOk_iff.mp (inv.downloadOk (.inr hst))
  obtain ⟨hmore, hsum⟩ := inv.remaining hst (.inl (by rw [hph]; decide))
  rw [(inv.located hph).2 hst]
  refine pageAddr_toNat hsize hrange ((lt_pageCount_iff hsize _).mpr ?_)
  have hpos : s.wrk.rem.toNat ≠ 0 := fun h0 => hmore (BitVec.eq_of_toNat_eq h0)
  omega

/-- What O49 calls answered: the bytes of `RXB`, fewer than asked for or all of them. -/
theorem RecordsRead.answered {c : Ctx} {sh : RxShape} {s t : State} (h : RecordsRead c sh s t) : t.err.raw = t.rx.rxb ∧
    ((t.err.kind = .timeout ∧ t.err.raw.length < sh.count) ∨ (t.err.kind = .protocol ∧ t.err.raw.length = sh.count)) :=
  ⟨h.raw, h.verdict.imp id fun ⟨hk, hlen, _⟩ => ⟨hk, hlen⟩⟩

/-- Settles O49: at `Closed` the two failures of the first step; elsewhere the read at the position (`ReadAt`) and its record. -/
theorem failuresRecordTheirStepAndOperation : Obligations.FailuresRecordTheirStepAndOperation := by
  intro s t k hinv hrun hhost hstep hfailed answered recorded
  have inv := hinv.running k hrun
  obtain ⟨i, u, rfl, hfailure⟩ := inv.step_failed hrun hhost hstep hfailed
  have hread {st : SeqState} (hst : s.pos.st = st) (he : st.hasEvents = true) :
      ∃ j c sh, s.pos.ph = BitVec.ofNat 4 j ∧ ReadAt st j c sh ∧ RecordsRead c sh s (enterFailed i u) := by
    subst hst; exact hfailure.records he
  refine ⟨fun hst => ?closed, fun hst => ?initialized, fun hst => ?synced, fun hst => ?shimActive, fun hst => ?erased,
    fun hst => ?verified, fun hst => ?programmed, fun hst => ?reset⟩
  case closed =>
    obtain ⟨-, -, herr, -⟩ := enterFailed_spec i u
    simp only [recorded, herr]
    cases hfailure with
    | image _ hdownload himg => exact ⟨rfl, .inl ⟨Option.some.inj (hrun.symm.trans hdownload), himg, rfl, rfl, rfl, rfl, rfl⟩⟩
    | opening _ h =>
      obtain ⟨rfl, -⟩ := opOpen_raises h
      exact ⟨rfl, .inr ⟨rfl, rfl, rfl, rfl, rfl⟩⟩
    | reading hat => rw [hst] at hat; cases hat
  case initialized =>
    obtain ⟨j, c, sh, -, hat, h⟩ := hread hst rfl
    cases hat
    exact ⟨h.answered, h.step, h.op, h.addr, h.idx.trans (inv.index (by simp [hst]) (by simp [hst]))⟩
  case synced =>
    obtain ⟨j, c, sh, hph, hat, h⟩ := hread hst rfl
    have hrecorded : recorded c.step c.op (if c.addressed then s.wrk.addr else 0#32) 0#32 :=
      ⟨h.step, h.op, h.addr, h.idx.trans (inv.index (by simp [hst]) (by simp [hst]))⟩
    cases hat with
    | ramInit => exact .inl ⟨hph, h.answered, hrecorded⟩
    | shimData => exact .inr (.inl ⟨hph, h.answered, hrecorded⟩)
    | jump =>
      have htimeout := h.verdict.resolve_right fun ⟨_, _, hrejected⟩ => by cases hrejected
      exact .inr (.inr ⟨hph, h.answered, htimeout.1, hrecorded⟩)
  case shimActive =>
    obtain ⟨j, c, sh, -, hat, h⟩ := hread hst rfl
    cases hat
    exact ⟨h.answered, h.step, h.op, h.addr, h.idx.trans (inv.index (by simp [hst]) (by simp [hst]))⟩
  case erased =>
    obtain ⟨j, c, sh, hph, hat, h⟩ := hread hst rfl
    cases hat
    exact ⟨h.answered, ⟨h.step, h.op, h.addr, h.idx⟩, (congrArg BitVec.toNat h.addr).trans (inv.segment_addr hst hph)⟩
  case verified =>
    obtain ⟨j, c, sh, hph, hat, h⟩ := hread hst rfl
    cases hat
    exact ⟨h.answered, ⟨h.step, h.op, h.addr, h.idx⟩, (congrArg BitVec.toNat h.addr).trans (inv.page_addr hst hph)⟩
  case programmed =>
    obtain ⟨j, c, sh, -, hat, -⟩ := hread hst rfl
    cases hat
  case reset =>
    cases hfailure with
    | image hclosed | opening hclosed => rw [hclosed] at hst; cases hst
    | reading hat => rw [hst] at hat; cases hat

end Sys2Proof.Machine
end

