-- ==== Sys2Proof/Proofs/Messages.lean ====
section
/-! PROOFS. What the block transmits (60_exceptions.md R230), said once for an event, an operation, an instruction and a move of a run
(`Sent`): in a run the message of the position (`SendAt`), in a call alone messages of the call's group. -/

namespace Sys2Proof.Machine

/-! ### Messages in the trace -/

/-- From `s` to `t` the block transmitted the messages `ms`, one after the other, and no other byte. -/
def Sent (ms : List TxMsg) (s t : State) : Prop := ∃ es, t.trace = s.trace ++ es ∧ txBytes es = (ms.map TxMsg.bytes).flatten

theorem txBytes_map_tx (bs : List Byte) : txBytes (bs.map .tx) = bs := by
  induction bs with
  | nil => rfl
  | cons b bs ih => rw [List.map_cons, txBytes, ih]

theorem Sent.of_trace {s t : State} (h : t.trace = s.trace) : Sent [] s t := ⟨[], by rw [h, List.append_nil], rfl⟩

/-- Any event of the trace but a byte transmitted. -/
theorem Sent.of_event {s t : State} {e : TraceEvent} (h : t.trace = s.trace ++ [e]) (he : txBytes [e] = []) : Sent [] s t :=
  ⟨[e], h, he⟩

theorem Sent.message {s t : State} {m : TxMsg} (h : t.trace = s.trace ++ m.bytes.map .tx) : Sent [m] s t :=
  ⟨_, h, by rw [txBytes_map_tx]; simp⟩

theorem NothingSent.sent {s t : State} (h : NothingSent s t) : Sent [] s t := by
  obtain ⟨es, htrace, htx, -⟩ := h
  exact ⟨es, htrace, htx⟩

theorem Sent.trans {ms ms' : List TxMsg} {s t u : State} (h : Sent ms s t) (k : Sent ms' t u) : Sent (ms ++ ms') s u := by
  obtain ⟨es, htrace, htx⟩ := h
  obtain ⟨fs, ktrace, ktx⟩ := k
  exact ⟨es ++ fs, by rw [ktrace, htrace, List.append_assoc], by rw [txBytes_append, htx, ktx]; simp⟩

/-- Nothing is sent afterwards. -/
theorem Sent.andNothing {ms : List TxMsg} {s t u : State} (h : Sent ms s t) (k : Sent [] t u) : Sent ms s u :=
  List.append_nil ms ▸ h.trans k

/-! ### What an event transmits -/

/-- The message an event transmits, when the input bytes it needs are there. -/
def Ev.messages (img shm : Memory) : Ev → List TxMsg
  | .send m => [m]
  | .sendShim n => (memRead shm 0 n).toList.map .shimData
  | .sendPage a off n => (memRead img off n).toList.map (.pageWrite a)
  | .setReset _ | .wait _ | .discard | .recv _ => []

/-- However it ends, an operation begun at `s` transmitted `ms`. -/
def Res.SentFrom (ms : List TxMsg) (s : State) : Res → Prop
  | .ok t | .err _ t => Sent ms s t
  | .fault _ | .refused _ => True

theorem requireOpen_sent {ms : List TxMsg} {s : State} {r : Res} (h : s.link.tOpen = true → r.SentFrom ms s) :
    (requireOpen s r).SentFrom ms s := by
  cases ho : s.link.tOpen
  · rw [requireOpen_closed ho]; trivial
  · rw [requireOpen_open ho]; exact h ho

theorem opSend_sent (m : TxMsg) (s : State) : (opSend m s).SentFrom [m] s := by
  cases hr : opSend m s with
  | ok t => exact .message (opSend_trace hr)
  | err i t =>
    have hend := opSend_end ctxOpen (.send m) m s
    rw [hr] at hend
    cases hend with
    | err _ _ _ _ hread =>
      obtain ⟨_, hread⟩ := hread
      cases hread
  | fault | refused => trivial

theorem opRecv_sent (c : Ctx) (sh : RxShape) {s : State} (hopen : s.link.tOpen = true) : (opRecv c sh s).SentFrom [] s := by
  obtain ⟨b, t, ⟨hok | ⟨i, herr⟩, htrace⟩ | ⟨⟨i, herr⟩, htrace⟩⟩ := opRecv_trace c sh hopen
  · rw [hok]; exact .of_event htrace rfl
  · rw [herr]; exact .of_event htrace rfl
  · rw [herr]; exact .of_event htrace rfl

theorem runEv_sent (c : Ctx) (e : Ev) (s : State) : (runEv c e s).SentFrom (e.messages s.img s.shm) s := by
  cases e with
  | setReset a =>
    exact requireOpen_sent fun _ => Sent.of_event (e := .setReset a) (congrArg (· ++ _) (envTurn_move s).trace) rfl
  | wait ms =>
    obtain ⟨u, -, -, hwait⟩ := opWait_spec ms s
    rw [runEv, hwait]
    exact Sent.of_event (e := .waited ms) rfl rfl
  | discard => exact requireOpen_sent fun _ => Sent.of_event (e := .discarded) (congrArg (· ++ _) (envTurn_move s).trace) rfl
  | send m => exact opSend_sent m s
  | sendShim n =>
    simp only [runEv, Ev.messages]
    cases memRead s.shm 0 n with
    | some bytes => exact opSend_sent _ s
    | none => trivial
  | sendPage a off n =>
    simp only [runEv, Ev.messages]
    cases memRead s.img off n with
    | some data => exact opSend_sent _ s
    | none => trivial
  | recv sh =>
    cases ho : s.link.tOpen
    · rw [runEv_closed ho rfl]; trivial
    · exact opRecv_sent c sh ho

/-! ### A move of a run -/

/-- The messages of a run's event lists: in which state and at which `PH` (log 8) they are sent, with the operands of the
configuration and the bytes of the input memories (45_orchestrator.md R191). -/
inductive SendAt (s : State) : SeqState → Nat → TxMsg → Prop where
  | handshake : SendAt s .initialized 3 .handshake
  | pulse : SendAt s .programmed 3 .handshake
  | ramInit : SendAt s .synced 0 (.ramInit s.cfg.ramBase s.cfg.shimLen)
  | shimData {shim : List Byte} (h : memRead s.shm 0 s.cfg.shimLen.toNat = some shim) : SendAt s .synced 2 (.shimData shim)
  | jump : SendAt s .synced 4 .jump
  | chipErase : SendAt s .shimActive 1 .chipErase
  | segment :
    SendAt s .erased 1 (.blankCheck (segmentAddr s.cfg.blankStart s.cfg.blankPage.toNat s.pos.idx.toNat) s.cfg.blankPage)
  | page {data : List Byte} (h : memRead s.img (s.cfg.writePage.toNat * s.pos.idx.toNat) (pageLen s) = some data) :
    SendAt s .verified 1 (.pageWrite (pageAddr s.cfg.imgAddr s.cfg.writePage.toNat s.pos.idx.toNat) data)

theorem resetPulse_send {d c : Ctx} {cfg : ConfigRegs} {img shm : Memory} {j : Nat} {e : Ev} {m : TxMsg}
    (h : (withCtx d (resetPulseEvents cfg))[j]? = some (c, e)) (hm : m ∈ e.messages img shm) : j = 3 ∧ m = .handshake := by
  match j, h with
  | 3, h => cases h; exact ⟨rfl, List.mem_singleton.mp hm⟩
  | 0, h | 1, h | 2, h | 4, h | 5, h => cases h; cases hm

/-- The list of a handshake sends what its pulse sends. -/
theorem handshake_send {d c : Ctx} {cfg : ConfigRegs} {img shm : Memory} {j : Nat} {e : Ev} {m : TxMsg}
    (h : (withCtx d (handshakeEvents cfg))[j]? = some (c, e)) (hm : m ∈ e.messages img shm) : j = 3 ∧ m = .handshake := by
  match j, h with
  | 3, h => cases h; exact ⟨rfl, List.mem_singleton.mp hm⟩
  | 0, h | 1, h | 2, h | 4, h | 5, h | 6, h | 7, h => cases h; cases hm
  | n + 8, h => cases h

/-- In the list of an exchange the request is the event at index 1. -/
theorem exchange_send {d c : Ctx} {x e : Ev} {sh : RxShape} {img shm : Memory} {j : Nat} {m : TxMsg}
    (h : (withCtx d [.discard, x, .recv sh])[j]? = some (c, e)) (hm : m ∈ e.messages img shm) :
    j = 1 ∧ m ∈ x.messages img shm := by
  match j, h with
  | 1, h => cases h; exact ⟨rfl, hm⟩
  | 0, h | 2, h => cases h; cases hm

theorem Ev.mem_messages_sendShim {img shm : Memory} {n : Nat} {m : TxMsg} :
    m ∈ (Ev.sendShim n).messages img shm ↔ ∃ bytes, memRead shm 0 n = some bytes ∧ m = .shimData bytes := by
  simp [messages, eq_comm]

theorem Ev.mem_messages_sendPage {img shm : Memory} {a : Word} {off n : Nat} {m : TxMsg} :
    m ∈ (Ev.sendPage a off n).messages img shm ↔ ∃ data, memRead img off n = some data ∧ m = .pageWrite a data := by
  simp [messages, eq_comm]

theorem stepEvents_send {s : State} {j : Nat} {c : Ctx} {e : Ev} {m : TxMsg} (h : (stepEvents s)[j]? = some (c, e))
    (hm : m ∈ e.messages s.img s.shm) : SendAt s s.pos.st j m := by
  cases hst : s.pos.st <;> simp only [stepEvents, hst] at h
  case initialized =>
    split at h
    · obtain ⟨rfl, rfl⟩ := resetPulse_send h hm
      exact .handshake
    · obtain ⟨rfl, rfl⟩ := handshake_send h hm
      exact .handshake
  case synced =>
    match j, h with
    | 0, h => cases h; obtain rfl := List.mem_singleton.mp hm; exact .ramInit
    | 2, h =>
      cases h
      obtain ⟨shim, hread, rfl⟩ := Ev.mem_messages_sendShim.mp hm
      exact .shimData hread
    | 4, h => cases h; obtain rfl := List.mem_singleton.mp hm; exact .jump
    | 1, h | 3, h | 5, h => cases h; cases hm
  case shimActive =>
    obtain ⟨rfl, hm⟩ := exchange_send h hm
    obtain rfl := List.mem_singleton.mp hm
    exact .chipErase
  case erased =>
    split at h
    · obtain ⟨rfl, hm⟩ := exchange_send h hm
      obtain rfl := List.mem_singleton.mp hm
      exact .segment
    · cases h
  case verified =>
    split at h
    · cases h
    · obtain ⟨rfl, hm⟩ := exchange_send h hm
      obtain ⟨data, hread, rfl⟩ := Ev.mem_messages_sendPage.mp hm
      exact .page hread
  case programmed =>
    obtain ⟨rfl, rfl⟩ := resetPulse_send h hm
    exact .pulse
  case closed | reset | done | failed => cases h

/-- The message of a position may be sent in its state, and in its phase (60_exceptions.md R230). -/
theorem SendAt.allowed {s : State} {st : SeqState} {j : Nat} {m : TxMsg} (h : SendAt s st j m) :
    st.maySend m = true ∧ m.keepsPhase st = true := by
  cases h <;> exact ⟨rfl, rfl⟩

/-- `writeImage` begins with a `Discard`, so a message sent has the `REM` of the state before the step. -/
theorem SendAt.of_beginStep {s : State} {m : TxMsg} (h : SendAt (beginStep s) s.pos.st s.pos.ph.toNat m) :
    SendAt s s.pos.st s.pos.ph.toNat m := by
  by_cases hbegins : s.pos.st = .verified ∧ s.pos.ph = 0#4 ∧ s.pos.idx = 0#32
  · obtain ⟨hst, hph, -⟩ := hbegins
    rw [hst, hph] at h
    cases h
  · rwa [beginStep, if_neg hbegins] at h

theorem Ev.messages_eq (e : Ev) (img shm : Memory) : e.messages img shm = [] ∨ ∃ m, e.messages img shm = [m] := by
  cases e with
  | send m => exact .inr ⟨m, rfl⟩
  | sendShim n => cases h : memRead shm 0 n <;> simp [messages, h]
  | sendPage a off n => cases h : memRead img off n <;> simp [messages, h]
  | setReset | wait | discard | recv => exact .inl rfl

/-- What a move of a run transmits from `s` to `t`: nothing, or the message of the position. -/
def RunSends (s t : State) : Prop := Sent [] s t ∨ ∃ m, Sent [m] s t ∧ SendAt s s.pos.st s.pos.ph.toNat m

theorem seqEvent_sends {s t : State} (h : (seqEvent s).settle = .next t) : RunSends s t := by
  cases hev : (stepEvents (beginStep s))[s.pos.ph.toNat]? with
  | none =>
    rw [seqEvent_none hev] at h
    cases h
    exact .inl (.of_trace (by simp))
  | some ce =>
    obtain ⟨c, e⟩ := ce
    rw [seqEvent_some hev] at h
    have hsent := runEv_sent c e (beginStep s)
    have hevent : Sent (e.messages (beginStep s).img (beginStep s).shm) s t := by
      have hbegun : Sent [] s (beginStep s) := .of_trace (beginStep_trace s)
      cases hu : runEv c e (beginStep s) with
      | ok u =>
        rw [hu] at h hsent
        cases h
        refine (hbegun.trans hsent).andNothing (.of_trace ?_)
        split
        · rfl
        · exact finishEvents_trace u
      | err i u =>
        rw [hu] at h hsent
        cases h
        exact (hbegun.trans hsent).andNothing (enterFailed_sends_nothing i u).sent
      | fault | refused => rw [hu] at h; cases h
    rcases e.messages_eq (beginStep s).img (beginStep s).shm with hnone | ⟨m, hone⟩
    · exact .inl (hnone ▸ hevent)
    · have hat := stepEvents_send hev (m := m) (by rw [hone]; exact List.mem_singleton_self m)
      rw [beginStep_pos] at hat
      exact .inr ⟨m, hone ▸ hevent, hat.of_beginStep⟩

theorem opOpen_sent (port : List Byte) (baud : Word) (s : State) : (opOpen port baud s).SentFrom [] s := by
  obtain ⟨t, -, htrace, hyes, hno⟩ := opOpen_spec port baud s
  have hsent : Sent [] s t := ⟨_, by rw [htrace, List.append_assoc], by cases s.link.tOpen <;> rfl⟩
  cases ha : s.env.opens.headD false
  · rw [(hno ha).1]; exact hsent
  · rw [(hyes ha).1]; exact hsent

theorem Res.SentFrom.map {ms : List TxMsg} {s : State} {r : Res} {f : State → State} (h : r.SentFrom ms s)
    (hf : ∀ t, (f t).trace = t.trace) : (r.map f).SentFrom ms s := by
  cases r with
  | ok t => exact Sent.andNothing h (.of_trace (hf t))
  | err i t => exact h
  | fault | refused => trivial

theorem Res.SentFrom.settle {ms : List TxMsg} {s t : State} {r : Res} (h : r.SentFrom ms s) (ht : r.settle = .next t) :
    Sent ms s t := by
  rcases settle_next ht with rfl | ⟨i, u, rfl, rfl⟩
  · exact h
  · exact Sent.andNothing h (enterFailed_sends_nothing i u).sent

theorem seqOpen_sent (s : State) : (seqOpen s).SentFrom [] s := by
  unfold seqOpen
  split
  · exact .of_trace rfl
  · exact (opOpen_sent _ _ s).map fun _ => rfl

/-- The block's own move, with or without a run. -/
theorem seqStep_sends {s t : State} (h : seqStep s = .next t) : RunSends s t := by
  unfold seqStep at h
  split at h
  · cases h; exact .inl (.of_trace rfl)
  · split at h
    · exact .inl ((seqOpen_sent s).settle h)
    · split at h
      · cases h
        exact .inl ((opClose_sends_nothing s).sent.andNothing (.of_trace (finishRun_trace _)))
      · cases h
    · cases h; exact .inl (.of_trace rfl)
    · cases h; exact .inl (.of_trace rfl)
    · exact seqEvent_sends h

/-! ### A call alone -/

/-- An event that names its message, if it sends one, and a message of the group. -/
def Ev.InClass (cl : MsgClass) : Ev → Prop
  | .send m => m.msgClass = cl
  | .sendShim _ | .sendPage _ _ _ => False
  | .setReset _ | .wait _ | .discard | .recv _ => True

/-- From `s` to `t` messages of the group `cl` only were sent, over an open transport, which was left as open as it was. -/
def SendsClass (cl : MsgClass) (s t : State) : Prop :=
  t.link.tOpen = s.link.tOpen ∧ ∃ ms : List TxMsg, (∀ m ∈ ms, m.msgClass = cl ∧ s.link.tOpen = true) ∧ Sent ms s t

theorem SendsClass.of_nothing {cl : MsgClass} {s t : State} (hopen : t.link.tOpen = s.link.tOpen) (h : Sent [] s t) :
    SendsClass cl s t := ⟨hopen, [], nofun, h⟩

theorem SendsClass.trans {cl : MsgClass} {s t u : State} (h : SendsClass cl s t) (k : SendsClass cl t u) : SendsClass cl s u := by
  obtain ⟨hopen, ms, hms, hsent⟩ := h
  obtain ⟨kopen, ms', kms, ksent⟩ := k
  refine ⟨kopen.trans hopen, ms ++ ms', fun m hm => ?_, hsent.trans ksent⟩
  rcases List.mem_append.mp hm with hm | hm
  · exact hms m hm
  · exact hopen ▸ kms m hm

def Res.SendsClass (cl : MsgClass) (s : State) : Res → Prop
  | .ok t | .err _ t => Machine.SendsClass cl s t
  | .fault _ | .refused _ => True

theorem Res.SendsClass.after {cl : MsgClass} {s t : State} {r : Res} (h : Machine.SendsClass cl s t) (hr : r.SendsClass cl t) :
    r.SendsClass cl s := by
  cases r with
  | ok u | err i u => exact h.trans hr
  | fault | refused => trivial

theorem Res.SendsClass.andThen {cl : MsgClass} {s : State} {r : Res} {k : State → Res} (hr : r.SendsClass cl s)
    (hk : ∀ t, (k t).SendsClass cl t) : (r.andThen k).SendsClass cl s := by
  cases r with
  | ok t => exact .after hr (hk t)
  | err i t => exact hr
  | fault | refused => trivial

/-- An update of registers sends nothing. -/
theorem SendsClass.of_registers {cl : MsgClass} {s t : State} (hlink : t.link = s.link) (htrace : t.trace = s.trace) :
    SendsClass cl s t := .of_nothing (by rw [hlink]) (.of_trace htrace)

theorem Res.SendsClass.map {cl : MsgClass} {s : State} {r : Res} {f : State → State} (hr : r.SendsClass cl s)
    (hlink : ∀ t, (f t).link = t.link) (htrace : ∀ t, (f t).trace = t.trace) : (r.map f).SendsClass cl s :=
  hr.andThen fun t => Machine.SendsClass.of_registers (hlink t) (htrace t)

theorem opSend_sendsClass (m : TxMsg) (s : State) : (opSend m s).SendsClass m.msgClass s := by
  cases ho : s.link.tOpen
  · rw [opSend, requireOpen_closed ho]; trivial
  · have hsent := opSend_sent m s
    rw [opSend_open m ho] at hsent ⊢
    exact ⟨(envTurn_move s).tOpen, [m], fun x hx => by rw [List.mem_singleton.mp hx]; exact ⟨rfl, ho⟩, hsent⟩

theorem runEv_sends_nothing (c : Ctx) {cl : MsgClass} {e : Ev} (he : ∀ img shm, e.messages img shm = []) (s : State) :
    (runEv c e s).SendsClass cl s := by
  have hsent := runEv_sent c e s
  have hend := runEv_end c e s
  rw [he] at hsent
  generalize runEv c e s = r at hsent hend
  cases hend with
  | ok hmove | err hmove => exact .of_nothing hmove.tOpen hsent
  | fault | refused => trivial

theorem runEv_sendsClass (c : Ctx) {cl : MsgClass} {e : Ev} (he : e.InClass cl) (s : State) : (runEv c e s).SendsClass cl s := by
  cases e with
  | send m =>
    obtain rfl : m.msgClass = cl := he
    exact opSend_sendsClass m s
  | sendShim | sendPage => exact he.elim
  | setReset | wait | discard | recv => exact runEv_sends_nothing c (fun _ _ => rfl) s

theorem runEvents_sendsClass (c : Ctx) {cl : MsgClass} (k : Nat) {es : List Ev} (hes : ∀ e ∈ es, e.InClass cl) (s : State) :
    (runEvents c k es s).SendsClass cl s := by
  induction es generalizing k s with
  | nil => exact Machine.SendsClass.of_registers rfl rfl
  | cons e es ih =>
    obtain ⟨he, hrest⟩ := List.forall_mem_cons.mp hes
    exact .andThen (.after (.of_registers (t := setPh k s) rfl rfl) (runEv_sendsClass c he _)) (ih (k + 1) hrest)

theorem resetPulse_inClass (c : ConfigRegs) : ∀ e ∈ resetPulseEvents c, e.InClass .pattern := by
  simp [resetPulseEvents, Ev.InClass, TxMsg.msgClass]

theorem handshake_inClass (c : ConfigRegs) : ∀ e ∈ handshakeEvents c, e.InClass .pattern := by
  simp [handshakeEvents, resetPulseEvents, Ev.InClass, TxMsg.msgClass]

/-- The loader's exchanges: a request and its response (43_shimloader.md R152 to R154). -/
theorem request_inClass (m : TxMsg) (sh : RxShape) : ∀ e ∈ [Ev.send m, .recv sh], e.InClass m.msgClass := by
  simp [Ev.InClass]

/-- The flash exchanges (44_flashprogrammer.md R165). -/
theorem exchange_inClass (m : TxMsg) (sh : RxShape) : ∀ e ∈ exchangeEvents m sh, e.InClass m.msgClass := by
  simp [exchangeEvents, Ev.InClass]

theorem segmentLoop_sendsClass (start : Word) (size : Half) (is : List Nat) (s : State) :
    (segmentLoop start size is s).SendsClass .flash s := by
  induction is generalizing s with
  | nil => exact Machine.SendsClass.of_registers rfl rfl
  | cons i is ih =>
    exact .andThen (.after (.of_registers (t := setIdx i s) rfl rfl) (runEvents_sendsClass _ _ (exchange_inClass _ _) _)) ih

theorem pageLoop_sendsClass (a : Word) (bytes : List Byte) (size : Nat) (is : List Nat) (s : State) :
    (pageLoop a bytes size is s).SendsClass .flash s := by
  induction is generalizing s with
  | nil => exact Machine.SendsClass.of_registers rfl rfl
  | cons i is ih =>
    exact .andThen (.after (.of_registers (t := setIdx i s) rfl rfl) (runEvents_sendsClass _ _ (exchange_inClass _ _) _))
      fun _ => .after (.of_registers rfl rfl) (ih _)

theorem sendChecked_sendsClass (m : TxMsg) (ck : Byte) (s : State) : (sendChecked m ck s).SendsClass m.msgClass s := by
  unfold sendChecked
  split
  · exact opSend_sendsClass m s
  · trivial

/-- What a call that has a step may send: messages of its group, over an open transport. -/
def CallSends (group : Option MsgClass) (s : State) : Host.Outcome State Fault Refusal → Prop
  | .next t => ∃ ms : List TxMsg, (∀ m ∈ ms, group = some m.msgClass ∧ s.link.tOpen = true) ∧ Sent ms s t
  | .fault _ | .refused _ => True

section
variable {s : State} {group : Option MsgClass} {cl : MsgClass} {r : Res}

theorem CallSends.nothing {t : State} (h : Sent [] s t) : CallSends group s (.next t) := ⟨[], nofun, h⟩

theorem CallSends.guarded {p : Prop} [Decidable p] {o : Host.Outcome State Fault Refusal} {x : Refusal}
    (h : CallSends group s o) : CallSends group s (if p then o else .refused x) := by
  split
  · exact h
  · trivial

theorem Res.SendsClass.settle (h : r.SendsClass cl s) : CallSends (some cl) s r.settle := by
  have hgroup {ms : List TxMsg} (hms : ∀ m ∈ ms, m.msgClass = cl ∧ s.link.tOpen = true) :
      ∀ m ∈ ms, some cl = some m.msgClass ∧ s.link.tOpen = true := fun m hm => ⟨congrArg some (hms m hm).1.symm, (hms m hm).2⟩
  cases r with
  | ok t =>
    obtain ⟨-, ms, hms, hsent⟩ := h
    exact ⟨ms, hgroup hms, hsent⟩
  | err i t =>
    obtain ⟨-, ms, hms, hsent⟩ := h
    exact ⟨ms, hgroup hms, hsent.andNothing (enterFailed_sends_nothing i t).sent⟩
  | fault | refused => trivial

/-- A call that sends nothing. -/
theorem Res.SentFrom.callSends (h : r.SentFrom [] s) : CallSends group s r.settle := by
  cases ht : r.settle with
  | next t => exact .nothing (h.settle ht)
  | fault | refused => trivial

end

theorem opRecvMsg_sent (c : Ctx) (sh : RxShape) (bytes : List Byte) (s : State) : (opRecvMsg c sh bytes s).SentFrom [] s :=
  requireOpen_sent fun ho => opRecv_sent c sh (s := { s with link := { s.link with rxq := s.link.rxq ++ bytes } }) ho

theorem execReadExact_sends (count timeout : Word) (group : Option MsgClass) (s : State) :
    CallSends group s (execReadExact count timeout s) := by
  refine Res.SentFrom.callSends ?_
  cases ho : s.link.tOpen
  · rw [opRead, requireOpen_closed ho]; trivial
  · obtain ⟨u, hu, ⟨-, hread⟩ | ⟨-, -, hread⟩⟩ := opRead_open (posCtx s.pos) count.toNat timeout.toNat
      (fun b s1 => .ok { s1 with ret := .bytes b }) ho
    all_goals
      rw [hread]
      exact Sent.of_event (congrArg (· ++ _) hu.trace) rfl

theorem execOpen_sends (port : List Byte) (baud : Word) (group : Option MsgClass) (s : State) :
    CallSends group s (execOpen port baud s) := by
  have hopen : (opOpen port baud (restart s)).SentFrom [] s := opOpen_sent port baud (restart s)
  exact (hopen.map (f := advance .closed .initialized) fun _ => rfl).callSends

theorem execClose_sends (group : Option MsgClass) (s : State) : CallSends group s (execClose s) := by
  unfold execClose
  refine .nothing ?_
  split
  · exact (opClose_sends_nothing s).sent.andNothing (.of_trace (finishRun_trace _))
  · exact .of_trace rfl

theorem execValidateResponseFrame_sends (bytes : List Byte) (n : Word) (group : Option MsgClass) (s : State) :
    CallSends group s (execValidateResponseFrame bytes n s) := by
  unfold execValidateResponseFrame
  dsimp only
  split
  · exact .nothing (.of_trace rfl)
  · exact Res.SentFrom.callSends (Sent.of_trace rfl)

theorem execLoadImage_sends (group : Option MsgClass) (s : State) : CallSends group s (execLoadImage s) := by
  unfold execLoadImage
  split
  · exact Res.SentFrom.callSends (Sent.of_trace rfl)
  · exact .nothing (.of_trace rfl)

/-- The acceptance of a start command sends nothing (45_orchestrator.md R190). -/
theorem execDownload_sends (group : Option MsgClass) (s : State) : CallSends group s (execDownload s) := by
  unfold execDownload
  split
  · trivial
  · exact .guarded (.nothing (.of_trace rfl))

theorem execListen_sends (group : Option MsgClass) (s : State) : CallSends group s (execListen s) := by
  unfold execListen
  split
  · trivial
  · exact .nothing (.of_trace rfl)

theorem execLoadAndRun_sends (shim : List Byte) (base : Word) (s : State) :
    CallSends (some .loader) s (execLoadAndRun shim base s) := by
  refine .guarded (Res.SendsClass.settle (.map (.andThen (.andThen (.after (.of_registers (t := restart s) rfl rfl) ?_) ?_) ?_)
    (fun _ => rfl) fun _ => rfl))
  · exact runEvents_sendsClass _ _ (request_inClass _ _) _
  · exact runEvents_sendsClass _ _ (request_inClass _ _)
  · exact runEvents_sendsClass _ _ (request_inClass _ _)

/-- An image without bytes has no page (44_flashprogrammer.md R171). -/
theorem execWriteImage_sends (a : Word) (bytes : List Byte) (size : Half) (s : State) :
    CallSends (callClass (.writeImage a bytes size)) s (execWriteImage a bytes size s) := by
  by_cases hbytes : bytes = []
  · subst hbytes
    unfold execWriteImage
    split
    · next hok =>
      obtain ⟨hsize, -⟩ := imageRangeOk_iff.mp hok
      have hnone : pageCount ([] : List Byte).length size.toNat = 0 := by
        simp only [pageCount, List.length_nil, Nat.div_eq_zero_iff]
        omega
      rw [hnone]
      exact .nothing (.of_trace rfl)
    · trivial
  · rw [callClass, if_neg hbytes]
    exact .guarded (Res.SendsClass.settle (.map (.after (.of_registers rfl rfl) (pageLoop_sendsClass _ _ _ _ _))
      (fun _ => rfl) fun _ => rfl))

/-- No segment, no query (44_flashprogrammer.md R176). -/
theorem execBlankCheck_sends (start : Word) (size : Half) (count : Word) (s : State) :
    CallSends (callClass (.blankCheck start size count)) s (execBlankCheck start size count s) := by
  by_cases hcount : count = 0#32
  · subst hcount
    exact .guarded (.nothing (.of_trace rfl))
  · rw [callClass, if_neg hcount]
    exact .guarded (Res.SendsClass.settle (.map (.after (.of_registers (t := restart s) rfl rfl) (segmentLoop_sendsClass _ _ _ _))
      (fun _ => rfl) fun _ => rfl))

section
variable {cl : MsgClass} {es : List Ev} (hes : ∀ e ∈ es, e.InClass cl)
include hes

/-- An operation that is a list of events at the present `IDX` and an update of the position. -/
theorem list_sends (c : Ctx) (k : Nat) {f : State → State} (s : State) (hlink : ∀ t, (f t).link = t.link)
    (htrace : ∀ t, (f t).trace = t.trace) : CallSends (some cl) s ((runEvents c k es s).map f).settle :=
  ((runEvents_sendsClass c k hes s).map hlink htrace).settle

/-- One that begins at `PH` = 0, `IDX` = 0. -/
theorem operation_sends (c : Ctx) (k : Nat) {f : State → State} (s : State) (hlink : ∀ t, (f t).link = t.link)
    (htrace : ∀ t, (f t).trace = t.trace) : CallSends (some cl) s ((runEvents c k es (restart s)).map f).settle :=
  (Res.SendsClass.map (.after (.of_registers rfl rfl) (runEvents_sendsClass c k hes (restart s))) hlink htrace).settle

end

/-- A call alone sends messages of the group that the phase test looks at (log 35); only `writeBytes` sends what it is given. -/
theorem exec_sends {i : Instr} (hi : ∀ data, i ≠ .writeBytes data) (s : State) : CallSends (callClass i) s (exec i s) := by
  cases i with
  | handshakeMsg | jumpMsg | chipEraseMsg => exact (opSend_sendsClass _ s).settle
  | ramInitMsg | blankCheckMsg => exact (sendChecked_sendsClass _ _ s).settle
  | shimDataMsg | pageWriteMsg => exact (sendChecked_sendsClass _ _ s).settle.guarded
  | hsAckMsg | ackMsg | jumpBannerMsg | resp9Msg | resp10Msg => exact (opRecvMsg_sent _ _ _ s).callSends
  | openPort port baud => exact execOpen_sends port baud _ s
  | closePort => exact execClose_sends _ s
  | setResetLine a => exact (runEv_sent ctxOpen (.setReset a) s).callSends
  | discardBuffers => exact (runEv_sent ctxOpen .discard s).callSends
  | writeBytes data => exact absurd rfl (hi data)
  | wait ms => exact (runEv_sent ctxOpen (.wait ms.toNat) s).callSends
  | readExact => exact execReadExact_sends _ _ _ s
  | checksum8 | appendChecksum8 | buildCommandFrame | handshakePattern | isSync | isHandshakeAck | isAck =>
    exact .nothing (.of_trace rfl)
  | validateResponseFrame => exact execValidateResponseFrame_sends _ _ _ s
  | handshake => exact operation_sends (handshake_inClass _) _ _ s (fun _ => rfl) fun _ => rfl
  | resetPulse => exact operation_sends (resetPulse_inClass _) _ _ s advancePulse_link advancePulse_trace
  | loadAndRun => exact execLoadAndRun_sends _ _ s
  | ramInit | jump => exact operation_sends (request_inClass _ _) _ _ s (fun _ => rfl) fun _ => rfl
  | shimData shim =>
    exact (operation_sends (request_inClass (.shimData shim) .ack) ctxShimData 2 (f := restart) s (fun _ => rfl) fun _ => rfl).guarded
  | chipErase => exact operation_sends (exchange_inClass _ _) _ _ s (fun _ => rfl) fun _ => rfl
  | writePage a data =>
    exact (list_sends (exchange_inClass (.pageWrite a data) .resp9) ctxPage 0 (f := setPh 0) s (fun _ => rfl) fun _ => rfl).guarded
  | writeImage => exact execWriteImage_sends _ _ _ s
  | blankCheckSegment => exact list_sends (exchange_inClass _ _) _ _ s (fun _ => rfl) fun _ => rfl
  | blankCheck => exact execBlankCheck_sends _ _ _ s
  | download => exact execDownload_sends _ s
  | listen => exact execListen_sends _ s
  | loadImage => exact execLoadImage_sends _ s

theorem writeBytes_transmits {data : List Byte} {s t : State} (h : exec (.writeBytes data) s = .next t) :
    t.trace = s.trace ++ data.map .tx := by
  have hopWrite : (opWrite data s).settle = .next t := h
  cases ho : s.link.tOpen
  · rw [opWrite, requireOpen_closed ho] at hopWrite; cases hopWrite
  · rw [opWrite_open data ho] at hopWrite; cases hopWrite; rfl

/-! ### The statement -/

/-- The message of the position, in the form of R230: state by state. -/
theorem SendAt.position {s : State} {m : TxMsg} (h : SendAt s s.pos.st s.pos.ph.toNat m) :
    (s.pos.st = .initialized ∨ s.pos.st = .programmed → m = .handshake ∧ s.pos.ph = 3#4) ∧
    (s.pos.st = .synced →
      (s.pos.ph = 0#4 ∧ m = .ramInit s.cfg.ramBase s.cfg.shimLen) ∨
      (s.pos.ph = 2#4 ∧ ∃ shim, memRead s.shm 0 s.cfg.shimLen.toNat = some shim ∧ m = .shimData shim) ∨
      (s.pos.ph = 4#4 ∧ m = .jump)) ∧
    (s.pos.st = .shimActive → s.pos.ph = 1#4 ∧ m = .chipErase) ∧
    (s.pos.st = .erased → s.pos.ph = 1#4 ∧
      m = .blankCheck (segmentAddr s.cfg.blankStart s.cfg.blankPage.toNat s.pos.idx.toNat) s.cfg.blankPage) ∧
    (s.pos.st = .verified → s.pos.ph = 1#4 ∧ ∃ data,
      memRead s.img (s.cfg.writePage.toNat * s.pos.idx.toNat) (min s.cfg.writePage.toNat s.wrk.rem.toNat) = some data ∧
      m = .pageWrite (pageAddr s.cfg.imgAddr s.cfg.writePage.toNat s.pos.idx.toNat) data) := by
  have hph : s.pos.ph = BitVec.ofNat 4 s.pos.ph.toNat := by simp
  generalize s.pos.ph.toNat = j at h hph
  rw [hph]
  generalize s.pos.st = st at h
  cases h with
  | handshake | pulse => exact ⟨fun _ => ⟨rfl, rfl⟩, nofun, nofun, nofun, nofun⟩
  | ramInit => exact ⟨nofun, fun _ => .inl ⟨rfl, rfl⟩, nofun, nofun, nofun⟩
  | @shimData shim hread => exact ⟨nofun, fun _ => .inr (.inl ⟨rfl, shim, hread, rfl⟩), nofun, nofun, nofun⟩
  | jump => exact ⟨nofun, fun _ => .inr (.inr ⟨rfl, rfl⟩), nofun, nofun, nofun⟩
  | chipErase => exact ⟨nofun, nofun, fun _ => ⟨rfl, rfl⟩, nofun, nofun⟩
  | segment => exact ⟨nofun, nofun, nofun, fun _ => ⟨rfl, rfl⟩, nofun⟩
  | @page data hread => exact ⟨nofun, nofun, nofun, nofun, fun _ => ⟨rfl, data, hread, rfl⟩⟩

/-- What a move of a run transmits is a sequence of messages in their phase. -/
theorem RunSends.inPhase {s t : State} (h : RunSends s t) :
    ∃ ms : List TxMsg, Sent ms s t ∧ ∀ m ∈ ms, m.keepsPhase s.pos.st = true := by
  rcases h with hnone | ⟨m, hone, hat⟩
  · exact ⟨[], hnone, nofun⟩
  · exact ⟨[m], hone, fun x hx => by rw [List.mem_singleton.mp hx]; exact hat.allowed.2⟩

/-- What a call within its phase transmits, unless it is `writeBytes`. -/
theorem call_inPhase {i : Instr} {s t : State} (hi : ∀ data, i ≠ .writeBytes data)
    (hphase : s.link.tOpen = true → callInPhase i s.pos.st = true) (h : exec i s = .next t) :
    ∃ ms : List TxMsg, Sent ms s t ∧ ∀ m ∈ ms, m.keepsPhase s.pos.st = true := by
  have hsends := exec_sends hi s
  rw [h] at hsends
  obtain ⟨ms, hms, hsent⟩ := hsends
  refine ⟨ms, hsent, fun m hm => ?_⟩
  obtain ⟨hgroup, hopen⟩ := hms m hm
  simpa [callInPhase, hgroup, TxMsg.keepsPhase] using hphase hopen

/-- Settles O51: a step of a run is the block's own move; any other step that transmits is a call, and a call is in its phase. -/
theorem messagesKeepToTheirPhase : Obligations.MessagesKeepToTheirPhase := by
  refine ⟨fun s t _ hhost hstep => ?run, fun s t hstep => ?any⟩
  case run =>
    rw [step_quiet hhost] at hstep
    rcases seqStep_sends hstep with ⟨es, htrace, htx⟩ | ⟨m, ⟨es, htrace, htx⟩, hat⟩
    · exact ⟨es, htrace, .inl htx⟩
    · obtain ⟨hmay, hkeeps⟩ := hat.allowed
      exact ⟨es, htrace, .inr ⟨m, by simpa using htx, hmay, hkeeps, hat.position⟩⟩
  case any =>
    have hphase {u : State} (h : ∃ ms : List TxMsg, Sent ms s u ∧ ∀ m ∈ ms, m.keepsPhase s.pos.st = true) :
        ∃ es, u.trace = s.trace ++ es ∧
          ((∃ ms : List TxMsg, txBytes es = (ms.map TxMsg.bytes).flatten ∧ ∀ m ∈ ms, m.keepsPhase s.pos.st = true) ∨
            ∃ f bs data r, s.host.head? = some (HostReq.call f bs) ∧ s.busy = false ∧ decode f bs = .ok (.writeBytes data, r) ∧
              txBytes es = data) := by
      obtain ⟨ms, ⟨es, htrace, htx⟩, hms⟩ := h
      exact ⟨es, htrace, .inl ⟨ms, htx, hms⟩⟩
    cases step_end hstep with
    | own _ h => exact hphase (seqStep_sends h).inPhase
    | @called f bs r i _ hr hb hd hp h =>
      by_cases hw : ∃ data, i = .writeBytes data
      · obtain ⟨data, rfl⟩ := hw
        exact ⟨_, writeBytes_transmits (s := s.taken) h, .inr ⟨f, bs, data, r, hr, hb, hd, txBytes_map_tx data⟩⟩
      · exact hphase (call_inPhase (s := s.taken) (fun data hi => hw ⟨data, hi⟩) hp h)
    | wrote | ignored | pokedImg | pokedShm | reset => exact hphase ⟨[], .of_trace rfl, nofun⟩

end Sys2Proof.Machine
end

section
/-! PROOFS. Block reset as the host's request (70_reset_and_hazards.md R245, R246): it is taken in every state, whatever the run. -/

namespace Sys2Proof.Machine

/-- No run is left after block reset (10_state.md R24, R36). -/
@[simp] theorem blockReset_busy (s : State) : (blockReset s).busy = false := by rw [State.busy, blockReset_run]; rfl

/-- A requested block reset never waits and is never refused: no position, run or transport is asked for. -/
theorem step_blockReset {s : State} {rest : List HostReq} (h : s.host = .blockReset :: rest) :
    step s = .next (blockReset { s with host := rest }) := step_eq_hostStep h

/-- Settles O3: the step is `blockReset` itself; its frame is that of the environment, the input memories and the trace (log 16). -/
theorem blockResetStopsAnyRun : Obligations.BlockResetStopsAnyRun := by
  intro s rest hhost
  exact ⟨_, step_blockReset hhost, blockReset_pos _, blockReset_busy _, blockReset_err _, blockReset_cfg _,
    blockReset_link _, blockReset_trace _, blockReset_host _, blockReset_img _, blockReset_shm _, blockReset_env _⟩

end Sys2Proof.Machine
end
